-- ==== Sys2Proof/Word.lean ====
section
/-! DEFINITION. The word types of the GBE interrupt/timing block (spec/00_scope.md sections 7 and 8). -/

namespace Sys2Proof

/-- One 32-bit command word (spec/30_encoding.md rule R47). -/
abbrev Word := BitVec 32

/-- A 16-bit bus address (spec/20_memory.md rule R36). -/
abbrev Addr := BitVec 16

/-- One byte of bus data (spec/20_memory.md rule R40). -/
abbrev Byte := BitVec 8

/-- A piece of text of the debug layer, one character an entry (spec/60_exceptions.md rules R140 to R149). -/
abbrev Text := List Char

end Sys2Proof
end

