-- ==== Sys2Proof/Config.lean ====
section
/-! DEFINITION. What an implementation fixes (the parameters of spec/00_scope.md section 7) and the FREE VALUES: the
answers of the collaborators outside the block and the points the spec leaves open. A free value is an `opaque`
constant with no body, so nothing proved about the model depends on which value it has. -/

namespace Sys2Proof

/-- The five interrupt sources in the order of their index k = 0..4 and of their priority, highest first
(rules R13, R121; the numbering is decision D4). -/
inductive Source where
  | vblank
  | lcd
  | timer
  | serial
  | joypad
deriving DecidableEq, Repr, Inhabited

/-- The eleven bus registers (rules R22 to R32). -/
inductive Reg where
  | p1
  | sb
  | sc
  | div
  | tima
  | tma
  | tac
  | ifReg
  | dma
  | key1
  | ieReg
deriving DecidableEq, Repr, Inhabited

/-- What a key code stands for in the debug layer (rules R146, R148): a character, or one of the three named keys. -/
inductive Key where
  | char (c : Char)
  | backspace
  | newline
  | breakIn
deriving DecidableEq, Repr, Inhabited

/-- An operation the Instruction Execution Unit may perform inside `dispatch_one`, besides IRQ.ACK (rule R5). -/
inductive IeuOp where
  | regRead (a : Addr)
  | regWrite (a : Addr) (d : Byte)
  | imeRequest
  | imeWrite (b : Bool)
  | haltEnter
  | stopEnter
deriving DecidableEq, Repr, Inhabited

/-- What the Instruction Execution Unit does in one `dispatch_one` (rule R5, treatment U5): the operations it performs
and the cycle count it returns. On the interrupt-ready path it performs IRQ.ACK k exactly once, between the operations
`before` and the operations `after`; otherwise it performs `before` and then `after` and no IRQ.ACK (rule R62). -/
structure IeuAnswer where
  before : List IeuOp
  after : List IeuOp
  cycles : Nat
deriving DecidableEq, Repr, Inhabited

/-- What one `Display.advance(m)` does to the block (rule R7, treatment U6): whether it performed IRQ.RAISE 0 (VBlank)
and IRQ.RAISE 1 (LCD-status). Several raises of one flag are one (rule R60), so two bits say all of it. -/
structure DisplayAnswer where
  vblank : Bool
  lcd : Bool
deriving DecidableEq, Repr, Inhabited

/-- The parameters of one machine (spec/00_scope.md section 7). State carries one such record and no step changes it, so
that a statement about every state holds for every value of every parameter. -/
structure Config where
  /-- EXTENDED: the hardware has the speed switch (D21). -/
  extended : Bool
  /-- SERIAL_FAST_PERIOD: cycles per serial bit with the speed flag set (D13). -/
  serialFastPeriod : Nat
  /-- SERIAL_DONE_CLEARS_START: OPEN in the spec (D14). -/
  serialDoneClearsStart : Bool
  /-- OAM_BASE: first address of the DMA destination window (D16). -/
  oamBase : Addr
  addrP1 : Addr
  addrSb : Addr
  addrSc : Addr
  addrDiv : Addr
  addrTima : Addr
  addrTma : Addr
  addrTac : Addr
  addrIf : Addr
  addrDma : Addr
  addrKey1 : Addr
  addrIe : Addr
  /-- VECTOR[0..4]: where the Instruction Execution Unit jumps at an interrupt entry (D28). -/
  vectorVblank : Addr
  vectorLcd : Addr
  vectorTimer : Addr
  vectorSerial : Addr
  vectorJoypad : Addr
  /-- The key code map of the debug layer (treatment U17: a parameter); a code without an entry is no key. -/
  keyMap : List (Byte × Key)
  /-- Whether the break-in key also empties the edit buffer (the spec does not say, rule R148). -/
  breakInClearsBuffer : Bool
deriving DecidableEq, Repr, Inhabited

/-! The numbers the numbered rules themselves state; a rule's pseudocode uses them as literals. -/

/-- TIMER_LAG (rules R16, R71). -/
abbrev Config.timerLag : BitVec 3 := 4#3

/-- SERIAL_PERIOD (rule R82). -/
abbrev Config.serialPeriod : Nat := 512

/-- DMA_LENGTH (rule R89). -/
abbrev Config.dmaLength : Byte := 160#8

/-- WAKE_CYCLES (rules R106, R107). -/
abbrev Config.wakeCycles : Nat := 4

/-! Free values (no body: no proof can use what they are). The argument is the State counter `fresh`, except where
the docstring says otherwise. -/

/-- The Instruction Execution Unit's answer to a `dispatch_one` for which State holds no given answer (U4, U5). -/
opaque Config.freeIeuAnswer : Nat → IeuAnswer

/-- The Display Unit's answer to an `advance` for which State holds no given answer (U6). -/
opaque Config.freeDisplayAnswer : Nat → DisplayAnswer

/-- The Memory Bank Controller's answer to a read for which State holds no given answer (U7). -/
opaque Config.freeBankByte : Nat → Byte

/-- What an address of external memory that nothing has written reads as; the argument is the address (U7). -/
opaque Config.freeUnwrittenByte : Nat → Byte

/-- SERIAL_DONE_CLEARS_START of the machine after reset: OPEN (D14). -/
opaque Config.freeSerialDoneClearsStart : Bool

/-- The key code map of the machine after reset (U17). -/
opaque Config.freeKeyMap : List (Byte × Key)

/-- Whether the break-in key empties the edit buffer, in the machine after reset (rule R148 does not say). -/
opaque Config.freeBreakInClearsBuffer : Bool

/-- The text of a debugger report whose text the spec does not give (U17); the arguments number the kind of report and
give what the report holds. -/
opaque Config.freeReportText : Nat → List Text → Text

/-- The string form of a composite value (the spec gives no format); the argument is its members' values in order. -/
opaque Config.freeCompositeText : List Nat → Text

end Sys2Proof
end

