-- ==== Sys2Proof/Machine/AddressMap.lean ====
section
/-! DEFINITION. Who owns an address (spec/20_memory.md rules R36 to R41) and the default parameters
(spec/00_scope.md section 7). -/

namespace Sys2Proof

/-- The index k of a source (rule R13, decision D4). -/
def Source.index : Source → Nat
  | .vblank => 0
  | .lcd => 1
  | .timer => 2
  | .serial => 3
  | .joypad => 4

/-- The five sources, highest priority first (rule R122). -/
def Source.all : List Source := [.vblank, .lcd, .timer, .serial, .joypad]

/-- The bit of a source in the enable and pending fields (rule R13). -/
def Source.mask (k : Source) : BitVec 5 := 1#5 <<< k.index

/-- The eleven bus registers, in the order of rule R39. -/
def Reg.all : List Reg :=
  [.p1, .sb, .sc, .div, .tima, .tma, .tac, .ifReg, .dma, .key1, .ieReg]

/-- The address parameter ADDR_r of a register (rule R39). -/
def Config.addr (c : Config) : Reg → Addr
  | .p1 => c.addrP1
  | .sb => c.addrSb
  | .sc => c.addrSc
  | .div => c.addrDiv
  | .tima => c.addrTima
  | .tma => c.addrTma
  | .tac => c.addrTac
  | .ifReg => c.addrIf
  | .dma => c.addrDma
  | .key1 => c.addrKey1
  | .ieReg => c.addrIe

/-- The vector address of a source, where the Instruction Execution Unit jumps at the entry (rules R121, R124). -/
def Config.vector (c : Config) : Source → Addr
  | .vblank => c.vectorVblank
  | .lcd => c.vectorLcd
  | .timer => c.vectorTimer
  | .serial => c.vectorSerial
  | .joypad => c.vectorJoypad

/-- Whether the block has the register: all of them, but KEY1 only on the extended variant (rules R31, R39). -/
def Config.claims (c : Config) : Reg → Bool
  | .key1 => c.extended
  | _ => true

/-- The register that claims an address, if one does (rule R39). -/
def Config.claimed (c : Config) (a : Addr) : Option Reg :=
  Reg.all.find? fun r => c.claims r && c.addr r == a

/-- The windows the Memory Bank Controller serves: 0x0000 to 0x7FFF (rule R6) and the banked-RAM window 0xA000 to
0xBFFF (rule R41; PRESUMED, log 4). -/
def bankedWindow (a : Addr) : Bool :=
  decide (a.toNat < 0x8000) || (decide (0xA000 ≤ a.toNat) && decide (a.toNat < 0xC000))

/-- An address of plain external memory: neither claimed by the block nor served by the Memory Bank Controller
(rule R41). -/
def Config.isExternal (c : Config) (a : Addr) : Bool :=
  (c.claimed a).isNone && !bankedWindow a

/-- Address i of the object-memory window (rule R89). -/
def Config.oamAddr (c : Config) (i : Byte) : Addr := c.oamBase + i.setWidth 16

/-- The constraints the spec puts on the parameters: the eleven addresses are pairwise distinct (rule R39), and
SERIAL_FAST_PERIOD is a power of two dividing 512 (D13). The object-memory window is plain external memory, as the
address map of rule R41 has it (DEDUCED, log 6). -/
def Config.wf (c : Config) : Bool :=
  decide (Reg.all.map c.addr).Nodup
  && [1, 2, 4, 8, 16, 32, 64, 128, 256, 512].contains c.serialFastPeriod
  && (List.range 160).all fun i => c.isExternal (c.oamAddr (BitVec.ofNat 8 i))

/-- The values spec/00_scope.md section 7 takes for the parameters (PRESUMED where the table marks general knowledge,
logs 2 to 5). The parameter the spec leaves OPEN, the key code map and the break-in key's effect on the edit buffer
are free values (logs 9, 14, 15). -/
def Config.default : Config where
  extended := true
  serialFastPeriod := 16
  serialDoneClearsStart := Config.freeSerialDoneClearsStart
  oamBase := 0xFE00#16
  addrP1 := 0xFF00#16
  addrSb := 0xFF01#16
  addrSc := 0xFF02#16
  addrDiv := 0xFF04#16
  addrTima := 0xFF05#16
  addrTma := 0xFF06#16
  addrTac := 0xFF07#16
  addrIf := 0xFF0F#16
  addrDma := 0xFF46#16
  addrKey1 := 0xFF4D#16
  addrIe := 0xFFFF#16
  vectorVblank := 0x0040#16
  vectorLcd := 0x0048#16
  vectorTimer := 0x0050#16
  vectorSerial := 0x0058#16
  vectorJoypad := 0x0060#16
  keyMap := Config.freeKeyMap
  breakInClearsBuffer := Config.freeBreakInClearsBuffer

end Sys2Proof
end

