-- ==== Sys2Proof/Syntax.lean ====
section
/-! DEFINITION. The operations of the block: one constructor per row of spec/opcode_table.json, in the table's order
(spec/30_encoding.md rules R46, R49, R50). -/

namespace Sys2Proof

/-- One operation of the block, with its operands (rule R46). The named register accesses are the operations RD.r and
WR.r of rule R50; `regRead` and `regWrite` are the generic rows, an access to an address the block does not claim. -/
inductive Instr where
  | step
  | regRead (a : Addr)
  | regWrite (a : Addr) (d : Byte)
  | cyclesRun (n : BitVec 16)
  | irqRaise (k : Source)
  | irqAck (k : Source)
  | imeRequest
  | imeWrite (b : Bool)
  | haltEnter
  | stopEnter
  | timerAdvance
  | serialAdvance
  | dmaAdvance
  | dmaStart (a : Addr)
  | joypadUpdate (d : Byte)
  | speedPrepare (b : Bool)
  | speedCommit
  | dbgStep
  | dbgKey (c : Byte) (p : Bool)
  | rdP1
  | wrP1 (d : Byte)
  | rdSb
  | wrSb (d : Byte)
  | rdSc
  | wrSc (d : Byte)
  | rdDiv
  | wrDiv (d : Byte)
  | rdTima
  | wrTima (d : Byte)
  | rdTma
  | wrTma (d : Byte)
  | rdTac
  | wrTac (d : Byte)
  | rdIf
  | wrIf (d : Byte)
  | rdDma
  | wrDma (d : Byte)
  | rdKey1
  | wrKey1 (d : Byte)
  | rdIe
  | wrIe (d : Byte)
deriving DecidableEq, Repr, Inhabited

end Sys2Proof
end

