-- ==== Sys2Proof/WellFormed.lean ====
section
/-! DEFINITION. Which terms of Instr spell a command word (spec/30_encoding.md rules R50, R52). -/

namespace Sys2Proof

/-- A generic access is one to an address the block does not claim, since a claimed address is the named access, and
the KEY1 accesses exist only on the extended variant (rule R50). Every other term spells a word: operand ranges
(k in 0..4, one-bit operands, rule R48) are in the types. -/
def Instr.wf (c : Config) : Instr → Bool
  | .regRead a => (c.claimed a).isNone
  | .regWrite a _ => (c.claimed a).isNone
  | .rdKey1 => c.extended
  | .wrKey1 _ => c.extended
  | .step => true
  | .cyclesRun _ => true
  | .irqRaise _ => true
  | .irqAck _ => true
  | .imeRequest => true
  | .imeWrite _ => true
  | .haltEnter => true
  | .stopEnter => true
  | .timerAdvance => true
  | .serialAdvance => true
  | .dmaAdvance => true
  | .dmaStart _ => true
  | .joypadUpdate _ => true
  | .speedPrepare _ => true
  | .speedCommit => true
  | .dbgStep => true
  | .dbgKey _ _ => true
  | .rdP1 => true
  | .wrP1 _ => true
  | .rdSb => true
  | .wrSb _ => true
  | .rdSc => true
  | .wrSc _ => true
  | .rdDiv => true
  | .wrDiv _ => true
  | .rdTima => true
  | .wrTima _ => true
  | .rdTma => true
  | .wrTma _ => true
  | .rdTac => true
  | .wrTac _ => true
  | .rdIf => true
  | .wrIf _ => true
  | .rdDma => true
  | .wrDma _ => true
  | .rdIe => true
  | .wrIe _ => true

end Sys2Proof
end

