-- ==== Sys2Proof/Decode.lean ====
section
/-! DEFINITION. Command words: the decoder, total on every word and every byte string and refusing by name, and the
encoder (spec/30_encoding.md rules R47 to R52). -/

namespace Sys2Proof

/-- Why a command word or a byte string spells no operation (rule R52). -/
inductive DecodeError where
  /-- The `op` value is not in the table. -/
  | reservedOp (op : Byte)
  /-- A field, or a bit of `d` above a small operand, that the operation does not use is not zero. -/
  | nonzeroUnusedField
  /-- IRQ.RAISE or IRQ.ACK with k in 5..7. -/
  | sourceOutOfRange
  /-- Fewer than the four bytes of one command word. -/
  | truncated
deriving DecidableEq, Repr

/-- What a decoder answers: the operation a word spells, or why it spells none. -/
inductive Decoded where
  | operation (i : Instr)
  | refused (e : DecodeError)
deriving DecidableEq, Repr

/-- The field `op = w[31:24]` (rule R47). -/
def opField (w : Word) : Byte := w.extractLsb' 24 8

/-- The field `a = w[23:8]` (rule R47). -/
def aField (w : Word) : Addr := w.extractLsb' 8 16

/-- The field `d = w[7:0]` (rule R47). -/
def dField (w : Word) : Byte := w.extractLsb' 0 8

/-- The word of three fields (rule R47). -/
def packWord (op : Byte) (a : Addr) (d : Byte) : Word :=
  op.setWidth 32 <<< 24 ||| a.setWidth 32 <<< 8 ||| d.setWidth 32

/-- The source with index k, if k is one (rule R13). -/
def sourceOf (k : Nat) : Option Source :=
  match k with
  | 0 => some .vblank
  | 1 => some .lcd
  | 2 => some .timer
  | 3 => some .serial
  | 4 => some .joypad
  | _ => none

/-- RD.r, the named form of REG.READ ADDR_r (rule R50). -/
def readInstr : Reg → Instr
  | .p1 => .rdP1
  | .sb => .rdSb
  | .sc => .rdSc
  | .div => .rdDiv
  | .tima => .rdTima
  | .tma => .rdTma
  | .tac => .rdTac
  | .ifReg => .rdIf
  | .dma => .rdDma
  | .key1 => .rdKey1
  | .ieReg => .rdIe

/-- WR.r d, the named form of REG.WRITE ADDR_r, d (rule R50). -/
def writeInstr (d : Byte) : Reg → Instr
  | .p1 => .wrP1 d
  | .sb => .wrSb d
  | .sc => .wrSc d
  | .div => .wrDiv d
  | .tima => .wrTima d
  | .tma => .wrTma d
  | .tac => .wrTac d
  | .ifReg => .wrIf d
  | .dma => .wrDma d
  | .key1 => .wrKey1 d
  | .ieReg => .wrIe d

/-- An operation whose unused bits must be zero (rules R48, R52). -/
def ifUnusedZero (unusedZero : Bool) (i : Instr) : Decoded :=
  if unusedZero then .operation i else .refused .nonzeroUnusedField

/-- REG.READ a: the named access where the address is claimed, the generic one otherwise (rule R50). -/
def decodeRead (c : Config) (a : Addr) (d : Byte) : Decoded :=
  ifUnusedZero (d == 0#8) (match c.claimed a with
    | some r => readInstr r
    | none => .regRead a)

/-- REG.WRITE a, d: the named access where the address is claimed, the generic one otherwise (rule R50). -/
def decodeWrite (c : Config) (a : Addr) (d : Byte) : Decoded :=
  .operation (match c.claimed a with
    | some r => writeInstr d r
    | none => .regWrite a d)

/-- IRQ.RAISE and IRQ.ACK: k = d[2:0], the bits above it zero, k at most 4 (rules R48, R49, R52). -/
def decodeSource (mk : Source → Instr) (a : Addr) (d : Byte) : Decoded :=
  if a == 0#16 && d.extractLsb' 3 5 == 0#5 then
    match sourceOf (d.extractLsb' 0 3).toNat with
    | some k => .operation (mk k)
    | none => .refused .sourceOutOfRange
  else .refused .nonzeroUnusedField

/-- IME.WRITE and SPEED.PREPARE: b = d[0], the bits above it zero (rule R48). -/
def decodeBit (mk : Bool → Instr) (a : Addr) (d : Byte) : Decoded :=
  ifUnusedZero (a == 0#16 && d.extractLsb' 1 7 == 0#7) (mk (d.getLsbD 0))

/-- The operation a command word spells under the address parameters of `c` (rules R49, R50), or why it spells none
(rule R52). -/
def decodeWord (c : Config) (w : Word) : Decoded :=
  let a := aField w
  let d := dField w
  match (opField w).toNat with
  | 0x00 => ifUnusedZero (a == 0#16 && d == 0#8) .step
  | 0x01 => decodeRead c a d
  | 0x02 => decodeWrite c a d
  | 0x03 => ifUnusedZero (d == 0#8) (.cyclesRun a)
  | 0x10 => decodeSource .irqRaise a d
  | 0x11 => decodeSource .irqAck a d
  | 0x12 => ifUnusedZero (a == 0#16 && d == 0#8) .imeRequest
  | 0x13 => decodeBit .imeWrite a d
  | 0x14 => ifUnusedZero (a == 0#16 && d == 0#8) .haltEnter
  | 0x15 => ifUnusedZero (a == 0#16 && d == 0#8) .stopEnter
  | 0x20 => ifUnusedZero (a == 0#16 && d == 0#8) .timerAdvance
  | 0x21 => ifUnusedZero (a == 0#16 && d == 0#8) .serialAdvance
  | 0x22 => ifUnusedZero (a == 0#16 && d == 0#8) .dmaAdvance
  | 0x23 => ifUnusedZero (d == 0#8) (.dmaStart a)
  | 0x24 => ifUnusedZero (a == 0#16) (.joypadUpdate d)
  | 0x25 => decodeBit .speedPrepare a d
  | 0x26 => ifUnusedZero (a == 0#16 && d == 0#8) .speedCommit
  | 0x30 => ifUnusedZero (a == 0#16 && d == 0#8) .dbgStep
  | 0x31 => ifUnusedZero (a.extractLsb' 8 8 == 0#8 && d.extractLsb' 1 7 == 0#7)
              (.dbgKey (a.extractLsb' 0 8) (d.getLsbD 0))
  | _ => .refused (.reservedOp (opField w))

/-- The word whose stored form is four bytes, the byte of w[31:24] first (rule R47). -/
def wordOfBytes (b0 b1 b2 b3 : Byte) : Word := packWord b0 (b1.setWidth 16 <<< 8 ||| b2.setWidth 16) b3

/-- A command word as it is stored: big-endian (rule R47). -/
def bytesOfWord (w : Word) : List Byte :=
  [opField w, (aField w).extractLsb' 8 8, (aField w).extractLsb' 0 8, dField w]

/-- The first operation of a byte string and the bytes after its four (rule R47: every command is 4 bytes). -/
def decodeBytes (c : Config) : List Byte → Decoded × List Byte
  | b0 :: b1 :: b2 :: b3 :: rest => (decodeWord c (wordOfBytes b0 b1 b2 b3), rest)
  | short => (.refused .truncated, short)

/-- The command word of a well-formed operation (rules R48 to R50). -/
def encode (c : Config) : Instr → Word
  | .step => packWord 0x00#8 0#16 0#8
  | .regRead a => packWord 0x01#8 a 0#8
  | .regWrite a d => packWord 0x02#8 a d
  | .cyclesRun n => packWord 0x03#8 n 0#8
  | .irqRaise k => packWord 0x10#8 0#16 (BitVec.ofNat 8 k.index)
  | .irqAck k => packWord 0x11#8 0#16 (BitVec.ofNat 8 k.index)
  | .imeRequest => packWord 0x12#8 0#16 0#8
  | .imeWrite b => packWord 0x13#8 0#16 (if b then 1#8 else 0#8)
  | .haltEnter => packWord 0x14#8 0#16 0#8
  | .stopEnter => packWord 0x15#8 0#16 0#8
  | .timerAdvance => packWord 0x20#8 0#16 0#8
  | .serialAdvance => packWord 0x21#8 0#16 0#8
  | .dmaAdvance => packWord 0x22#8 0#16 0#8
  | .dmaStart a => packWord 0x23#8 a 0#8
  | .joypadUpdate d => packWord 0x24#8 0#16 d
  | .speedPrepare b => packWord 0x25#8 0#16 (if b then 1#8 else 0#8)
  | .speedCommit => packWord 0x26#8 0#16 0#8
  | .dbgStep => packWord 0x30#8 0#16 0#8
  | .dbgKey k p => packWord 0x31#8 (k.setWidth 16) (if p then 1#8 else 0#8)
  | .rdP1 => packWord 0x01#8 c.addrP1 0#8
  | .wrP1 d => packWord 0x02#8 c.addrP1 d
  | .rdSb => packWord 0x01#8 c.addrSb 0#8
  | .wrSb d => packWord 0x02#8 c.addrSb d
  | .rdSc => packWord 0x01#8 c.addrSc 0#8
  | .wrSc d => packWord 0x02#8 c.addrSc d
  | .rdDiv => packWord 0x01#8 c.addrDiv 0#8
  | .wrDiv d => packWord 0x02#8 c.addrDiv d
  | .rdTima => packWord 0x01#8 c.addrTima 0#8
  | .wrTima d => packWord 0x02#8 c.addrTima d
  | .rdTma => packWord 0x01#8 c.addrTma 0#8
  | .wrTma d => packWord 0x02#8 c.addrTma d
  | .rdTac => packWord 0x01#8 c.addrTac 0#8
  | .wrTac d => packWord 0x02#8 c.addrTac d
  | .rdIf => packWord 0x01#8 c.addrIf 0#8
  | .wrIf d => packWord 0x02#8 c.addrIf d
  | .rdDma => packWord 0x01#8 c.addrDma 0#8
  | .wrDma d => packWord 0x02#8 c.addrDma d
  | .rdKey1 => packWord 0x01#8 c.addrKey1 0#8
  | .wrKey1 d => packWord 0x02#8 c.addrKey1 d
  | .rdIe => packWord 0x01#8 c.addrIe 0#8
  | .wrIe d => packWord 0x02#8 c.addrIe d

/-- A row of the opcode table: a word spells the row when its bits under `mask` are `pattern` and, where `sources` is
true, its k is at most 4 (rule R49). -/
structure OpcodeRow where
  mnemonic : String
  pattern : Word
  mask : Word
  sources : Bool
deriving DecidableEq, Repr

/-- Whether a word spells the row (rule R49). -/
def OpcodeRow.spells (r : OpcodeRow) (w : Word) : Bool :=
  w &&& r.mask == r.pattern && (!r.sources || decide ((w.extractLsb' 0 3).toNat ≤ 4))

/-- The generic rows of the opcode map (rule R49). The named rows of rule R50 are words of its second and third row. -/
def opcodeTable : List OpcodeRow :=
  [⟨"STEP", 0x00000000#32, 0xFFFFFFFF#32, false⟩,
   ⟨"REG.READ", 0x01000000#32, 0xFF0000FF#32, false⟩,
   ⟨"REG.WRITE", 0x02000000#32, 0xFF000000#32, false⟩,
   ⟨"CYCLES.RUN", 0x03000000#32, 0xFF0000FF#32, false⟩,
   ⟨"IRQ.RAISE", 0x10000000#32, 0xFFFFFFF8#32, true⟩,
   ⟨"IRQ.ACK", 0x11000000#32, 0xFFFFFFF8#32, true⟩,
   ⟨"IME.REQUEST", 0x12000000#32, 0xFFFFFFFF#32, false⟩,
   ⟨"IME.WRITE", 0x13000000#32, 0xFFFFFFFE#32, false⟩,
   ⟨"HALT.ENTER", 0x14000000#32, 0xFFFFFFFF#32, false⟩,
   ⟨"STOP.ENTER", 0x15000000#32, 0xFFFFFFFF#32, false⟩,
   ⟨"TIMER.ADVANCE", 0x20000000#32, 0xFFFFFFFF#32, false⟩,
   ⟨"SERIAL.ADVANCE", 0x21000000#32, 0xFFFFFFFF#32, false⟩,
   ⟨"DMA.ADVANCE", 0x22000000#32, 0xFFFFFFFF#32, false⟩,
   ⟨"DMA.START", 0x23000000#32, 0xFF0000FF#32, false⟩,
   ⟨"JOYPAD.UPDATE", 0x24000000#32, 0xFFFFFF00#32, false⟩,
   ⟨"SPEED.PREPARE", 0x25000000#32, 0xFFFFFFFE#32, false⟩,
   ⟨"SPEED.COMMIT", 0x26000000#32, 0xFFFFFFFF#32, false⟩,
   ⟨"DBG.STEP", 0x30000000#32, 0xFFFFFFFF#32, false⟩,
   ⟨"DBG.KEY", 0x31000000#32, 0xFFFF00FE#32, false⟩]

/-- The mnemonic of the generic row an operation's words spell (rules R49, R50). -/
def Instr.rowMnemonic : Instr → String
  | .step => "STEP"
  | .regRead _ => "REG.READ"
  | .regWrite _ _ => "REG.WRITE"
  | .cyclesRun _ => "CYCLES.RUN"
  | .irqRaise _ => "IRQ.RAISE"
  | .irqAck _ => "IRQ.ACK"
  | .imeRequest => "IME.REQUEST"
  | .imeWrite _ => "IME.WRITE"
  | .haltEnter => "HALT.ENTER"
  | .stopEnter => "STOP.ENTER"
  | .timerAdvance => "TIMER.ADVANCE"
  | .serialAdvance => "SERIAL.ADVANCE"
  | .dmaAdvance => "DMA.ADVANCE"
  | .dmaStart _ => "DMA.START"
  | .joypadUpdate _ => "JOYPAD.UPDATE"
  | .speedPrepare _ => "SPEED.PREPARE"
  | .speedCommit => "SPEED.COMMIT"
  | .dbgStep => "DBG.STEP"
  | .dbgKey _ _ => "DBG.KEY"
  | .rdP1 => "REG.READ"
  | .wrP1 _ => "REG.WRITE"
  | .rdSb => "REG.READ"
  | .wrSb _ => "REG.WRITE"
  | .rdSc => "REG.READ"
  | .wrSc _ => "REG.WRITE"
  | .rdDiv => "REG.READ"
  | .wrDiv _ => "REG.WRITE"
  | .rdTima => "REG.READ"
  | .wrTima _ => "REG.WRITE"
  | .rdTma => "REG.READ"
  | .wrTma _ => "REG.WRITE"
  | .rdTac => "REG.READ"
  | .wrTac _ => "REG.WRITE"
  | .rdIf => "REG.READ"
  | .wrIf _ => "REG.WRITE"
  | .rdDma => "REG.READ"
  | .wrDma _ => "REG.WRITE"
  | .rdKey1 => "REG.READ"
  | .wrKey1 _ => "REG.WRITE"
  | .rdIe => "REG.READ"
  | .wrIe _ => "REG.WRITE"

/-- The command word the table writes as the number w on nbits bits; the bits above nbits are zero. -/
def tableWord (nbits w : Nat) : Word := BitVec.ofNat 32 (w % 2 ^ nbits)

/-- The operation the decoder reads from a word given as spec/opcode_table.json numbers it, under the default
parameters: the word is laid out as it is stored (rule R47) and the bytes are decoded. -/
def decodeTableWord (nbits w : Nat) : Option Instr :=
  match (decodeBytes Config.default (bytesOfWord (tableWord nbits w))).1 with
  | .operation i => some i
  | .refused _ => none

end Sys2Proof
end

