-- ==== Sys2Proof/Machine/State.lean ====
section
/-! DEFINITION. The state of the machine as plain data: the block's 26 fields (spec/10_state.md), external memory, the
debugger session (spec/60_exceptions.md rules R140, R141), the parameters, and what passes between the block and the
outside. -/

namespace Sys2Proof.Machine

/-- The block's whole state, the 26 fields of spec/10_state.md under their names there (rules R13 to R20, R34). It is
what a snapshot carries (rule R8). -/
structure Block where
  /-- Enable bits; bit k is source k (R13). -/
  ie : BitVec 5
  /-- Pending flags; bit k is source k (R13). -/
  if_ : BitVec 5
  /-- Master enable (R14). -/
  ime : Bool
  /-- Master-enable request latch (R14). -/
  ime_req : Bool
  /-- The CPU is in HALT mode (R15). -/
  halt : Bool
  /-- The CPU is in STOP mode (R15). -/
  stop : Bool
  /-- Timer divider (R16). -/
  div : BitVec 16
  /-- Timer on flag (R16). -/
  tmr_on : Bool
  /-- Timer frequency selector (R16). -/
  tmr_sel : BitVec 2
  /-- Timer counter register (R16). -/
  tima : Byte
  /-- Timer modulo register (R16). -/
  tma : Byte
  /-- Timer overflow-lag counter, 0..4 (R16). -/
  lag : BitVec 3
  /-- Serial shift register (R17). -/
  sb : Byte
  /-- Serial start flag (R17). -/
  ser_start : Bool
  /-- Serial clock source, true = internal (R17, D15). -/
  ser_internal : Bool
  /-- Serial speed flag (R17). -/
  ser_fast : Bool
  /-- Serial clock counter (R17). -/
  ser_clk : BitVec 9
  /-- Serial bits-transferred counter, 0..7 between operations (R17). -/
  ser_bits : BitVec 4
  /-- DMA active flag (R18). -/
  dma_active : Bool
  /-- DMA transfer index (R18). -/
  dma_idx : Byte
  /-- DMA source address (R18). -/
  dma_src : Addr
  /-- The eight buttons, 1 = pressed (R19). -/
  btn : Byte
  /-- The direction group is selected for reading (R19). -/
  sel_dir : Bool
  /-- The action group is selected for reading (R19). -/
  sel_act : Bool
  /-- Double-speed mode (R20). -/
  fast : Bool
  /-- A speed switch is prepared (R20). -/
  prepared : Bool
deriving DecidableEq, Repr

/-- The block after reset: every field zero (rule R34, decision D30). -/
def Block.reset : Block where
  ie := 0#5
  if_ := 0#5
  ime := false
  ime_req := false
  halt := false
  stop := false
  div := 0#16
  tmr_on := false
  tmr_sel := 0#2
  tima := 0#8
  tma := 0#8
  lag := 0#3
  sb := 0#8
  ser_start := false
  ser_internal := false
  ser_fast := false
  ser_clk := 0#9
  ser_bits := 0#4
  dma_active := false
  dma_idx := 0#8
  dma_src := 0#16
  btn := 0#8
  sel_dir := false
  sel_act := false
  fast := false
  prepared := false

/-- The bytes of plain external memory that something has written, addresses strictly rising; an address without an
entry has not been written (treatment U7; Machine/Memory.lean). -/
abbrev Memory := List Host.Cell

/-- The modes of a debugger session (rule R140). -/
inductive DebugMode where
  | awaitingCommand
  | editingCommandLine
  | runningUnchecked
  | runningWithBreakpoints
deriving DecidableEq, Repr

/-- The comparison operators of a breakpoint (rule R141). -/
inductive BreakOp where
  | change
  | eq
  | neq
deriving DecidableEq, Repr

/-- A breakpoint: the field path's names, the operator and the stored comparison value (rule R141). -/
structure Breakpoint where
  path : List Text
  op : BreakOp
  stored : Text
deriving DecidableEq, Repr

/-- What the session has reported to the user through its output channel (rules R147, R149). -/
inductive Report where
  /-- The first token is not in the command table. -/
  | unknownCmd (name : Text)
  /-- `break` with an operator that is none of CHANGE, EQ, NEQ. -/
  | badOperator
  /-- A command without its path argument. -/
  | missingPath
  /-- `break` with EQ or NEQ and no value. -/
  | missingValue
  /-- A path that does not resolve. -/
  | notFound (path : List Text)
  /-- The value `x` read, in string form. -/
  | value (text : Text)
deriving DecidableEq, Repr

/-- A debugger session (rule R140). Bit c of `keys` says that key code c was down at the previous event; `reports` is
the session's output channel, newest first. -/
structure DebuggerSession where
  mode : DebugMode
  buffer : Text
  keys : BitVec 256
  breakpoints : List Breakpoint
  reports : List Report
deriving DecidableEq, Repr

/-- The initial session (rule R140, decision D32). -/
def DebuggerSession.initial : DebuggerSession where
  mode := .awaitingCommand
  buffer := []
  keys := 0#256
  breakpoints := []
  reports := []

/-- A call of the host that has not been served yet (rules R8, R9): an operation as its command word, a direct
`set_breakpoint_command(tokens)` (rule R46, which gives it no word; its tokens are the arguments alone, without the name
`break`: DESIGN CHOICE, log 30), the taking of a snapshot, the restoring of one that
the State Serializer answered with a state, or of one that it answered with an error. -/
inductive HostCall where
  | command (w : Word)
  | setBreakpoint (tokens : List Text)
  | snapshot
  | restore (b : Block)
  | restoreError
deriving DecidableEq, Repr

/-- What the block tells the outside: the result of a read made by the host or the Instruction Execution Unit, a call of
a collaborator, the calls of the Display and Audio Units with their counts, the state a snapshot carries, and that the
State Serializer gave no state to restore (rules R5 to R8, R37, R108). -/
inductive Event where
  | readResult (a : Addr) (v : Byte)
  | bankRead (a : Addr) (v : Byte)
  | bankWrite (a : Addr) (v : Byte)
  | dispatchOne
  | dispatchInterrupt (k : Source) (vector : Addr)
  | displayAdvance (m : Nat)
  | audioAdvance (m : Nat)
  | snapshot (b : Block)
  | restoreError
deriving DecidableEq, Repr

/-- The machine's state. `cfg` never changes (spec/00_scope.md section 7). The fields after `session` are the MODEL'S
OWN, the block's interface to the outside: the host's calls not yet served; the answers the collaborators are given to
make, oldest first (when a list is empty the answer is a free value, Config); the counter that numbers the free values;
and what the block has told the outside, newest first. -/
structure State extends Block where
  cfg : Config
  mem : Memory
  session : DebuggerSession
  pending : List HostCall
  ieuAnswers : List IeuAnswer
  displayAnswers : List DisplayAnswer
  bankAnswers : List Byte
  fresh : Nat
  output : List Event
deriving DecidableEq, Repr

/-- The machine right after reset: the block all zero, nothing written, a new debugger session, the default parameters,
no call waiting and nothing said (rules R34, R140, R151). -/
def State.reset : State where
  toBlock := Block.reset
  cfg := Config.default
  mem := []
  session := DebuggerSession.initial
  pending := []
  ieuAnswers := []
  displayAnswers := []
  bankAnswers := []
  fresh := 0
  output := []

/-- The reasons a step stops with a fault: none. No operation of the block fails and the block raises no exception
(rules R4, R120), so this type has no constructor. -/
inductive Fault where
deriving DecidableEq, Repr

/-- The reasons a step is refused. -/
inductive Refusal where
  /-- Raised by an arm of exec for an instruction without a meaning; no arm is one. Safe: the machine stops. -/
  | notModelled (mnemonic : String)
  /-- Raised by step for a command word that spells no operation (rule R52, treatment U1): "a decoder refuses it by
  name and the state does not change". Safe: the machine stops. -/
  | noOperation (e : DecodeError)
  /-- Raised by step for a snapshot outside the invariants of rule R35 (treatment U2: refuse). Safe: the machine stops. -/
  | snapshotOutsideInvariants
deriving DecidableEq, Repr

end Sys2Proof.Machine
end

