-- ==== Sys2Proof/Machine/Memory.lean ====
section
/-! DEFINITION. Plain external memory as a list of written cells in one canonical form (rule R38, treatment U7). An
address without an entry has not been written; what it reads as is State.peek's business (Machine/Ops.lean). -/

namespace Sys2Proof.Machine

/-- The byte last written to an address, if one was. -/
def Memory.lookup : Memory → Nat → Option Byte
  | [], _ => none
  | c :: m, a => if c.1 = a then some c.2 else Memory.lookup m a

/-- Writing one byte, keeping the addresses strictly rising. -/
def Memory.write : Memory → Nat → Byte → Memory
  | [], a, v => [(a, v)]
  | c :: m, a, v =>
    if a < c.1 then (a, v) :: c :: m
    else if a = c.1 then (a, v) :: m
    else c :: Memory.write m a v

/-- The canonical form: addresses strictly rising, and inside the 16-bit address space (rule R36). An unlisted address
reads as no byte of the list, so no entry can repeat what an unlisted address reads as, and memories that answer alike
are equal lists. -/
def Memory.wf (m : Memory) : Bool :=
  decide (m.Pairwise fun x y => x.1 < y.1) && m.all fun c => decide (c.1 < 65536)

end Sys2Proof.Machine
end

