-- ==== Sys2Proof/Machine/Flags.lean ====
section
/-! DEFINITION. The interrupt flags: what a step evaluates, and the setting and clearing of a pending flag and of the
master enable (spec/40_interrupt_lines.md rules R58 to R64). -/

namespace Sys2Proof.Machine

/-- `Ready()`: an enabled source is pending, whatever the master enable is (rule R58). -/
def Block.ready (b : Block) : Bool := b.ie &&& b.if_ != 0#5

/-- Source k is enabled and pending (rules R58, R59). -/
def Block.readyFor (b : Block) (k : Source) : Bool := b.ie.getLsbD k.index && b.if_.getLsbD k.index

/-- `Highest()`: the ready source with the least index, if a source is ready (rules R59, R122). -/
def Block.highest (b : Block) : Option Source := Source.all.find? b.readyFor

/-- `IRQ.RAISE k` (rule R60). -/
def Block.raise (k : Source) (b : Block) : Block := { b with if_ := b.if_ ||| k.mask }

/-- `IRQ.RAISE k` when a condition holds. -/
def Block.raiseIf (cond : Bool) (k : Source) (b : Block) : Block := if cond then b.raise k else b

/-- `IRQ.ACK k`, the block's share of an interrupt entry (rules R62, R124). -/
def Block.ack (k : Source) (b : Block) : Block := { b with ime := false, if_ := b.if_ &&& ~~~k.mask }

/-- `IME.REQUEST` (rule R63). -/
def Block.requestIme (b : Block) : Block := { b with ime_req := true }

/-- `IME.WRITE b`; with 1, what a return from interrupt needs of the block (rules R64, R126). -/
def Block.setIme (v : Bool) (b : Block) : Block := { b with ime := v }

/-- Step S4: a requested master enable takes effect (rule R109). -/
def Block.applyImeRequest (b : Block) : Block :=
  if b.ime_req then { b with ime := true, ime_req := false } else b

end Sys2Proof.Machine
end

