-- ==== Sys2Proof/Machine/Operands.lean ====
section
/-! DEFINITION. The operand forms: the timer's and the serial port's periods, the joypad nibble, and the byte layout of
every bus register, read and written (spec/10_state.md rules R22 to R32, spec/30_encoding.md rule R51). -/

namespace Sys2Proof.Machine

/-- `Period(sel)` (rule R70). -/
def period (sel : BitVec 2) : Nat :=
  match sel.toNat with
  | 0 => 1024
  | 1 => 16
  | 2 => 64
  | _ => 256

/-- The boundary test of the divider, `(div & (Period(sel) - 1)) = 0` (rule R71). -/
def timerBoundary (sel : BitVec 2) (div : BitVec 16) : Bool :=
  div &&& BitVec.ofNat 16 (period sel - 1) == 0#16

/-- Cycles per serial bit on the internal clock (rule R82). -/
def serialPeriod (c : Config) (fast : Bool) : Nat :=
  if fast then c.serialFastPeriod else Config.serialPeriod

/-- The boundary test of the serial clock, `(ser_clk & (P - 1)) = 0` (rule R82). -/
def serialBoundary (c : Config) (fast : Bool) (clk : BitVec 9) : Bool :=
  clk &&& BitVec.ofNat 9 (serialPeriod c fast - 1) == 0#9

/-- `JoyNibble(btn, sd, sa)`: a bit is 0 when a selected group has the button of that position pressed (rule R92). -/
def joyNibble (btn : Byte) (sd sa : Bool) : BitVec 4 :=
  let n := 0xF#4
  let n := if sd then n &&& ~~~(btn.extractLsb' 0 4) else n
  if sa then n &&& ~~~(btn.extractLsb' 4 4) else n

/-- The nibble of the block's own buttons and selection. -/
def Block.nibble (b : Block) : BitVec 4 := joyNibble b.btn b.sel_dir b.sel_act

/-- What each register reads as (rules R22 to R32). No read changes any state (rule R42). -/
def Block.regRead (b : Block) : Reg → Byte
  | .p1 => 0b11#2 ++ BitVec.ofBool (!b.sel_act) ++ BitVec.ofBool (!b.sel_dir) ++ b.nibble
  | .sb => b.sb
  | .sc => BitVec.ofBool b.ser_start ++ 0b11111#5 ++ BitVec.ofBool b.ser_fast ++ BitVec.ofBool b.ser_internal
  | .div => b.div.extractLsb' 8 8
  | .tima => b.tima
  | .tma => b.tma
  | .tac => 0b11111#5 ++ BitVec.ofBool b.tmr_on ++ b.tmr_sel
  | .ifReg => 0b111#3 ++ b.if_
  | .dma => b.dma_src.extractLsb' 8 8
  | .key1 => BitVec.ofBool b.fast ++ 0b111111#6 ++ BitVec.ofBool b.prepared
  | .ieReg => 0b000#3 ++ b.ie

/-- `DMA.START a`: a new transfer from index 0, whether or not one is running (rule R88). -/
def Block.dmaStart (a : Addr) (b : Block) : Block :=
  { b with dma_src := a, dma_idx := 0#8, dma_active := true }

/-- `SPEED.PREPARE b` on the extended variant: the flag takes the written bit (rule R97). -/
def Block.speedPrepare (v : Bool) (b : Block) : Block := { b with prepared := v }

/-- What writing each register does; the bits of the byte that map to no field are ignored (rules R22 to R32). -/
def Block.regWrite (d : Byte) (b : Block) : Reg → Block
  | .p1 => { b with sel_act := !d.getLsbD 5, sel_dir := !d.getLsbD 4 }
  | .sb => { b with sb := d }
  | .sc => { b with ser_start := d.getLsbD 7, ser_fast := d.getLsbD 1, ser_internal := d.getLsbD 0 }
  | .div => { b with div := 0#16 }
  | .tima => { b with tima := d }
  | .tma => { b with tma := d }
  | .tac => { b with tmr_on := d.getLsbD 2, tmr_sel := d.extractLsb' 0 2 }
  | .ifReg => { b with if_ := d.extractLsb' 0 5 }
  | .dma => b.dmaStart (d ++ 0x00#8)
  | .key1 => b.speedPrepare (d.getLsbD 0)
  | .ieReg => { b with ie := d.extractLsb' 0 5 }

end Sys2Proof.Machine
end

