-- ==== Sys2Proof/Machine/Ops.lean ====
section
/-! DEFINITION. The operations the meanings share: the bus (spec/20_memory.md rules R37 to R39), what is said to the
outside, the collaborators' answers (spec/00_scope.md rules R5 to R7), and an interrupt's entry
(spec/60_exceptions.md rule R124), and snapshots (spec/00_scope.md rule R8). -/

namespace Sys2Proof.Machine

/-- A change of the block's own fields. -/
def State.onBlock (f : Block → Block) (s : State) : State := { s with toBlock := f s.toBlock }

/-- Something the outside is told. -/
def State.emit (e : Event) (s : State) : State := { s with output := e :: s.output }

/-! ## Memory and the bus -/

/-- The byte at an address of plain external memory: the last one written, and a free value of the address where none
was (treatment U7). -/
def State.peek (s : State) (a : Addr) : Byte :=
  (s.mem.lookup a.toNat).getD (Config.freeUnwrittenByte a.toNat)

/-- A byte stored to plain external memory. -/
def State.poke (a : Addr) (v : Byte) (s : State) : State := { s with mem := s.mem.write a.toNat v }

/-- The Memory Bank Controller's next answer: the next given one, or a free value (rule R6, treatment U7). -/
def State.bankAnswer (s : State) : Byte × State :=
  match s.bankAnswers with
  | v :: rest => (v, { s with bankAnswers := rest })
  | [] => (Config.freeBankByte s.fresh, { s with fresh := s.fresh + 1 })

/-- A read of an address the block does not claim (rule R37). -/
def State.externalRead (a : Addr) (s : State) : Byte × State :=
  if bankedWindow a then (s.bankAnswer.1, s.bankAnswer.2.emit (.bankRead a s.bankAnswer.1))
  else (s.peek a, s)

/-- A write to an address the block does not claim (rule R38). -/
def State.externalWrite (a : Addr) (v : Byte) (s : State) : State :=
  if bankedWindow a then s.emit (.bankWrite a v) else s.poke a v

/-- `MemRead(addr, 1)`: a claimed address reads as its register, any other is external (rules R37, R39). -/
def State.busRead (a : Addr) (s : State) : Byte × State :=
  match s.cfg.claimed a with
  | some r => (s.toBlock.regRead r, s)
  | none => s.externalRead a

/-- `MemWrite(addr, 1, v)`: a claimed address is its register, any other is external (rules R38, R39). -/
def State.busWrite (a : Addr) (v : Byte) (s : State) : State :=
  match s.cfg.claimed a with
  | some r => s.onBlock fun b => b.regWrite v r
  | none => s.externalWrite a v

/-- `REG.READ a`: the bus read whose result goes to the caller (rule R37). -/
def State.readOp (a : Addr) (s : State) : State := (s.busRead a).2.emit (.readResult a (s.busRead a).1)

/-- `RD.r`: the register's read value goes to the caller. Where the block has no such register (KEY1 on the base
variant) the access is external (rules R50, R99). -/
def State.readReg (r : Reg) (s : State) : State :=
  if s.cfg.claims r then s.emit (.readResult (s.cfg.addr r) (s.toBlock.regRead r))
  else (s.externalRead (s.cfg.addr r)).2.emit (.readResult (s.cfg.addr r) (s.externalRead (s.cfg.addr r)).1)

/-- `WR.r d`: the register's write rule applies. Where the block has no such register (KEY1 on the base variant) the
access is external (rules R50, R99). -/
def State.writeReg (r : Reg) (d : Byte) (s : State) : State :=
  if s.cfg.claims r then s.onBlock fun b => b.regWrite d r
  else s.externalWrite (s.cfg.addr r) d

/-! ## The Instruction Execution Unit and interrupt entry -/

/-- The Instruction Execution Unit's next answer: the next given one, or a free value (rule R5, treatments U4, U5). -/
def State.ieuAnswer (s : State) : IeuAnswer × State :=
  match s.ieuAnswers with
  | a :: rest => (a, { s with ieuAnswers := rest })
  | [] => (Config.freeIeuAnswer s.fresh, { s with fresh := s.fresh + 1 })

/-- One operation of the Instruction Execution Unit (rule R5). -/
def State.ieuOp (s : State) : IeuOp → State
  | .regRead a => s.readOp a
  | .regWrite a d => s.busWrite a d
  | .imeRequest => s.onBlock Block.requestIme
  | .imeWrite v => s.onBlock (Block.setIme v)
  | .haltEnter => s.onBlock fun b => { b with halt := true }
  | .stopEnter => s.onBlock fun b => { b with stop := true }

/-- Operations of the Instruction Execution Unit in its own order, each atomic (rules R5, R43). -/
def State.ieuOps : List IeuOp → State → State
  | [], s => s
  | o :: os, s => State.ieuOps os (s.ieuOp o)

/-- `dispatch_one(none)`: the Instruction Execution Unit executes one instruction (rule R111). -/
def State.executeOne (ans : IeuAnswer) (s : State) : State :=
  (s.emit .dispatchOne).ieuOps (ans.before ++ ans.after)

/-- `dispatch_one(some k)`, the entry of interrupt k: the Instruction Execution Unit is invoked through the
interrupt-ready path and performs IRQ.ACK k exactly once; the push of the PC and the jump to VECTOR[k] are its own and
are named to the outside (rules R62, R111, R124). The return is `Block.setIme true` (rule R126). -/
def State.enterInterrupt (k : Source) (ans : IeuAnswer) (s : State) : State :=
  (((s.emit (.dispatchInterrupt k (s.cfg.vector k))).ieuOps ans.before).onBlock (Block.ack k)).ieuOps ans.after

/-- Step S5: the one invocation of the Instruction Execution Unit; the cycle count it returns and the state after it
(rules R110, R111). -/
def State.dispatch (irq : Option Source) (s : State) : Nat × State :=
  match irq with
  | none => (s.ieuAnswer.1.cycles, s.ieuAnswer.2.executeOne s.ieuAnswer.1)
  | some k => (s.ieuAnswer.1.cycles, s.ieuAnswer.2.enterInterrupt k s.ieuAnswer.1)

/-! ## The Display and Audio Units -/

/-- The Display Unit's next answer: the next given one, or a free value (rule R7, treatment U6). -/
def State.displayAnswer (s : State) : DisplayAnswer × State :=
  match s.displayAnswers with
  | a :: rest => (a, { s with displayAnswers := rest })
  | [] => (Config.freeDisplayAnswer s.fresh, { s with fresh := s.fresh + 1 })

/-- `Display.advance(m)`: it may raise flags 0 and 1 and does nothing else to the block (rule R7). -/
def State.displayAdvance (m : Nat) (s : State) : State :=
  (s.displayAnswer.2.emit (.displayAdvance m)).onBlock fun b =>
    (b.raiseIf s.displayAnswer.1.vblank .vblank).raiseIf s.displayAnswer.1.lcd .lcd

/-- `Audio.advance(m)`: it does nothing to the block (rule R7). -/
def State.audioAdvance (m : Nat) (s : State) : State := s.emit (.audioAdvance m)

/-! ## Snapshots -/

/-- `serialize(state)`: the block's whole state is handed to the State Serializer, a pass-through (rule R8). -/
def State.takeSnapshot (s : State) : State := s.emit (.snapshot s.toBlock)

/-- `deserialize(bytes)` answered with a state: every field of the block is replaced at once (rule R8). -/
def State.restoreSnapshot (b : Block) (s : State) : State := { s with toBlock := b }

/-- `deserialize(bytes)` answered with an error: there is nothing to restore, and the error is passed on (rule R8; that
the block stays as it is: DEDUCED, log 27). -/
def State.failRestore (s : State) : State := s.emit .restoreError

end Sys2Proof.Machine
end

