-- ==== Sys2Proof/Machine/Bus.lean ====
section
/-! DEFINITION. The generic bus accesses (spec/20_memory.md rules R37, R38). -/

namespace Sys2Proof.Machine

/-- `REG.READ a` (rule R37). -/
def execRegRead (a : Addr) (s : State) : Host.Outcome State Fault Refusal := .next (s.readOp a)

/-- `REG.WRITE a, d` (rule R38). -/
def execRegWrite (a : Addr) (d : Byte) (s : State) : Host.Outcome State Fault Refusal := .next (s.busWrite a d)

end Sys2Proof.Machine
end

