-- ==== Sys2Proof/Machine/Dma.lean ====
section
/-! DEFINITION. The DMA byte scheduler: DMA.START, DMA.ADVANCE and the accesses to DMA (spec/43_dma.md rules R88 to R91). -/

namespace Sys2Proof.Machine

/-- The address the next byte is read from, `(dma_src + dma_idx) mod 65536` (rule R89). -/
def Block.dmaSource (b : Block) : Addr := b.dma_src + b.dma_idx.setWidth 16

/-- The index counts, and at 160 the transfer is no longer active (rule R89). -/
def Block.dmaCount (b : Block) : Block :=
  { b with
    dma_idx := b.dma_idx + 1#8
    dma_active := if b.dma_idx + 1#8 = Config.dmaLength then false else b.dma_active }

/-- The copy of one byte: a bus read, then a bus write to the object-memory window (rules R43 (d), R89). -/
def State.dmaCopy (s : State) : State :=
  (s.busRead s.toBlock.dmaSource).2.busWrite (s.cfg.oamAddr s.dma_idx) (s.busRead s.toBlock.dmaSource).1

/-- `DMA.ADVANCE`: one cycle of the scheduler (rule R89). -/
def State.dmaAdvance (s : State) : State :=
  if s.dma_active then s.dmaCopy.onBlock Block.dmaCount else s

/-- `DMA.ADVANCE` (rule R89). -/
def execDmaAdvance (s : State) : Host.Outcome State Fault Refusal := .next s.dmaAdvance

/-- `DMA.START a` (rule R88). -/
def execDmaStart (a : Addr) (s : State) : Host.Outcome State Fault Refusal := .next (s.onBlock (Block.dmaStart a))

/-- `RD.DMA` (rule R91). -/
def execRdDma (s : State) : Host.Outcome State Fault Refusal := .next (s.readReg .dma)

/-- `WR.DMA d` (rule R90). -/
def execWrDma (d : Byte) (s : State) : Host.Outcome State Fault Refusal := .next (s.writeReg .dma d)

end Sys2Proof.Machine
end

