-- ==== Sys2Proof/Machine/Serial.lean ====
section
/-! DEFINITION. The serial port with no cable attached: SERIAL.ADVANCE and the accesses to SB and SC
(spec/42_serial.md rules R82 to R87). -/

namespace Sys2Proof.Machine

/-- A period boundary: a 1 is shifted in and the bit counted; the eighth bit raises the Serial flag, zeroes both
counters and, on a machine whose parameter says so, clears the start flag (rule R82). -/
def Block.serialShift (c : Config) (b : Block) : Block :=
  if b.ser_bits + 1#4 = 8#4 then
    ({ b with
        sb := b.sb <<< 1 ||| 1#8
        ser_clk := 0#9
        ser_bits := 0#4
        ser_start := if c.serialDoneClearsStart then false else b.ser_start } : Block).raise .serial
  else { b with sb := b.sb <<< 1 ||| 1#8, ser_bits := b.ser_bits + 1#4 }

/-- `SERIAL.ADVANCE`: one cycle of the serial port: idle, stalled on the external clock, or counting (rules R82, R83). -/
def Block.serialAdvance (c : Config) (b : Block) : Block :=
  if !b.ser_start then { b with ser_clk := 0#9, ser_bits := 0#4 }
  else if !b.ser_internal then b
  else if serialBoundary c b.ser_fast (b.ser_clk + 1#9) then
    ({ b with ser_clk := b.ser_clk + 1#9 } : Block).serialShift c
  else { b with ser_clk := b.ser_clk + 1#9 }

/-- One cycle of the serial port under the machine's own parameters. -/
def State.serialAdvance (s : State) : State := s.onBlock (Block.serialAdvance s.cfg)

/-- `SERIAL.ADVANCE` (rule R82). -/
def execSerialAdvance (s : State) : Host.Outcome State Fault Refusal := .next s.serialAdvance

/-- `RD.SB` (rule R84). -/
def execRdSb (s : State) : Host.Outcome State Fault Refusal := .next (s.readReg .sb)

/-- `WR.SB d` (rule R85). -/
def execWrSb (d : Byte) (s : State) : Host.Outcome State Fault Refusal := .next (s.writeReg .sb d)

/-- `RD.SC` (rule R86). -/
def execRdSc (s : State) : Host.Outcome State Fault Refusal := .next (s.readReg .sc)

/-- `WR.SC d` (rule R87). -/
def execWrSc (d : Byte) (s : State) : Host.Outcome State Fault Refusal := .next (s.writeReg .sc d)

end Sys2Proof.Machine
end

