-- ==== Sys2Proof/Machine/Speed.lean ====
section
/-! DEFINITION. The speed switch: SPEED.PREPARE, SPEED.COMMIT and the accesses to KEY1 (spec/45_speed_switch.md rules
R97 to R101). -/

namespace Sys2Proof.Machine

/-- `SPEED.COMMIT`: a prepared switch toggles the mode, once (rule R98). -/
def Block.speedCommit (b : Block) : Block :=
  if b.prepared then { b with fast := !b.fast, prepared := false } else b

/-- `SPEED.PREPARE b`: no effect on the base variant (rule R97). -/
def execSpeedPrepare (b : Bool) (s : State) : Host.Outcome State Fault Refusal :=
  .next (if s.cfg.extended then s.onBlock (Block.speedPrepare b) else s)

/-- `SPEED.COMMIT` (rule R98). -/
def execSpeedCommit (s : State) : Host.Outcome State Fault Refusal := .next (s.onBlock Block.speedCommit)

/-- `RD.KEY1` (rule R100). -/
def execRdKey1 (s : State) : Host.Outcome State Fault Refusal := .next (s.readReg .key1)

/-- `WR.KEY1 d` (rule R99). -/
def execWrKey1 (d : Byte) (s : State) : Host.Outcome State Fault Refusal := .next (s.writeReg .key1 d)

end Sys2Proof.Machine
end

