-- ==== Sys2Proof/Machine/Timer.lean ====
section
/-! DEFINITION. The timer: TIMER.ADVANCE and the accesses to DIV, TIMA, TMA and TAC (spec/41_timer.md rules R70 to R81). -/

namespace Sys2Proof.Machine

/-- T1, unconditional: the divider counts, wrapping mod 65536 (rule R71). -/
def Block.timerDivider (b : Block) : Block := { b with div := b.div + 1#16 }

/-- T2, the lag: an armed lag counts down; when it expires with the counter zero, the counter is reloaded and the Timer
flag raised (rule R71). -/
def Block.timerLag (b : Block) : Block :=
  if b.lag = 0#3 then b
  else if b.lag - 1#3 = 0#3 ∧ b.tima = 0#8 then
    ({ b with lag := b.lag - 1#3, tima := b.tma } : Block).raise .timer
  else { b with lag := b.lag - 1#3 }

/-- T3, the boundary test on the divider as it now is: the counter counts, and arms the lag when it wraps to zero
(rule R71). -/
def Block.timerCount (b : Block) : Block :=
  if timerBoundary b.tmr_sel b.div then
    if b.tima + 1#8 = 0#8 then { b with tima := 0#8, lag := Config.timerLag }
    else { b with tima := b.tima + 1#8 }
  else b

/-- `TIMER.ADVANCE`: one cycle of the timer, T1 then, when it is on, T2 then T3 (rule R71, decisions D8 to D10). -/
def Block.timerAdvance (b : Block) : Block :=
  if b.tmr_on then b.timerDivider.timerLag.timerCount else b.timerDivider

/-- `TIMER.ADVANCE` (rule R71). -/
def execTimerAdvance (s : State) : Host.Outcome State Fault Refusal := .next (s.onBlock Block.timerAdvance)

/-- `RD.DIV` (rule R74). -/
def execRdDiv (s : State) : Host.Outcome State Fault Refusal := .next (s.readReg .div)

/-- `WR.DIV d` (rule R75). -/
def execWrDiv (d : Byte) (s : State) : Host.Outcome State Fault Refusal := .next (s.writeReg .div d)

/-- `RD.TIMA` (rule R76). -/
def execRdTima (s : State) : Host.Outcome State Fault Refusal := .next (s.readReg .tima)

/-- `WR.TIMA d` (rule R77). -/
def execWrTima (d : Byte) (s : State) : Host.Outcome State Fault Refusal := .next (s.writeReg .tima d)

/-- `RD.TMA` (rule R78). -/
def execRdTma (s : State) : Host.Outcome State Fault Refusal := .next (s.readReg .tma)

/-- `WR.TMA d` (rule R79). -/
def execWrTma (d : Byte) (s : State) : Host.Outcome State Fault Refusal := .next (s.writeReg .tma d)

/-- `RD.TAC` (rule R80). -/
def execRdTac (s : State) : Host.Outcome State Fault Refusal := .next (s.readReg .tac)

/-- `WR.TAC d` (rule R81). -/
def execWrTac (d : Byte) (s : State) : Host.Outcome State Fault Refusal := .next (s.writeReg .tac d)

end Sys2Proof.Machine
end

