-- ==== Sys2Proof/Machine/Sequencer.lean ====
section
/-! DEFINITION. The step sequencer and the cycle orchestrator: STEP, CYCLES.RUN, HALT.ENTER, STOP.ENTER
(spec/46_step.md rules R102 to R116). -/

namespace Sys2Proof.Machine

/-- One consumed cycle: Timer, then Serial, then DMA if it is active (rule R108). -/
def State.cycle (s : State) : State :=
  let t := (s.onBlock Block.timerAdvance).serialAdvance
  if t.dma_active then t.dmaAdvance else t

/-- n consumed cycles (rule R108). -/
def State.runLoop : Nat → State → State
  | 0, s => s
  | n + 1, s => State.runLoop n s.cycle

/-- The count handed to the Display and Audio Units: halved in fast mode, the remainder dropped (rules R108, R112). -/
def State.realTimeCycles (n : Nat) (s : State) : Nat := if s.fast then n / 2 else n

/-- `RunCycles(n)`, step S6: the cycles, then Display and Audio once (rule R108). -/
def State.runCycles (n : Nat) (s : State) : State :=
  let t := State.runLoop n s
  (t.displayAdvance (t.realTimeCycles n)).audioAdvance (t.realTimeCycles n)

/-- Step S1's decision: the source whose interrupt this step enters, by the flags and the master enable as they are at
the start of the step (rules R105, R123). -/
def Block.take (b : Block) : Option Source := if b.ready && b.ime then b.highest else none

/-- Step S2, a step in HALT mode: 4 cycles; the mode ends if a source was ready at the start (rule R106). -/
def State.haltStep (s : State) : State :=
  if s.toBlock.ready then (s.runCycles Config.wakeCycles).onBlock fun b => { b with halt := false }
  else s.runCycles Config.wakeCycles

/-- Step S3, a step in STOP mode: the divider zeroed, a prepared speed switch committed, 4 cycles, and the mode ends
(rule R107). -/
def State.stopStep (s : State) : State :=
  (((s.onBlock fun b => { b with div := 0#16 }).onBlock Block.speedCommit).runCycles Config.wakeCycles).onBlock
    fun b => { b with stop := false }

/-- Steps S4 to S6: a requested master enable applied, the Instruction Execution Unit invoked once, its cycles run
(rules R109 to R112). -/
def State.executeStep (s : State) : State :=
  let d := (s.onBlock Block.applyImeRequest).dispatch s.toBlock.take
  d.2.runCycles d.1

/-- `STEP`, the whole operation (rule R110). -/
def State.stepOnce (s : State) : State :=
  if s.halt then s.haltStep else if s.stop then s.stopStep else s.executeStep

/-- `STEP` (rule R110). -/
def execStep (s : State) : Host.Outcome State Fault Refusal := .next s.stepOnce

/-- `CYCLES.RUN n` (rule R108). -/
def execCyclesRun (n : BitVec 16) (s : State) : Host.Outcome State Fault Refusal := .next (s.runCycles n.toNat)

/-- `HALT.ENTER` (rule R102). -/
def execHaltEnter (s : State) : Host.Outcome State Fault Refusal :=
  .next (s.onBlock fun b => { b with halt := true })

/-- `STOP.ENTER` (rule R103). -/
def execStopEnter (s : State) : Host.Outcome State Fault Refusal :=
  .next (s.onBlock fun b => { b with stop := true })

end Sys2Proof.Machine
end

