-- ==== Sys2Proof/Machine/Debug.lean ====
section
/-! DEFINITION. The debug layer, host software around the block: DBG.STEP, DBG.KEY, the command table, paths and
breakpoints (spec/60_exceptions.md rules R140 to R149). -/

namespace Sys2Proof.Machine

/-! ## Text -/

/-- The decimal digits of n, by at most `fuel` divisions. -/
def decimalDigits : Nat → Nat → Text
  | 0, _ => []
  | fuel + 1, n =>
    if n < 10 then [Char.ofNat (48 + n)] else decimalDigits fuel (n / 10) ++ [Char.ofNat (48 + n % 10)]

/-- The string form of a number: decimal, as in the example S5 (DESIGN CHOICE, log 16). -/
def decimal (n : Nat) : Text := decimalDigits 8 n

/-- White space between tokens (rule R146). -/
def isBlank (c : Char) : Bool := c == ' ' || c == '\t'

/-- The pieces of a text between separators, with the piece in progress `cur`. -/
def splitText (sep : Char → Bool) : Text → Text → List Text
  | cur, [] => [cur]
  | cur, c :: cs => if sep c then cur :: splitText sep [] cs else splitText sep (cur ++ [c]) cs

/-- The whitespace-separated tokens of a line (rule R146). -/
def tokens (line : Text) : List Text := (splitText isBlank [] line).filter fun t => !t.isEmpty

/-- The names of a dot-separated path (rule R142). -/
def pathNames (t : Text) : List Text := splitText (fun c => c == '.') [] t

/-- The entry of a name in a table of names, if there is one. -/
def named {α : Type} (n : Text) : List (Text × α) → Option α
  | [] => none
  | p :: ps => if p.1 = n then some p.2 else named n ps

/-! ## Paths (rules R142, R143) -/

/-- What a path's segment resolves to: a number, or a composite of named numbers. -/
inductive PathValue where
  | leaf (n : Nat)
  | composite (members : List (Text × Nat))
deriving DecidableEq, Repr

/-- The string form of a value; that of a composite is a free value of its members (log 16). -/
def PathValue.text : PathValue → Text
  | .leaf n => decimal n
  | .composite ms => Config.freeCompositeText (ms.map Prod.snd)

/-- The fields of the block under their names of spec/10_state.md, grouped as GBE section 3 groups them. -/
def Block.groups (b : Block) : List (Text × List (Text × Nat)) :=
  [("InterruptLines".toList, [("ie".toList, b.ie.toNat), ("if_".toList, b.if_.toNat)]),
   ("TimerState".toList,
     [("div".toList, b.div.toNat), ("tmr_on".toList, b.tmr_on.toNat), ("tmr_sel".toList, b.tmr_sel.toNat),
      ("tima".toList, b.tima.toNat), ("tma".toList, b.tma.toNat), ("lag".toList, b.lag.toNat)]),
   ("SerialState".toList,
     [("sb".toList, b.sb.toNat), ("ser_start".toList, b.ser_start.toNat),
      ("ser_internal".toList, b.ser_internal.toNat), ("ser_fast".toList, b.ser_fast.toNat),
      ("ser_clk".toList, b.ser_clk.toNat), ("ser_bits".toList, b.ser_bits.toNat)]),
   ("DMAState".toList,
     [("dma_active".toList, b.dma_active.toNat), ("dma_idx".toList, b.dma_idx.toNat),
      ("dma_src".toList, b.dma_src.toNat)]),
   ("JoypadState".toList,
     [("btn".toList, b.btn.toNat), ("sel_dir".toList, b.sel_dir.toNat), ("sel_act".toList, b.sel_act.toNat)]),
   ("SpeedState".toList, [("fast".toList, b.fast.toNat), ("prepared".toList, b.prepared.toNat)])]

/-- The sequencer's four bits, which belong to no group. -/
def Block.sequencerNames (b : Block) : List (Text × Nat) :=
  [("ime".toList, b.ime.toNat), ("ime_req".toList, b.ime_req.toNat), ("halt".toList, b.halt.toNat),
   ("stop".toList, b.stop.toNat)]

/-- The registry of names: every field by itself, and the six groups as composites (rule R142 leaves the names to the
model; DESIGN CHOICE, log 16). -/
def Block.registry (b : Block) : List (Text × PathValue) :=
  b.groups.map (fun g => (g.1, PathValue.composite g.2))
  ++ (b.groups.flatMap Prod.snd ++ b.sequencerNames).map fun f => (f.1, PathValue.leaf f.2)

/-- Resolving the names of a path one at a time: every name must be present, and every value but the last must be
composite (rule R142). -/
def resolveFrom : List (Text × PathValue) → List Text → Option PathValue
  | _, [] => none
  | names, [n] => named n names
  | names, n :: m :: rest =>
    match named n names with
    | some (.composite ms) => resolveFrom (ms.map fun f => (f.1, PathValue.leaf f.2)) (m :: rest)
    | _ => none

/-- `evaluate_path(path)` (rule R142). -/
def Block.evaluatePath (b : Block) (path : List Text) : Option PathValue := resolveFrom b.registry path

/-- The zero-argument methods: the operations of rule R46 without operands (rule R143). -/
inductive Method where
  | step
  | imeRequest
  | haltEnter
  | stopEnter
  | timerAdvance
  | serialAdvance
  | dmaAdvance
  | speedCommit
  | dbgStep
deriving DecidableEq, Repr

/-- The methods' paths: the operations' names, dot-separated (rule R143; DESIGN CHOICE, log 16). -/
def methodPaths : List (List Text × Method) :=
  [(["STEP".toList], .step),
   (["IME".toList, "REQUEST".toList], .imeRequest),
   (["HALT".toList, "ENTER".toList], .haltEnter),
   (["STOP".toList, "ENTER".toList], .stopEnter),
   (["TIMER".toList, "ADVANCE".toList], .timerAdvance),
   (["SERIAL".toList, "ADVANCE".toList], .serialAdvance),
   (["DMA".toList, "ADVANCE".toList], .dmaAdvance),
   (["SPEED".toList, "COMMIT".toList], .speedCommit),
   (["DBG".toList, "STEP".toList], .dbgStep)]

/-- The method a path names, if it names one. -/
def methodOf (path : List Text) : Option Method :=
  (methodPaths.find? fun p => p.1 = path).map Prod.snd

/-! ## Breakpoints (rules R141, R144) -/

/-- A change of the debugger session. -/
def State.onSession (f : DebuggerSession → DebuggerSession) (s : State) : State := { s with session := f s.session }

/-- A report to the user (rules R147, R149). -/
def DebuggerSession.report (r : Report) (q : DebuggerSession) : DebuggerSession :=
  { q with reports := r :: q.reports }

/-- The text of a report. Only "unknown cmd" is given (rule R147); every other text, that of the value `x` reports
included, is a free value (treatment U17). That it depends on the kind of the report and on what the report holds alone
is the model's choice (DESIGN CHOICE, log 26). -/
def Report.text : Report → Text
  | .unknownCmd _ => "unknown cmd".toList
  | .badOperator => Config.freeReportText 1 []
  | .missingPath => Config.freeReportText 2 []
  | .missingValue => Config.freeReportText 3 []
  | .notFound path => Config.freeReportText 4 path
  | .value t => Config.freeReportText 5 [t]

/-- Whether a breakpoint fires on the present string value of its field (rule R144). -/
def Breakpoint.fires (p : Breakpoint) (now : Text) : Bool :=
  match p.op with
  | .change => now != p.stored
  | .eq => now == p.stored
  | .neq => now != p.stored

/-- A breakpoint that has fired: a CHANGE breakpoint takes the present value as its new baseline (rule R144). -/
def Breakpoint.fired (p : Breakpoint) (now : Text) : Breakpoint :=
  match p.op with
  | .change => { p with stored := now }
  | .eq => p
  | .neq => p

/-- What one evaluation of the breakpoints finds (rule R144). -/
inductive Tick where
  /-- None fires. -/
  | quiet
  /-- One fires; the list after it. -/
  | hit (points : List Breakpoint)
  /-- A path no longer resolves: a fatal session error (rule R149). -/
  | fatal
deriving DecidableEq, Repr

/-- The evaluation in list order, stopping at the first breakpoint that fires or does not resolve (rule R144, D32). -/
def Block.tick (b : Block) : List Breakpoint → Tick
  | [] => .quiet
  | p :: ps =>
    match b.evaluatePath p.path with
    | none => .fatal
    | some v =>
      if p.fires v.text then .hit (p.fired v.text :: ps)
      else match b.tick ps with
        | .hit qs => .hit (p :: qs)
        | .quiet => .quiet
        | .fatal => .fatal

/-- One `DBG.STEP`: no STEP at a prompt, one STEP when running, and with breakpoints one STEP unless one fires or does
not resolve, which returns to the prompt (rules R144, R145). Neither is reported to the user: rule R149 asks for a
report of class (a) errors only and says nothing of these two (DESIGN CHOICE, log 31). -/
def State.debugStep (s : State) : State :=
  match s.session.mode with
  | .awaitingCommand => s
  | .editingCommandLine => s
  | .runningUnchecked => s.stepOnce
  | .runningWithBreakpoints =>
    match s.toBlock.tick s.session.breakpoints with
    | .quiet => s.stepOnce
    | .hit ps => s.onSession fun q => { q with mode := .awaitingCommand, breakpoints := ps }
    | .fatal => s.onSession fun q => { q with mode := .awaitingCommand }

/-- `DBG.STEP` (rule R145). -/
def execDbgStep (s : State) : Host.Outcome State Fault Refusal := .next s.debugStep

/-! ## The command table (rule R147) -/

/-- The operator a token names, if it names one (rule R141). -/
def breakOpOf (t : Text) : Option BreakOp :=
  if t = "CHANGE".toList then some .change
  else if t = "EQ".toList then some .eq
  else if t = "NEQ".toList then some .neq
  else none

/-- A new breakpoint (rule R141). That it goes to the end of the list, so that the breakpoints are evaluated in the order
of their creation, is the model's choice: the spec does not say where it goes (DESIGN CHOICE, log 29). -/
def State.addBreakpoint (p : Breakpoint) (s : State) : State :=
  s.onSession fun q => { q with breakpoints := q.breakpoints ++ [p] }

/-- `set_breakpoint(path, operator, value?)` on the arguments of `break`: CHANGE stores the present value, EQ and NEQ the
given one; a usage error is reported and adds nothing (rules R141, R147, R149; what counts as one, log 26). -/
def State.setBreakpoint (args : List Text) (s : State) : State :=
  match args with
  | [] => s.onSession (DebuggerSession.report .missingPath)
  | path :: rest =>
    match s.toBlock.evaluatePath (pathNames path) with
    | none => s.onSession (DebuggerSession.report (.notFound (pathNames path)))
    | some v =>
      match rest.head?.bind breakOpOf with
      | none => s.onSession (DebuggerSession.report .badOperator)
      | some .change => s.addBreakpoint ⟨pathNames path, .change, v.text⟩
      | some op =>
        match rest.tail.head? with
        | none => s.onSession (DebuggerSession.report .missingValue)
        | some value => s.addBreakpoint ⟨pathNames path, op, value⟩

/-- `x <path>`: the value of a path is reported (rule R147). -/
def State.readPath (args : List Text) (s : State) : State :=
  match args with
  | [] => s.onSession (DebuggerSession.report .missingPath)
  | path :: _ =>
    match s.toBlock.evaluatePath (pathNames path) with
    | none => s.onSession (DebuggerSession.report (.notFound (pathNames path)))
    | some v => s.onSession (DebuggerSession.report (.value v.text))

/-- The operation a method is (rule R143). -/
def State.invoke (s : State) : Method → State
  | .step => s.stepOnce
  | .imeRequest => s.onBlock Block.requestIme
  | .haltEnter => s.onBlock fun b => { b with halt := true }
  | .stopEnter => s.onBlock fun b => { b with stop := true }
  | .timerAdvance => s.onBlock Block.timerAdvance
  | .serialAdvance => s.serialAdvance
  | .dmaAdvance => s.dmaAdvance
  | .speedCommit => s.onBlock Block.speedCommit
  | .dbgStep => s.debugStep

/-- `call <path>`: a zero-argument method is invoked (rules R143, R147). -/
def State.callPath (args : List Text) (s : State) : State :=
  match args with
  | [] => s.onSession (DebuggerSession.report .missingPath)
  | path :: _ =>
    match methodOf (pathNames path) with
    | none => s.onSession (DebuggerSession.report (.notFound (pathNames path)))
    | some m => s.invoke m

/-- `run`: stepping resumes, with breakpoints if there are any (rule R147, D32). -/
def State.runCommand (s : State) : State :=
  s.onSession fun q =>
    { q with mode := if q.breakpoints.isEmpty then .runningUnchecked else .runningWithBreakpoints }

/-- The commands (rule R147). -/
inductive DebugCommand where
  | run
  | read
  | setBreak
  | call
deriving DecidableEq, Repr

/-- The fixed command table (rule R147). -/
def commandTable : List (Text × DebugCommand) :=
  [("run".toList, .run), ("x".toList, .read), ("break".toList, .setBreak), ("call".toList, .call)]

/-- A finished line's tokens: the first is looked up in the command table, the others are its arguments; an unknown name
is reported; an empty line is no command (rules R146, R147). -/
def State.command (line : List Text) (s : State) : State :=
  match line with
  | [] => s
  | name :: args =>
    match named name commandTable with
    | none => s.onSession (DebuggerSession.report (.unknownCmd name))
    | some .run => s.runCommand
    | some .read => s.readPath args
    | some .setBreak => s.setBreakpoint args
    | some .call => s.callPath args

/-! ## Keys (rules R140, R146, R148) -/

/-- Whether a key code was down at the previous event (rule R140). -/
def DebuggerSession.keyDown (c : Byte) (q : DebuggerSession) : Bool := q.keys.getLsbD c.toNat

/-- The key-state table after an event (rule R140). -/
def DebuggerSession.setKey (c : Byte) (p : Bool) (q : DebuggerSession) : DebuggerSession :=
  { q with keys := if p then q.keys ||| (1#256 <<< c.toNat) else q.keys &&& ~~~(1#256 <<< c.toNat) }

/-- The key a code stands for, if it stands for one (treatment U17). -/
def State.keyOf (s : State) (code : Byte) : Option Key :=
  (s.cfg.keyMap.find? fun p => p.1 == code).map Prod.snd

/-- Whether characters, backspace and newline act: in every mode but RunningWithBreakpoints, which only a breakpoint or
the break-in key interrupts (rules R145, R146; DEDUCED, log 15). -/
def DebuggerSession.takesKeys (q : DebuggerSession) : Bool :=
  match q.mode with
  | .awaitingCommand => true
  | .editingCommandLine => true
  | .runningUnchecked => true
  | .runningWithBreakpoints => false

/-- Newline: the buffer becomes tokens, the session returns to AwaitingCommand, and the command runs (rule R146). -/
def State.finishLine (s : State) : State :=
  (s.onSession fun q => { q with mode := .awaitingCommand, buffer := [] }).command (tokens s.session.buffer)

/-- A new press of a key: the break-in key returns to the prompt from every mode (rule R148), and whether it empties the
buffer is a parameter (DESIGN CHOICE, log 15); the other keys edit or finish the command line, in RunningUnchecked mode
too (rule R146), but not in RunningWithBreakpoints mode (rule R145; DEDUCED, log 15). That backspace leaves the mode as
it is: DESIGN CHOICE, log 15. -/
def State.pressKey (k : Key) (s : State) : State :=
  match k with
  | .breakIn => s.onSession fun q =>
      { q with mode := .awaitingCommand, buffer := if s.cfg.breakInClearsBuffer then [] else q.buffer }
  | .char c => if s.session.takesKeys then
      s.onSession fun q => { q with mode := .editingCommandLine, buffer := q.buffer ++ [c] } else s
  | .backspace => if s.session.takesKeys then
      s.onSession fun q => { q with buffer := q.buffer.dropLast } else s
  | .newline => if s.session.takesKeys then s.finishLine else s

/-- `DBG.KEY c, p`: the key-state table takes the event; only a press the table shows as new counts (rule R146),
of the break-in key too (DEDUCED, log 15). -/
def State.debugKey (c : Byte) (p : Bool) (s : State) : State :=
  let t := s.onSession (DebuggerSession.setKey c p)
  if p && !s.session.keyDown c then
    match s.keyOf c with
    | some k => t.pressKey k
    | none => t
  else t

/-- `DBG.KEY c, p` (rule R146). -/
def execDbgKey (c : Byte) (p : Bool) (s : State) : Host.Outcome State Fault Refusal := .next (s.debugKey c p)

end Sys2Proof.Machine
end

