-- ==== Sys2Proof/Machine/Interrupt.lean ====
section
/-! DEFINITION. Interrupt lines and master enable: IRQ.RAISE, IRQ.ACK, IME.REQUEST, IME.WRITE and the accesses to IF and
IE (spec/40_interrupt_lines.md rules R60 to R68). -/

namespace Sys2Proof.Machine

/-- `IRQ.RAISE k` (rule R60). -/
def execIrqRaise (k : Source) (s : State) : Host.Outcome State Fault Refusal := .next (s.onBlock (Block.raise k))

/-- `IRQ.ACK k` (rule R62). -/
def execIrqAck (k : Source) (s : State) : Host.Outcome State Fault Refusal := .next (s.onBlock (Block.ack k))

/-- `IME.REQUEST` (rule R63). -/
def execImeRequest (s : State) : Host.Outcome State Fault Refusal := .next (s.onBlock Block.requestIme)

/-- `IME.WRITE b` (rule R64). -/
def execImeWrite (b : Bool) (s : State) : Host.Outcome State Fault Refusal := .next (s.onBlock (Block.setIme b))

/-- `RD.IF` (rule R66). -/
def execRdIf (s : State) : Host.Outcome State Fault Refusal := .next (s.readReg .ifReg)

/-- `WR.IF d` (rule R65). -/
def execWrIf (d : Byte) (s : State) : Host.Outcome State Fault Refusal := .next (s.writeReg .ifReg d)

/-- `RD.IE` (rule R68). -/
def execRdIe (s : State) : Host.Outcome State Fault Refusal := .next (s.readReg .ieReg)

/-- `WR.IE d` (rule R67). -/
def execWrIe (d : Byte) (s : State) : Host.Outcome State Fault Refusal := .next (s.writeReg .ieReg d)

end Sys2Proof.Machine
end

