-- ==== Sys2Proof/Machine/Joypad.lean ====
section
/-! DEFINITION. The joypad edge latch: JOYPAD.UPDATE and the accesses to P1 (spec/44_joypad.md rules R92 to R96). -/

namespace Sys2Proof.Machine

/-- `JOYPAD.UPDATE d`: the new button state; the Joypad flag is raised exactly when the nibble falls from 0xF
(rule R93). -/
def Block.joypadUpdate (d : Byte) (b : Block) : Block :=
  ({ b with btn := d } : Block).raiseIf
    (b.nibble == 0xF#4 && decide (({ b with btn := d } : Block).nibble < b.nibble)) .joypad

/-- `JOYPAD.UPDATE d` (rule R93). -/
def execJoypadUpdate (d : Byte) (s : State) : Host.Outcome State Fault Refusal :=
  .next (s.onBlock (Block.joypadUpdate d))

/-- `RD.P1` (rule R95). -/
def execRdP1 (s : State) : Host.Outcome State Fault Refusal := .next (s.readReg .p1)

/-- `WR.P1 d`: it never raises the Joypad flag (rule R94). -/
def execWrP1 (d : Byte) (s : State) : Host.Outcome State Fault Refusal := .next (s.writeReg .p1 d)

end Sys2Proof.Machine
end

