-- ==== Sys2Proof/Machine/Dispatch.lean ====
section
/-! DEFINITION. The dispatch: one arm per operation (spec/30_encoding.md rule R46). -/

namespace Sys2Proof.Machine

def exec (i : Instr) (s : State) : Host.Outcome State Fault Refusal :=
  match i with
  | .step => Sys2Proof.Machine.execStep s
  | .regRead a => Sys2Proof.Machine.execRegRead a s
  | .regWrite a d => Sys2Proof.Machine.execRegWrite a d s
  | .cyclesRun n => Sys2Proof.Machine.execCyclesRun n s
  | .irqRaise k => Sys2Proof.Machine.execIrqRaise k s
  | .irqAck k => Sys2Proof.Machine.execIrqAck k s
  | .imeRequest => Sys2Proof.Machine.execImeRequest s
  | .imeWrite b => Sys2Proof.Machine.execImeWrite b s
  | .haltEnter => Sys2Proof.Machine.execHaltEnter s
  | .stopEnter => Sys2Proof.Machine.execStopEnter s
  | .timerAdvance => Sys2Proof.Machine.execTimerAdvance s
  | .serialAdvance => Sys2Proof.Machine.execSerialAdvance s
  | .dmaAdvance => Sys2Proof.Machine.execDmaAdvance s
  | .dmaStart a => Sys2Proof.Machine.execDmaStart a s
  | .joypadUpdate d => Sys2Proof.Machine.execJoypadUpdate d s
  | .speedPrepare b => Sys2Proof.Machine.execSpeedPrepare b s
  | .speedCommit => Sys2Proof.Machine.execSpeedCommit s
  | .dbgStep => Sys2Proof.Machine.execDbgStep s
  | .dbgKey c p => Sys2Proof.Machine.execDbgKey c p s
  | .rdP1 => Sys2Proof.Machine.execRdP1 s
  | .wrP1 d => Sys2Proof.Machine.execWrP1 d s
  | .rdSb => Sys2Proof.Machine.execRdSb s
  | .wrSb d => Sys2Proof.Machine.execWrSb d s
  | .rdSc => Sys2Proof.Machine.execRdSc s
  | .wrSc d => Sys2Proof.Machine.execWrSc d s
  | .rdDiv => Sys2Proof.Machine.execRdDiv s
  | .wrDiv d => Sys2Proof.Machine.execWrDiv d s
  | .rdTima => Sys2Proof.Machine.execRdTima s
  | .wrTima d => Sys2Proof.Machine.execWrTima d s
  | .rdTma => Sys2Proof.Machine.execRdTma s
  | .wrTma d => Sys2Proof.Machine.execWrTma d s
  | .rdTac => Sys2Proof.Machine.execRdTac s
  | .wrTac d => Sys2Proof.Machine.execWrTac d s
  | .rdIf => Sys2Proof.Machine.execRdIf s
  | .wrIf d => Sys2Proof.Machine.execWrIf d s
  | .rdDma => Sys2Proof.Machine.execRdDma s
  | .wrDma d => Sys2Proof.Machine.execWrDma d s
  | .rdKey1 => Sys2Proof.Machine.execRdKey1 s
  | .wrKey1 d => Sys2Proof.Machine.execWrKey1 d s
  | .rdIe => Sys2Proof.Machine.execRdIe s
  | .wrIe d => Sys2Proof.Machine.execWrIe d s

end Sys2Proof.Machine
end

