-- ==== Sys2Proof/Machine/Invariants.lean ====
section
/-! DEFINITION. The invariants of the block's state (spec/10_state.md rule R35). -/

namespace Sys2Proof.Machine

/-- The invariants of rule R35 that the fields' widths do not already give (`ser_clk <= 511` and `tmr_sel <= 3` are
widths). -/
def Block.inv (b : Block) : Bool :=
  decide (b.lag.toNat ≤ 4)
  && decide (b.ser_bits.toNat ≤ 7)
  && decide (b.dma_idx.toNat ≤ 0xA0)
  && (!b.dma_active || decide (b.dma_idx.toNat ≤ 0x9F))

end Sys2Proof.Machine
end

