-- ==== Sys2Proof/Machine/Step.lean ====
section
/-! DEFINITION. One step of the machine: the next call of the host is served whole (spec/00_scope.md rules R3, R8, R9). -/

namespace Sys2Proof.Machine

/-- The call at the head of the list is taken off it. -/
def State.afterCall (rest : List HostCall) (s : State) : State := { s with pending := rest }

/-- One step. A command word is decoded and its operation performed; a word that spells none is refused (rule R52). A
snapshot replaces the block's whole state at once if it meets the invariants (rules R8, R35), and is refused otherwise
(treatment U2); taking one, or finding none in the bytes, tells the outside and moves nothing (rule R8). With no call
waiting nothing moves (rule R3). The tokens of a direct `set_breakpoint_command` are the arguments of `break` alone
(DESIGN CHOICE, log 30). -/
def step (s : State) : Host.Outcome State Fault Refusal :=
  match s.pending with
  | [] => .next s
  | .command w :: rest =>
    match decodeWord s.cfg w with
    | .operation i => exec i (s.afterCall rest)
    | .refused e => .refused (.noOperation e)
  | .setBreakpoint args :: rest => .next ((s.afterCall rest).setBreakpoint args)
  | .snapshot :: rest => .next (s.afterCall rest).takeSnapshot
  | .restore b :: rest =>
    if b.inv then .next ((s.afterCall rest).restoreSnapshot b) else .refused .snapshotOutsideInvariants
  | .restoreError :: rest => .next (s.afterCall rest).failRestore

/-- The state in which the host's next call is the command word given as the opcode table numbers it: the word is put
at the head of the waiting calls and nothing else changes. -/
def State.withFetchWord (s : State) (nbits w : Nat) : State :=
  { s with pending := .command (tableWord nbits w) :: s.pending }

end Sys2Proof.Machine
end

