-- ==== Sys2Proof/Safety.lean ====
section
/-! DEFINITION. What a safe state is: the invariant every step keeps (spec/10_state.md rule R35, spec/20_memory.md rules
R38, R39, R41), and runs of operations, in which claims are stated. -/

namespace Sys2Proof

/-- The operation of the block that an operation of the Instruction Execution Unit is (rules R5, R46). -/
def IeuOp.operation : IeuOp → Instr
  | .regRead a => .regRead a
  | .regWrite a d => .regWrite a d
  | .imeRequest => .imeRequest
  | .imeWrite b => .imeWrite b
  | .haltEnter => .haltEnter
  | .stopEnter => .stopEnter

end Sys2Proof

namespace Sys2Proof.Machine

/-- Every byte the memory lists stands at an address of plain external memory: no cell shadows a register or a window of
the Memory Bank Controller (rules R38, R41). -/
def State.memExternal (s : State) : Bool := s.mem.all fun c => s.cfg.isExternal (BitVec.ofNat 16 c.1)

/-- The invariant: the parameters meet the spec's constraints, the block meets rule R35, and memory is in canonical form
and holds external bytes only. -/
def State.Inv (s : State) : Prop :=
  s.cfg.wf = true ∧ s.toBlock.inv = true ∧ s.mem.wf = true ∧ s.memExternal = true

/-- Operations performed one after the other, with nothing between (rule R43). -/
def execAll : List Instr → State → Host.Outcome State Fault Refusal
  | [], s => .next s
  | i :: is, s =>
    match exec i s with
    | .next t => execAll is t
    | .fault r => .fault r
    | .refused r => .refused r

/-- One operation performed n times with nothing between (rule R73). -/
def execTimes (n : Nat) (i : Instr) (s : State) : Host.Outcome State Fault Refusal := execAll (List.replicate n i) s

end Sys2Proof.Machine
end

