-- ==== Sys2Proof/Certificates/Slice0/Obligations.lean ====
section
/-! DEFINITION. The statements about the model, one `def Obligations.<Name> : Prop` each; OBLIGATIONS.json says which rule
of spec/ each formalises. -/

open Sys2Proof Sys2Proof.Machine

/-! ## Command words -/

/-- Words written out from the spec's tables (rules R49, R50) decode to the operations they stand for. The encoding is
the spec's own decision D1, the addresses are its default parameters (D5; log 2). -/
def Obligations.SampleWordsDecodeToTheirOperations : Prop :=
  decodeWord Config.default 0x00000000#32 = .operation .step ∧
  decodeWord Config.default 0x01C10000#32 = .operation (.regRead 0xC100#16) ∧
  decodeWord Config.default 0x02FE0155#32 = .operation (.regWrite 0xFE01#16 0x55#8) ∧
  decodeWord Config.default 0x03000C00#32 = .operation (.cyclesRun 12#16) ∧
  decodeWord Config.default 0x10000002#32 = .operation (.irqRaise .timer) ∧
  decodeWord Config.default 0x20000000#32 = .operation .timerAdvance ∧
  decodeWord Config.default 0x21000000#32 = .operation .serialAdvance ∧
  decodeWord Config.default 0x23C10000#32 = .operation (.dmaStart 0xC100#16) ∧
  decodeWord Config.default 0x24000004#32 = .operation (.joypadUpdate 0x04#8) ∧
  decodeWord Config.default 0x25000001#32 = .operation (.speedPrepare true) ∧
  decodeWord Config.default 0x31006101#32 = .operation (.dbgKey 0x61#8 true) ∧
  decodeWord Config.default 0x02FF0705#32 = .operation (.wrTac 0x05#8) ∧
  decodeWord Config.default 0x01FF4D00#32 = .operation .rdKey1

/-- Decoding the word of any well-formed operation gives the operation back, under any parameters that meet the spec's
constraints. The encoding is the spec's own decision D1, the addresses are parameters (D5). -/
def Obligations.EncodedOperationDecodesToItself : Prop :=
  ∀ (c : Config) (i : Instr), c.wf = true → i.wf c = true → decodeWord c (encode c i) = .operation i

/-- A word that decodes is the one encoding of a well-formed operation, so no two words spell one operation and no
reserved word is taken for a neighbour. The encoding and the refusal of reserved words are the spec's own decisions D1
and D2. -/
def Obligations.DecodedWordIsTheEncodingOfItsOperation : Prop :=
  ∀ (c : Config) (w : Word) (i : Instr), decodeWord c w = .operation i → i.wf c = true ∧ encode c i = w

/-- Rule R49: a word spells an operation exactly when it spells a row of the opcode map, and then it is that row's
operation. The encoding is the spec's own decision D1. -/
def Obligations.WordDecodesExactlyWhenItSpellsARow : Prop :=
  ∀ (c : Config) (w : Word),
    ((∃ i, decodeWord c w = .operation i) ↔ ∃ r ∈ opcodeTable, r.spells w = true) ∧
    (∀ r ∈ opcodeTable, r.spells w = true → ∃ i, decodeWord c w = .operation i ∧ i.rowMnemonic = r.mnemonic)

/-- Rule R52: a word that matches no row is refused by name by the step that meets it, and every byte value is a legal
datum of every register write. Refusing such a word is the spec's own decision D2 (log 13); the list of waiting calls
is the model's own (log 12). -/
def Obligations.WordWithoutRowIsRefusedByName : Prop :=
  (∀ (s : State) (w : Word) (rest : List HostCall), (∀ r ∈ opcodeTable, r.spells w = false) →
    s.pending = .command w :: rest →
    ∃ e, decodeWord s.cfg w = .refused e ∧ step s = .refused (.noOperation e)) ∧
  (∀ (c : Config) (r : Reg) (d : Byte), c.wf = true → c.claims r = true →
    decodeWord c (packWord 0x02#8 (c.addr r) d) = .operation (writeInstr d r))

/-! ## The step and the host -/

/-- A step performs the operation the waiting command word decodes to, the word being taken off the waiting calls. The
list of waiting calls is the model's own (log 12). -/
def Obligations.StepPerformsTheDecodedOperation : Prop :=
  ∀ (s : State) (w : Word) (rest : List HostCall) (i : Instr),
    s.pending = .command w :: rest → decodeWord s.cfg w = .operation i →
    step s = exec i { s with pending := rest }

/-- Rules R3, R8 and R9 and treatment U2: with no call waiting nothing moves; taking a snapshot hands the block's
whole state out and moves nothing; a snapshot that meets the invariants replaces the whole block at once; one that
does not is refused; an error of the State Serializer is passed on and moves nothing; a direct
`set_breakpoint_command` completes and changes the debugger session alone. That restoring replaces nothing outside the
block (memory, session, parameters) and that an error leaves the block are the model's choice (log 27, DEDUCED); that
the snapshot is refused is treatment U2 (log 13); the list of waiting calls and what is told to the outside are the
model's own (log 12). -/
def Obligations.OtherHostCallsAreServedWhole : Prop :=
  (∀ s : State, s.pending = [] → step s = .next s) ∧
  (∀ (s : State) (rest : List HostCall), s.pending = .snapshot :: rest →
    step s = .next { s with pending := rest, output := .snapshot s.toBlock :: s.output }) ∧
  (∀ (s : State) (b : Block) (rest : List HostCall), s.pending = .restore b :: rest → b.inv = true →
    step s = .next { s with pending := rest, toBlock := b }) ∧
  (∀ (s : State) (b : Block) (rest : List HostCall), s.pending = .restore b :: rest → b.inv = false →
    step s = .refused .snapshotOutsideInvariants) ∧
  (∀ (s : State) (rest : List HostCall), s.pending = .restoreError :: rest →
    step s = .next { s with pending := rest, output := .restoreError :: s.output }) ∧
  (∀ (s : State) (args : List Text) (rest : List HostCall), s.pending = .setBreakpoint args :: rest →
    ∃ q, step s = .next { s with pending := rest, session := q })

/-- Rule R4: every operation completes in every state, with the parameters and the host's waiting calls untouched; and
a step on a command word stops only where the word spells no operation, which is refused by name. The refusal is the
spec's own decision D2 (log 13); the list of waiting calls is the model's own (log 12). -/
def Obligations.EveryOperationCompletes : Prop :=
  (∀ (i : Instr) (s : State), ∃ t, exec i s = .next t ∧ t.cfg = s.cfg ∧ t.pending = s.pending) ∧
  (∀ (s : State) (w : Word) (rest : List HostCall), s.pending = .command w :: rest →
    (∃ i t, decodeWord s.cfg w = .operation i ∧ step s = .next t) ∨
    (∃ e, decodeWord s.cfg w = .refused e ∧ step s = .refused (.noOperation e)))

/-! ## Reset and invariants -/

/-- Rule R34: every field of the block is zero after reset, and every register reads as the table of rule R34 says.
The reset values are the spec's own decision D30 (log 1), the read values decisions D6 and D7 (log 3). -/
def Obligations.ResetPutsEveryFieldToZero : Prop :=
  let r := State.reset
  (r.ie = 0#5 ∧ r.if_ = 0#5 ∧ r.ime = false ∧ r.ime_req = false ∧ r.halt = false ∧ r.stop = false) ∧
  (r.div = 0#16 ∧ r.tmr_on = false ∧ r.tmr_sel = 0#2 ∧ r.tima = 0#8 ∧ r.tma = 0#8 ∧ r.lag = 0#3) ∧
  (r.sb = 0#8 ∧ r.ser_start = false ∧ r.ser_internal = false ∧ r.ser_fast = false ∧ r.ser_clk = 0#9 ∧
    r.ser_bits = 0#4) ∧
  (r.dma_active = false ∧ r.dma_idx = 0#8 ∧ r.dma_src = 0#16) ∧
  (r.btn = 0#8 ∧ r.sel_dir = false ∧ r.sel_act = false ∧ r.fast = false ∧ r.prepared = false) ∧
  (Reg.all.map r.toBlock.regRead =
    [0xFF#8, 0x00#8, 0x7C#8, 0x00#8, 0x00#8, 0x00#8, 0xF8#8, 0xE0#8, 0x00#8, 0x7E#8, 0x00#8])

/-- The state after reset meets the invariant. Beside rule R35 the invariant holds the constraints on the parameters
(log 6) and the form of memory (log 7), which are the model's. -/
def Obligations.ResetMeetsTheInvariant : Prop := State.reset.Inv

/-- Rule R35: every operation performed in a state that meets the invariant leaves one that meets it. Rule R35's
preservation is the spec's own inference; beside it the invariant holds the constraints on the parameters (log 6) and
the form of memory (log 7), which are the model's. -/
def Obligations.EveryOperationKeepsTheInvariant : Prop :=
  ∀ (i : Instr) (s t : State), s.Inv → exec i s = .next t → t.Inv

/-- Every step keeps the invariant, whatever the host calls. A snapshot outside the invariants is refused (treatment
U2, log 13); the invariant's clauses on parameters and memory are the model's (logs 6 and 7). -/
def Obligations.EveryStepKeepsTheInvariant : Prop :=
  ∀ s t : State, s.Inv → step s = .next t → t.Inv

/-- The buttons are inputs: no operation but JOYPAD.UPDATE changes them (rules R19, R22). That a write to P1 leaves
the buttons alone is the spec's general knowledge (rule R22, log 3). -/
def Obligations.ButtonsChangeOnlyByJoypadUpdate : Prop :=
  ∀ (i : Instr) (s t : State), exec i s = .next t → t.btn ≠ s.btn → ∃ d, i = .joypadUpdate d ∧ t.btn = d

/-! ## Interrupt lines -/

/-- Rule R58: the interrupt-ready condition holds exactly when a source is both enabled and pending, and depends on
nothing but the enable bits and the pending flags. -/
def Obligations.ReadyMeansAnEnabledSourceIsPending : Prop :=
  (∀ b : Block, b.ready = true ↔
    ∃ k : Source, b.ie.getLsbD k.index = true ∧ b.if_.getLsbD k.index = true) ∧
  (∀ b c : Block, b.ie = c.ie → b.if_ = c.if_ → b.ready = c.ready)

/-- Rule R59: the source dispatched is the enabled and pending source of least index, and there is one exactly when
the condition of rule R58 holds. -/
def Obligations.HighestIsTheReadySourceOfLeastIndex : Prop :=
  (∀ (b : Block) (k : Source), b.highest = some k ↔
    (b.ie.getLsbD k.index = true ∧ b.if_.getLsbD k.index = true ∧
      ∀ j : Source, j.index < k.index → ¬(b.ie.getLsbD j.index = true ∧ b.if_.getLsbD j.index = true))) ∧
  (∀ b : Block, b.highest = none ↔ b.ready = false)

/-- Rules R60 and R62 to R64: what the four operations on the interrupt state write, and that they write nothing else.
That these are operations of their own is decision D37, and what IRQ.ACK and IME.WRITE leave alone is decision D29. -/
def Obligations.InterruptLineOperationsWriteTheirFlags : Prop :=
  ∀ (s : State) (k : Source) (v : Bool),
    exec (.irqRaise k) s = .next { s with if_ := s.if_ ||| (1#5 <<< k.index) } ∧
    exec (.irqAck k) s = .next { s with ime := false, if_ := s.if_ &&& ~~~(1#5 <<< k.index) } ∧
    exec .imeRequest s = .next { s with ime_req := true } ∧
    exec (.imeWrite v) s = .next { s with ime := v } ∧
    (∀ j : Source, (s.if_ ||| (1#5 <<< k.index)).getLsbD j.index = (decide (j = k) || s.if_.getLsbD j.index)) ∧
    (∀ j : Source, (s.if_ &&& ~~~(1#5 <<< k.index)).getLsbD j.index = (!decide (j = k) && s.if_.getLsbD j.index))

/-- Rules R65 to R68: the accesses to IF and IE, by name and by address. The addresses, the bit places and the unused
bits are the spec's decisions D5, D6 and D7 (logs 2 and 3). -/
def Obligations.InterruptRegisterAccesses : Prop :=
  ∀ (s : State) (d : Byte),
    exec (.wrIf d) s = .next { s with if_ := d.extractLsb' 0 5 } ∧
    exec .rdIf s = .next { s with output := .readResult s.cfg.addrIf (0b111#3 ++ s.if_) :: s.output } ∧
    exec (.wrIe d) s = .next { s with ie := d.extractLsb' 0 5 } ∧
    exec .rdIe s = .next { s with output := .readResult s.cfg.addrIe (0b000#3 ++ s.ie) :: s.output } ∧
    (s.cfg.wf = true →
      exec (.regWrite s.cfg.addrIf d) s = exec (.wrIf d) s ∧ exec (.regRead s.cfg.addrIf) s = exec .rdIf s ∧
      exec (.regWrite s.cfg.addrIe d) s = exec (.wrIe d) s ∧ exec (.regRead s.cfg.addrIe) s = exec .rdIe s)

/-- Rules R61 and R62: a pending flag that is clear after an operation and was set before it was cleared by IRQ.ACK of
that source, by a write to IF with that bit clear, or inside a STEP, served in neither mode, that entered the
interrupt of that source (the source being the highest ready one and the master enable being set at its start) or
whose instruction wrote IF with that bit clear; DBG.STEP and the debugger's `call STEP` perform a STEP. In particular
no advance, no CYCLES.RUN, no JOYPAD.UPDATE and no step in HALT or STOP mode clears one. Where rule R61 says that
IRQ.ACK happens only inside step S5, a test bench may issue it alone (rule R62). The decision by the master enable at
the start is the spec's D22 and that a step in a low-power mode dispatches nothing its D23 (log 24); the Instruction
Execution Unit's answer is the model's interface (log 10); IF's bits are log 3; the debugger's disjuncts rest on rules
R143 and R145 with the model's choice of names and keys (logs 15 and 16). -/
def Obligations.PendingFlagsAreConsumedOnlyAtADispatchBoundary : Prop :=
  ∀ (i : Instr) (s t : State) (k : Source), s.Inv → exec i s = .next t →
    s.if_.getLsbD k.index = true → t.if_.getLsbD k.index = false →
    let inStep := s.halt = false ∧ s.stop = false ∧
      ((s.ime = true ∧ s.toBlock.highest = some k) ∨
        ∃ a d, IeuOp.regWrite a d ∈ s.ieuAnswer.1.before ++ s.ieuAnswer.1.after ∧
          s.cfg.claimed a = some .ifReg ∧ d.getLsbD k.index = false)
    i = .irqAck k ∨ (∃ d, i = .wrIf d ∧ d.getLsbD k.index = false) ∨
    (∃ a d, i = .regWrite a d ∧ s.cfg.claimed a = some .ifReg ∧ d.getLsbD k.index = false) ∨
    (i = .step ∧ inStep) ∨ (i = .dbgStep ∧ inStep) ∨
    (inStep ∧ ∃ c path more, i = .dbgKey c true ∧
      tokens s.session.buffer = "call".toList :: path :: more ∧ methodOf (pathNames path) = some .step)

/-! ## Timer -/

/-- Rule R70: the four periods, all powers of two, so that the boundary test is divisibility of the divider. -/
def Obligations.TimerPeriods : Prop :=
  period 0#2 = 1024 ∧ period 1#2 = 16 ∧ period 2#2 = 64 ∧ period 3#2 = 256 ∧
  (∀ sel : BitVec 2, ∃ m : Nat, period sel = 2 ^ m) ∧
  ∀ (sel : BitVec 2) (d : BitVec 16), timerBoundary sel d = true ↔ d.toNat % period sel = 0

/-- Rule R71: one TIMER.ADVANCE, field by field; nothing else changes. That the on flag gates the counter, the order
of the parts and what arming writes are the spec's own decisions D8, D9 and D10. -/
def Obligations.TimerAdvanceMovesTheTimerByItsRule : Prop :=
  ∀ s : State,
    let div' := s.div + 1#16
    let expires := decide (s.lag = 1#3 ∧ s.tima = 0#8)
    let loaded := if expires then s.tma else s.tima
    let boundary := decide (div'.toNat % period s.tmr_sel = 0)
    let counted := if boundary then loaded + 1#8 else loaded
    exec .timerAdvance s = .next (
      if s.tmr_on then
        { s with
          div := div'
          tima := counted
          lag := if boundary && counted == 0#8 then 4#3 else if s.lag = 0#3 then 0#3 else s.lag - 1#3
          if_ := if expires then s.if_ ||| 0b00100#5 else s.if_ }
      else { s with div := div' })

/-- Rules R71 and R72: from the advance that overflows the counter, the counter reads 0 and the flag is not raised for
exactly 3 more advances, and the 4th after the overflow reloads the counter and raises the Timer flag. The phase rests
on the spec's own decisions D8 and D9. -/
def Obligations.TimerFlagComesFourCyclesAfterTheOverflow : Prop :=
  ∀ (s : State) (n : Nat), s.tmr_on = true → s.lag = 0#3 → s.tima = 0xFF#8 →
    (s.div + 1#16).toNat % period s.tmr_sel = 0 → n ≤ 4 →
    execTimes (n + 1) .timerAdvance s = .next
      { s with
        div := s.div + BitVec.ofNat 16 (n + 1)
        tima := if n = 4 then s.tma else 0#8
        lag := BitVec.ofNat 3 (4 - n)
        if_ := if n = 4 then s.if_ ||| 0b00100#5 else s.if_ }

/-- Rule R72 and conflict C1: inside the lag window a nonzero write to TIMA cancels the reload and the interrupt, and
a write to TMA cancels nothing but changes the value loaded. The window's place rests on the spec's own decisions D8
and D9; which write cancels is its resolution C1. -/
def Obligations.WritesInsideTheLagWindow : Prop :=
  ∀ (s : State) (n : Nat) (v : Byte), s.tmr_on = true → s.lag = 0#3 → s.tima = 0xFF#8 →
    (s.div + 1#16).toNat % period s.tmr_sel = 0 → n ≤ 3 →
    (v ≠ 0#8 →
      execAll (List.replicate (n + 1) .timerAdvance ++ .wrTima v :: List.replicate (4 - n) .timerAdvance) s =
        .next { s with div := s.div + 5#16, tima := v, lag := 0#3 }) ∧
    execAll (List.replicate (n + 1) .timerAdvance ++ .wrTma v :: List.replicate (4 - n) .timerAdvance) s =
      .next { s with div := s.div + 5#16, tima := v, tma := v, lag := 0#3, if_ := s.if_ ||| 0b00100#5 }

/-- Rule R73, batching: for every cycle count n, the timer after a batched advance of n cycles, the procedure that
CYCLES.RUN and STEP run, is the timer after n times TIMER.ADVANCE. -/
def Obligations.RunningCyclesBatchesTheTimer : Prop :=
  (∀ (n : Nat) (s : State), s.Inv →
    ∃ u, execTimes n .timerAdvance s = .next u ∧
      let t := State.runCycles n s
      t.div = u.div ∧ t.tima = u.tima ∧ t.lag = u.lag ∧ t.tma = u.tma ∧ t.tmr_on = u.tmr_on ∧
      t.tmr_sel = u.tmr_sel ∧ t.if_.getLsbD Source.timer.index = u.if_.getLsbD Source.timer.index) ∧
  (∀ (n : BitVec 16) (s : State), exec (.cyclesRun n) s = .next (State.runCycles n.toNat s))

/-- Rules R74, R76, R78, R80: what the timer's registers read as, by name and by address; a read changes nothing of
the block. The addresses, TAC's bits and DIV reading the high byte are the spec's decisions D5, D6, D7 and D11 (logs 2
and 3). -/
def Obligations.TimerRegisterReads : Prop :=
  ∀ s : State,
    exec .rdDiv s = .next { s with output := .readResult s.cfg.addrDiv (s.div.extractLsb' 8 8) :: s.output } ∧
    exec .rdTima s = .next { s with output := .readResult s.cfg.addrTima s.tima :: s.output } ∧
    exec .rdTma s = .next { s with output := .readResult s.cfg.addrTma s.tma :: s.output } ∧
    exec .rdTac s = .next
      { s with output :=
          .readResult s.cfg.addrTac (0b11111#5 ++ BitVec.ofBool s.tmr_on ++ s.tmr_sel) :: s.output } ∧
    (s.cfg.wf = true →
      exec (.regRead s.cfg.addrDiv) s = exec .rdDiv s ∧ exec (.regRead s.cfg.addrTima) s = exec .rdTima s ∧
      exec (.regRead s.cfg.addrTma) s = exec .rdTma s ∧ exec (.regRead s.cfg.addrTac) s = exec .rdTac s)

/-- Rules R75, R77, R79, R81: what a write to each of the timer's registers stores, by name and by address. The
addresses, TAC's bits and DIV's zeroing are the spec's decisions D5, D6 and D11 (logs 2 and 3). -/
def Obligations.TimerRegisterWrites : Prop :=
  ∀ (s : State) (d : Byte),
    exec (.wrDiv d) s = .next { s with div := 0#16 } ∧
    exec (.wrTima d) s = .next { s with tima := d } ∧
    exec (.wrTma d) s = .next { s with tma := d } ∧
    exec (.wrTac d) s = .next { s with tmr_on := d.getLsbD 2, tmr_sel := d.extractLsb' 0 2 } ∧
    (s.cfg.wf = true →
      exec (.regWrite s.cfg.addrDiv d) s = exec (.wrDiv d) s ∧
      exec (.regWrite s.cfg.addrTima d) s = exec (.wrTima d) s ∧
      exec (.regWrite s.cfg.addrTma d) s = exec (.wrTma d) s ∧
      exec (.regWrite s.cfg.addrTac d) s = exec (.wrTac d) s)

/-! ## Serial port -/

/-- Rules R82 and R83: one SERIAL.ADVANCE, field by field; a transfer on the external clock does not move; nothing
else changes. The boundary test and the fast period are decision D13, the start flag at completion the open parameter
of D14 (log 9), the clock flag's polarity D15. -/
def Obligations.SerialAdvanceMovesThePortByItsRule : Prop :=
  ∀ s : State, s.cfg.wf = true →
    let clk := s.ser_clk + 1#9
    let p := if s.ser_fast then s.cfg.serialFastPeriod else 512
    let boundary := decide (clk.toNat % p = 0)
    let done := boundary && decide (s.ser_bits + 1#4 = 8#4)
    exec .serialAdvance s = .next (
      if s.ser_start = false then { s with ser_clk := 0#9, ser_bits := 0#4 }
      else if s.ser_internal = false then s
      else
        { s with
          sb := if boundary then s.sb <<< 1 ||| 1#8 else s.sb
          ser_clk := if done then 0#9 else clk
          ser_bits := if done then 0#4 else if boundary then s.ser_bits + 1#4 else s.ser_bits
          ser_start := if done && s.cfg.serialDoneClearsStart then false else s.ser_start
          if_ := if done then s.if_ ||| 0b01000#5 else s.if_ })

/-- Rule R82's timing: at standard speed on the internal clock the byte takes exactly 4096 advances, a 1 shifted in at
every 512th, the flag raised at the last and not before. The boundary test is decision D13 (log 21), the start flag at
completion the open parameter of D14 (log 9). -/
def Obligations.StandardTransferTakes4096Advances : Prop :=
  ∀ s : State, s.ser_start = true → s.ser_internal = true → s.ser_fast = false → s.ser_clk = 0#9 → s.ser_bits = 0#4 →
    (∀ n : Nat, n < 4096 →
      execTimes n .serialAdvance s = .next
        { s with
          sb := s.sb <<< (n / 512) ||| BitVec.ofNat 8 (2 ^ (n / 512) - 1)
          ser_clk := BitVec.ofNat 9 n
          ser_bits := BitVec.ofNat 4 (n / 512) }) ∧
    execTimes 4096 .serialAdvance s = .next
      { s with
        sb := 0xFF#8
        if_ := s.if_ ||| 0b01000#5
        ser_start := if s.cfg.serialDoneClearsStart then false else s.ser_start }

/-- Rules R84 to R87: the accesses to SB and SC, by name and by address. The addresses and SC's bits are the spec's
decisions D5, D6, D7 and D15 (logs 2 and 3). -/
def Obligations.SerialRegisterAccesses : Prop :=
  ∀ (s : State) (d : Byte),
    exec .rdSb s = .next { s with output := .readResult s.cfg.addrSb s.sb :: s.output } ∧
    exec (.wrSb d) s = .next { s with sb := d } ∧
    (let sc : Byte :=
      BitVec.ofBool s.ser_start ++ 0b11111#5 ++ BitVec.ofBool s.ser_fast ++ BitVec.ofBool s.ser_internal
     exec .rdSc s = .next { s with output := .readResult s.cfg.addrSc sc :: s.output }) ∧
    exec (.wrSc d) s = .next
      { s with ser_start := d.getLsbD 7, ser_fast := d.getLsbD 1, ser_internal := d.getLsbD 0 } ∧
    (s.cfg.wf = true →
      exec (.regRead s.cfg.addrSb) s = exec .rdSb s ∧ exec (.regWrite s.cfg.addrSb d) s = exec (.wrSb d) s ∧
      exec (.regRead s.cfg.addrSc) s = exec .rdSc s ∧ exec (.regWrite s.cfg.addrSc d) s = exec (.wrSc d) s)

/-! ## DMA -/

/-- Rules R88, R90, R91: starting a transfer, and the accesses to DMA, by name and by address. How a transfer starts,
the formation of its source and the register's read value are the spec's decisions D5, D7 and D16 (logs 2 and 3). -/
def Obligations.DmaStartAndRegisterAccesses : Prop :=
  ∀ (s : State) (a : Addr) (d : Byte),
    exec (.dmaStart a) s = .next { s with dma_src := a, dma_idx := 0#8, dma_active := true } ∧
    exec (.wrDma d) s = .next { s with dma_src := d ++ 0x00#8, dma_idx := 0#8, dma_active := true } ∧
    exec .rdDma s = .next { s with output := .readResult s.cfg.addrDma (s.dma_src.extractLsb' 8 8) :: s.output } ∧
    (s.cfg.wf = true →
      exec (.regWrite s.cfg.addrDma d) s = exec (.wrDma d) s ∧ exec (.regRead s.cfg.addrDma) s = exec .rdDma s)

/-- Rule R89: an inactive DMA.ADVANCE does nothing; an active one copies the byte the source address reads as to the
window, counts, and is inactive after the 160th; every other byte of memory and every other field stays. The window's
place, the source's wrap and the index after completion are the spec's decisions D16 and D17; that the window is plain
external memory is log 6. -/
def Obligations.DmaAdvanceCopiesOneByte : Prop :=
  (∀ s : State, s.dma_active = false → exec .dmaAdvance s = .next s) ∧
  ∀ s : State, s.cfg.wf = true → s.dma_active = true → s.dma_idx.toNat ≤ 0x9F →
    let source := s.dma_src + s.dma_idx.setWidth 16
    let target := s.cfg.oamBase + s.dma_idx.setWidth 16
    ∃ t, exec .dmaAdvance s = .next t ∧
      t.peek target = (s.busRead source).1 ∧
      (∀ a, a ≠ target → t.peek a = s.peek a) ∧
      t.toBlock = { s.toBlock with
        dma_idx := s.dma_idx + 1#8
        dma_active := decide (s.dma_idx.toNat ≠ 0x9F) } ∧
      t = { (s.busRead source).2 with mem := t.mem, toBlock := t.toBlock } ∧
      t.cfg = s.cfg ∧ t.session = s.session ∧ t.pending = s.pending ∧ t.ieuAnswers = s.ieuAnswers ∧
      t.displayAnswers = s.displayAnswers

/-- Rules R18 and R89, the whole transfer: 160 advances after the start, the window holds the source's bytes in order
and the transfer is over, for every source of plain external memory outside the window; a source in the registers, in
a banked window or in the window itself is covered byte by byte by DmaAdvanceCopiesOneByte. The start, the window's
place and the index after completion are the spec's decisions D16 and D17 (log 22); that the window is plain external
memory is log 6; that a source byte nothing has written reads the same after the transfer as before is the model's
choice (log 7). -/
def Obligations.DmaTransferCopiesTheWholeWindow : Prop :=
  ∀ (s : State) (src : Addr), s.cfg.wf = true →
    (∀ i : Nat, i < 160 → s.cfg.isExternal (src + BitVec.ofNat 16 i) = true) →
    (∀ i j : Nat, i < 160 → j < 160 → src + BitVec.ofNat 16 i ≠ s.cfg.oamBase + BitVec.ofNat 16 j) →
    ∃ t, execAll (.dmaStart src :: List.replicate 160 .dmaAdvance) s = .next t ∧
      t = { s with mem := t.mem, dma_src := src, dma_idx := 0xA0#8, dma_active := false } ∧
      (∀ i : Nat, i < 160 → t.peek (s.cfg.oamBase + BitVec.ofNat 16 i) = s.peek (src + BitVec.ofNat 16 i)) ∧
      (∀ a, (∀ i : Nat, i < 160 → a ≠ s.cfg.oamBase + BitVec.ofNat 16 i) → t.peek a = s.peek a)

/-! ## Joypad -/

/-- Rule R92: a bit of the nibble is 0 exactly when a selected group has the button of that position pressed. The
arrangement of the buttons is the spec's decision D19 (log 3). -/
def Obligations.JoypadNibbleBits : Prop :=
  ∀ (btn : Byte) (sd sa : Bool) (i : Nat), i < 4 →
    ((joyNibble btn sd sa).getLsbD i = false ↔
      (sd = true ∧ btn.getLsbD i = true) ∨ (sa = true ∧ btn.getLsbD (i + 4) = true))

/-- Rule R93: JOYPAD.UPDATE stores the buttons and raises the Joypad flag exactly when the nibble leaves 0xF; nothing
else changes. -/
def Obligations.JoypadUpdateRaisesOnlyOnTheFallingEdge : Prop :=
  ∀ (s : State) (d : Byte),
    exec (.joypadUpdate d) s = .next
      { s with
        btn := d
        if_ := if joyNibble s.btn s.sel_dir s.sel_act = 0xF#4 ∧ joyNibble d s.sel_dir s.sel_act ≠ 0xF#4
          then s.if_ ||| 0b10000#5 else s.if_ }

/-- Rule R96: over any sequence of updates with a fixed selection, the flag is set afterwards exactly when it was set
before or some update took the nibble from 0xF to a lower value. Rule R96 is the spec's own inference from R92 and
R93. -/
def Obligations.JoypadFlagFollowsTheFallingEdges : Prop :=
  ∀ (ds : List Byte) (s : State),
    ∃ t, execAll (ds.map .joypadUpdate) s = .next t ∧ t.btn = ds.getLastD s.btn ∧
      (t.if_.getLsbD 4 = true ↔ s.if_.getLsbD 4 = true ∨
        ∃ before after old new, s.btn :: ds = before ++ old :: new :: after ∧
          joyNibble old s.sel_dir s.sel_act = 0xF#4 ∧ joyNibble new s.sel_dir s.sel_act < 0xF#4)

/-- Rules R94 and R95: the accesses to P1, by name and by address; a write never raises the Joypad flag. The address,
the bits and that a write raises no flag are the spec's decisions D5, D6, D7 and D20 (logs 2 and 3). -/
def Obligations.JoypadRegisterAccesses : Prop :=
  ∀ (s : State) (d : Byte),
    exec (.wrP1 d) s = .next { s with sel_act := !d.getLsbD 5, sel_dir := !d.getLsbD 4 } ∧
    (let p1 : Byte :=
      0b11#2 ++ BitVec.ofBool (!s.sel_act) ++ BitVec.ofBool (!s.sel_dir) ++ joyNibble s.btn s.sel_dir s.sel_act
     exec .rdP1 s = .next { s with output := .readResult s.cfg.addrP1 p1 :: s.output }) ∧
    (s.cfg.wf = true →
      exec (.regWrite s.cfg.addrP1 d) s = exec (.wrP1 d) s ∧ exec (.regRead s.cfg.addrP1) s = exec .rdP1 s)

/-! ## Speed switch -/

/-- Rules R97, R99 and R100: preparing stores the bit on the extended variant and does nothing on the base variant;
the accesses to KEY1 on the extended variant; and on the base variant the address is not the block's. That the flag
takes the written bit and that preparing does nothing and KEY1 is not claimed on the base variant are the spec's
decision D21, the address and the bits its D5, D6 and D7 (logs 2 and 3). Rule R50 has no RD.KEY1 and WR.KEY1 on the
base variant; that the named operations are then the external accesses to that address is the model's inference (log
18, DEDUCED), in which memory is log 7 and the said result log 12. -/
def Obligations.SpeedRegisterAccesses : Prop :=
  ∀ (s : State) (v : Bool) (d : Byte),
    exec (.speedPrepare v) s = .next { s with prepared := if s.cfg.extended then v else s.prepared } ∧
    (s.cfg.extended = true →
      exec (.wrKey1 d) s = .next { s with prepared := d.getLsbD 0 } ∧
      (let key1 : Byte := BitVec.ofBool s.fast ++ 0b111111#6 ++ BitVec.ofBool s.prepared
       exec .rdKey1 s = .next { s with output := .readResult s.cfg.addrKey1 key1 :: s.output })) ∧
    (s.cfg.wf = true →
      exec (.regWrite s.cfg.addrKey1 d) s = exec (.wrKey1 d) s ∧
      exec (.regRead s.cfg.addrKey1) s = exec .rdKey1 s) ∧
    (s.cfg.extended = false → bankedWindow s.cfg.addrKey1 = false →
      exec (.wrKey1 d) s = .next { s with mem := s.mem.write s.cfg.addrKey1.toNat d } ∧
      exec .rdKey1 s = .next
        { s with output := .readResult s.cfg.addrKey1 (s.peek s.cfg.addrKey1) :: s.output })

/-- Rules R98 and R101: SPEED.COMMIT toggles a prepared switch, once; the mode changes only with a switch prepared, at
a SPEED.COMMIT, which inside a STEP is a step in STOP mode and not in HALT mode (DBG.STEP and the debugger's `call`
perform a STEP or a commit); and the sequence a program runs: write the prepare bit, enter STOP mode, and the next
STEP zeroes the divider, toggles the mode, consumes 4 cycles and leaves STOP mode, while with no switch prepared it
costs the same step and changes no speed. The write of KEY1 bit 0 is rule R99 with the spec's decisions D6 and D21
(log 3); that the divider then is 4 rests on its decisions D23 and D24, and that HALT mode is served first on D26 (log
24); the names that `call` takes and the keys that reach it are the model's (logs 15 and 16). -/
def Obligations.FastModeChangesOnlyAtACommit : Prop :=
  (∀ s : State,
    exec .speedCommit s = .next { s with fast := s.fast ^^ s.prepared, prepared := false } ∧
    execTimes 2 .speedCommit s = exec .speedCommit s) ∧
  (∀ (i : Instr) (s t : State), exec i s = .next t → t.fast ≠ s.fast →
    let inStep := s.halt = false ∧ s.stop = true
    s.prepared = true ∧
    (i = .speedCommit ∨ (i = .step ∧ inStep) ∨ (i = .dbgStep ∧ inStep) ∨
      ∃ c path more m, i = .dbgKey c true ∧ tokens s.session.buffer = "call".toList :: path :: more ∧
        methodOf (pathNames path) = some m ∧ (m = .speedCommit ∨ (m = .step ∧ inStep)))) ∧
  (∀ s : State, s.Inv → s.halt = false →
    (s.cfg.extended = true →
      ∃ t, execAll [.wrKey1 0x01#8, .stopEnter, .step] s = .next t ∧
        t.fast = (!s.fast) ∧ t.prepared = false ∧ t.div = 4#16 ∧ t.stop = false) ∧
    (s.prepared = false →
      ∃ t, execAll [.stopEnter, .step] s = .next t ∧ t.fast = s.fast ∧ t.div = 4#16 ∧ t.stop = false))

/-! ## Step sequencer -/

/-- Rules R102 and R103: entering HALT and STOP mode. That these are operations of their own is the spec's decision
D36. -/
def Obligations.LowPowerModesAreEntered : Prop :=
  ∀ s : State,
    exec .haltEnter s = .next { s with halt := true } ∧ exec .stopEnter s = .next { s with stop := true } ∧
    execAll [.haltEnter, .stopEnter] s = .next { s with halt := true, stop := true }

/-- Rule R106: a step in HALT mode runs 4 cycles and ends the mode exactly when a source was ready at its start; no
interrupt is entered, no instruction executed, a requested enable waits and STOP mode is not served; beside the mode
it does what CYCLES.RUN 4 does. That the step returns, what consuming 4 cycles means and that HALT is served before
STOP are the spec's decisions D23, D24 and D26. -/
def Obligations.HaltStepWaitsForAReadySource : Prop :=
  ∀ s : State, s.Inv → s.halt = true →
    ∃ t, exec .step s = .next t ∧ t.halt = !s.toBlock.ready ∧ t.div = s.div + 4#16 ∧
      t.ime = s.ime ∧ t.ime_req = s.ime_req ∧ t.stop = s.stop ∧ t.ie = s.ie ∧ t.fast = s.fast ∧
      t.prepared = s.prepared ∧ t.ieuAnswers = s.ieuAnswers ∧ s.if_ &&& t.if_ = s.if_ ∧
      ∃ u, exec (.cyclesRun 4#16) s = .next u ∧ t = { u with halt := !s.toBlock.ready }

/-- Rule R107: a step in STOP mode zeroes the divider, commits a prepared switch, runs 4 cycles and ends the mode,
whatever the buttons, the flags and the master enable are; no instruction is executed; the 4 cycles are CYCLES.RUN 4.
That the step returns and what consuming 4 cycles means are the spec's decisions D23 and D24; resuming without a
button is its known deviation U13 (log 17). -/
def Obligations.StopStepAlwaysResumes : Prop :=
  ∀ s : State, s.Inv → s.halt = false → s.stop = true →
    ∃ t, exec .step s = .next t ∧ t.stop = false ∧ t.div = 4#16 ∧ t.fast = (s.fast ^^ s.prepared) ∧
      t.prepared = false ∧ t.halt = false ∧ t.ime = s.ime ∧ t.ime_req = s.ime_req ∧ t.ie = s.ie ∧
      t.ieuAnswers = s.ieuAnswers ∧ s.if_ &&& t.if_ = s.if_ ∧
      ∃ u, exec (.cyclesRun 4#16) { s with div := 0#16, fast := s.fast ^^ s.prepared, prepared := false } = .next u ∧
        t = { u with stop := false }

/-- Rules R109 to R111: a step outside both modes applies a requested enable, invokes the Instruction Execution Unit
once, through the interrupt-ready path exactly when a source was ready and the master enable set at its start, and
runs the cycles it returns; what the unit performs are the operations of rule R46, in its own order, and the
acknowledgement of an entry is IRQ.ACK (rules R5, R43, R62). The place of the decision is the spec's D22, the entry as
a step of its own its D27; that the unit's answers are those given, in order, and free when none is given, is the
model's interface (log 10). -/
def Obligations.ExecutingStepInvokesTheUnitOnce : Prop :=
  (∀ s : State, s.halt = false → s.stop = false →
    let enabled := { s with ime := s.ime || s.ime_req, ime_req := false }
    let answer := enabled.ieuAnswer.1
    let asked := enabled.ieuAnswer.2
    (∀ k, s.ime = true → s.toBlock.highest = some k →
      exec .step s = .next (State.runCycles answer.cycles
        (State.ieuOps answer.after
          { State.ieuOps answer.before
              { asked with output := .dispatchInterrupt k (s.cfg.vector k) :: asked.output } with
            toBlock := Block.ack k (State.ieuOps answer.before
              { asked with output := .dispatchInterrupt k (s.cfg.vector k) :: asked.output }).toBlock }))) ∧
    (s.ime = false ∨ s.toBlock.ready = false →
      exec .step s = .next (State.runCycles answer.cycles
        (State.ieuOps (answer.before ++ answer.after)
          { asked with output := .dispatchOne :: asked.output })))) ∧
  (∀ (os : List IeuOp) (s : State), execAll (os.map IeuOp.operation) s = .next (State.ieuOps os s)) ∧
  (∀ (k : Source) (s : State), exec (.irqAck k) s = .next { s with toBlock := Block.ack k s.toBlock }) ∧
  (∀ s : State, (∀ a rest, s.ieuAnswers = a :: rest → s.ieuAnswer = (a, { s with ieuAnswers := rest })) ∧
    (s.ieuAnswers = [] → s.ieuAnswer.2 = { s with fresh := s.fresh + 1 }))

/-- Rule R123: a STEP enters interrupt k exactly when it is served in neither mode, the master enable was set at its
start and k was the highest ready source then; otherwise, outside the modes, it executes one instruction. The place of
the decision is the spec's D22 (conflict C2), the modes' return its D23, the vectors its D28 (log 5). -/
def Obligations.InterruptIsEnteredExactlyWhen : Prop :=
  ∀ s : State, ∃ t es, exec .step s = .next t ∧ t.output = es ++ s.output ∧
    (∀ k v, Event.dispatchInterrupt k v ∈ es ↔
      (s.halt = false ∧ s.stop = false ∧ s.ime = true ∧ s.toBlock.highest = some k ∧ v = s.cfg.vector k)) ∧
    (Event.dispatchOne ∈ es ↔
      (s.halt = false ∧ s.stop = false ∧ ¬(s.ime = true ∧ s.toBlock.ready = true)))

/-- Rule R113: the STEP after an enable request enters no interrupt, whatever is pending, and executes one
instruction, with the master enable already set: an instruction that touches neither latch (it performs no IME.REQUEST
and no IME.WRITE, whatever else it performs) leaves it set. The latency rests on the spec's decision D22 (conflict C2,
log 24); the Instruction Execution Unit's answer is the model's interface (log 10). -/
def Obligations.EnableTakesEffectAfterOneInstruction : Prop :=
  ∀ s : State, s.ime = false → s.halt = false → s.stop = false →
    ∃ u t es, exec .imeRequest s = .next u ∧ exec .step u = .next t ∧ t.output = es ++ u.output ∧
      (∀ k v, Event.dispatchInterrupt k v ∉ es) ∧ Event.dispatchOne ∈ es ∧
      ((∀ o ∈ u.ieuAnswer.1.before ++ u.ieuAnswer.1.after, o ≠ .imeRequest ∧ ∀ v, o ≠ .imeWrite v) → s.Inv →
        t.ime = true ∧ t.ime_req = false)

/-- Rules R7, R108 and R112: CYCLES.RUN n performs n cycles, each Timer, Serial and an active DMA in that order, and
then calls Display and Audio once each with n, halved in fast mode. The VBlank and LCD-status flags are set afterwards
exactly when they were before or the Display Unit answers so; no other flag is touched by it. The order inside a cycle
and the place of the halving are the spec's decision D25; that the Display Unit's answers are those given, in order,
and free when none is given, is the model's interface (log 11). -/
def Obligations.CyclesRunHandsTheRealTimeCountOver : Prop :=
  (∀ (n : BitVec 16) (s : State),
    ∃ t u, exec (.cyclesRun n) s = .next t ∧ State.runLoop n.toNat s = u ∧
      (let m := if s.fast then n.toNat / 2 else n.toNat
       t.output = .audioAdvance m :: .displayAdvance m :: u.output ∧
       t.mem = u.mem ∧ t.toBlock = { u.toBlock with if_ := t.if_ } ∧
       t.if_.getLsbD Source.vblank.index = (u.if_.getLsbD Source.vblank.index || u.displayAnswer.1.vblank) ∧
       t.if_.getLsbD Source.lcd.index = (u.if_.getLsbD Source.lcd.index || u.displayAnswer.1.lcd) ∧
       (∀ k : Source, k.index ≥ 2 → t.if_.getLsbD k.index = u.if_.getLsbD k.index))) ∧
  (∀ (n : Nat) (s : State), State.runLoop 0 s = s ∧
    execAll [.timerAdvance, .serialAdvance, .dmaAdvance] s = .next s.cycle ∧
    State.runLoop (n + 1) s = State.runLoop n s.cycle) ∧
  (∀ s : State, (∀ a rest, s.displayAnswers = a :: rest →
      s.displayAnswer = (a, { s with displayAnswers := rest })) ∧
    (s.displayAnswers = [] → s.displayAnswer.2 = { s with fresh := s.fresh + 1 }))

/-- Rules R108 and R134, the frame of CYCLES.RUN: what the peripherals' advances never touch, and that the only memory
they write is the object-memory window. Rule R134 is the spec's own inference; that the window is plain external
memory is log 6. -/
def Obligations.CyclesRunLeavesTheRestAlone : Prop :=
  ∀ (n : BitVec 16) (s : State), s.Inv →
    ∃ t, exec (.cyclesRun n) s = .next t ∧
      t.ie = s.ie ∧ t.ime = s.ime ∧ t.ime_req = s.ime_req ∧ t.halt = s.halt ∧ t.stop = s.stop ∧
      t.tmr_on = s.tmr_on ∧ t.tmr_sel = s.tmr_sel ∧ t.tma = s.tma ∧ t.ser_internal = s.ser_internal ∧
      t.ser_fast = s.ser_fast ∧ t.dma_src = s.dma_src ∧ t.btn = s.btn ∧ t.sel_dir = s.sel_dir ∧
      t.sel_act = s.sel_act ∧ t.fast = s.fast ∧ t.prepared = s.prepared ∧
      t.session = s.session ∧ t.ieuAnswers = s.ieuAnswers ∧
      ∀ a, (∀ i : Nat, i < 160 → a ≠ s.cfg.oamBase + BitVec.ofNat 16 i) → t.peek a = s.peek a

/-- Rule R116: the divider counts the cycles consumed: n in CYCLES.RUN n, 4 in a HALT step, from zero in a STOP step,
and the returned count in a step whose instruction touches nothing of the block. Rule R116 is the spec's own
inference, and the 4 cycles of a HALT or STOP step rest on its decisions D23 and D24. -/
def Obligations.DividerCountsTheConsumedCycles : Prop :=
  ∀ s : State, s.Inv →
    (∀ n : BitVec 16, ∃ t, exec (.cyclesRun n) s = .next t ∧ t.div = s.div + n) ∧
    (s.halt = true → ∃ t, exec .step s = .next t ∧ t.div = s.div + 4#16) ∧
    (s.halt = false → s.stop = true → ∃ t, exec .step s = .next t ∧ t.div = 4#16) ∧
    (s.halt = false → s.stop = false → s.ieuAnswer.1.before = [] → s.ieuAnswer.1.after = [] →
      ∃ t, exec .step s = .next t ∧ t.div = s.div + BitVec.ofNat 16 s.ieuAnswer.1.cycles)

/-- Rules R132 and R158: with every source masked HALT mode never ends, however many steps, and no instruction
executes meanwhile. The 4 cycles of each step rest on the spec's decision D24. -/
def Obligations.HaltWithEverySourceMaskedNeverEnds : Prop :=
  ∀ (n : Nat) (s : State), s.Inv → s.halt = true → s.ie = 0#5 →
    ∃ t, execTimes n .step s = .next t ∧ t.halt = true ∧ t.ie = 0#5 ∧ t.ieuAnswers = s.ieuAnswers ∧
      t.div = s.div + BitVec.ofNat 16 (4 * n)

/-- Rules R15 and R21: a low-power mode ends only in a STEP (DBG.STEP and the debugger's `call STEP` perform one):
HALT mode in one that began with a source ready, STOP mode in one that began outside HALT mode. The table of rule R21
is the spec's own inference, and that HALT is served before STOP its decision D26; the debugger's disjuncts rest on
rules R143 and R145 with the model's choice of names and keys (logs 15 and 16). -/
def Obligations.LowPowerModesEndOnlyInAStep : Prop :=
  ∀ (i : Instr) (s t : State), exec i s = .next t →
    let aStep := i = .step ∨ i = .dbgStep ∨
      ∃ c path more, i = .dbgKey c true ∧ tokens s.session.buffer = "call".toList :: path :: more ∧
        methodOf (pathNames path) = some .step
    (s.halt = true → t.halt = false → s.toBlock.ready = true ∧ aStep) ∧
    (s.stop = true → t.stop = false → s.halt = false ∧ aStep)

/-! ## Bus -/

/-- Rule R50: the generic access to a claimed address is the named access, for every register. The addresses are
parameters (decision D5). On the base variant, where the address of KEY1 is not claimed and rule R50 has no RD.KEY1
and WR.KEY1, that the named operations are then the external accesses to that address is the model's inference (log
18, DEDUCED). -/
def Obligations.NamedAccessIsTheGenericAccess : Prop :=
  ∀ (s : State) (r : Reg) (d : Byte), s.cfg.wf = true →
    exec (.regRead (s.cfg.addr r)) s = exec (readInstr r) s ∧
    exec (.regWrite (s.cfg.addr r) d) s = exec (writeInstr d r) s

/-- Rules R37 and R42: no read changes the block or memory, and outside the Memory Bank Controller's windows a second
read answers the same byte. That no read has a side effect is the spec's decision D7; that a byte of external memory
that nothing has written reads the same twice is the model's choice (log 7; treatment U7 allows any value); that every
read's result is said to the outside is the model's interface (log 12), the controller's answer log 8. -/
def Obligations.ReadsChangeNothing : Prop :=
  ∀ (s : State) (a : Addr),
    (∃ t v, exec (.regRead a) s = .next t ∧ t.toBlock = s.toBlock ∧ t.mem = s.mem ∧ t.cfg = s.cfg ∧
      t.session = s.session ∧ t.output.head? = some (.readResult a v) ∧
      (s.cfg.isExternal a = true → v = s.peek a) ∧ (∀ r, s.cfg.claimed a = some r → v = s.toBlock.regRead r)) ∧
    (bankedWindow a = false → ∃ t u v, exec (.regRead a) s = .next t ∧ exec (.regRead a) t = .next u ∧
      u.output = .readResult a v :: .readResult a v :: s.output)

/-- Rules R38 and R43: a write to plain external memory is what a later read answers, and changes no other byte, no
field of the block and nothing else. Memory behind the bus is the spec's parameter; its form here is the model's (log
7); that the read's result is said to the outside is the model's interface (log 12). -/
def Obligations.ExternalWriteIsReadBack : Prop :=
  ∀ (s : State) (a : Addr) (d : Byte), s.cfg.isExternal a = true →
    let t : State := { s with mem := s.mem.write a.toNat d }
    exec (.regWrite a d) s = .next t ∧
    t.peek a = d ∧ (∀ b, b ≠ a → t.peek b = s.peek b) ∧
    exec (.regRead a) t = .next { t with output := .readResult a d :: t.output }

/-- Rules R6 and R38, treatment U7: an access to a window of the Memory Bank Controller goes to it and touches no byte
of memory and no field of the block; a read answers the byte the controller answers. The banked-RAM window's numbers
are the spec's general knowledge (log 4); that its answers are those given, in order, and free when none is given, is
the model's interface (log 8). -/
def Obligations.BankedAccessGoesToTheController : Prop :=
  ∀ (s : State) (a : Addr) (d : Byte), s.cfg.claimed a = none → bankedWindow a = true →
    exec (.regWrite a d) s = .next { s with output := .bankWrite a d :: s.output } ∧
    exec (.regRead a) s = .next
      { s.bankAnswer.2 with output := .readResult a s.bankAnswer.1 :: .bankRead a s.bankAnswer.1 :: s.output } ∧
    (∀ v rest, s.bankAnswers = v :: rest → s.bankAnswer = (v, { s with bankAnswers := rest })) ∧
    (s.bankAnswers = [] → s.bankAnswer.2 = { s with fresh := s.fresh + 1 }) ∧
    s.bankAnswer.2.toBlock = s.toBlock ∧ s.bankAnswer.2.mem = s.mem

/-! ## Debug layer -/

/-- Rule R145: what DBG.STEP does in each mode; the block is unchanged or exactly what STEP leaves; and only a
breakpoint that fires or no longer resolves, or the break-in key, ends a run with breakpoints. That other keys do
nothing while running with breakpoints is the model's reading of this rule (log 15), and that a hit or a fatal error
adds no report is its choice (log 31); the order of evaluation is the spec's decision D32. -/
def Obligations.DebugStepByMode : Prop :=
  ∀ s : State,
    (s.session.mode = .awaitingCommand ∨ s.session.mode = .editingCommandLine → exec .dbgStep s = .next s) ∧
    (s.session.mode = .runningUnchecked → exec .dbgStep s = exec .step s) ∧
    (s.session.mode = .runningWithBreakpoints →
      (s.toBlock.tick s.session.breakpoints = .quiet → exec .dbgStep s = exec .step s) ∧
      (∀ ps, s.toBlock.tick s.session.breakpoints = .hit ps →
        exec .dbgStep s = .next { s with session :=
          { s.session with mode := .awaitingCommand, breakpoints := ps } }) ∧
      (s.toBlock.tick s.session.breakpoints = .fatal →
        exec .dbgStep s = .next { s with session := { s.session with mode := .awaitingCommand } })) ∧
    (∃ t u, exec .dbgStep s = .next t ∧ exec .step s = .next u ∧ (t.toBlock = s.toBlock ∨ t.toBlock = u.toBlock)) ∧
    (∀ i t, s.session.mode = .runningWithBreakpoints → exec i s = .next t →
      t.session.mode ≠ .runningWithBreakpoints →
      (i = .dbgStep ∧ s.toBlock.tick s.session.breakpoints ≠ .quiet) ∨
        ∃ c, i = .dbgKey c true ∧ s.keyOf c = some .breakIn)

/-- Rule R144: the breakpoints are evaluated in list order up to the first that fires, by its operator, and only that
one is changed, a CHANGE breakpoint taking the present value as its baseline. Stopping at the first is the spec's
decision D32; the string forms are the model's (log 16). -/
def Obligations.TickStopsAtTheFirstBreakpointThatFires : Prop :=
  ∀ (b : Block) (ps : List Breakpoint),
    let silent := fun x : Breakpoint => ∃ v, b.evaluatePath x.path = some v ∧
      ((x.op = .change ∧ v.text = x.stored) ∨ (x.op = .eq ∧ v.text ≠ x.stored) ∨ (x.op = .neq ∧ v.text = x.stored))
    (∀ qs, b.tick ps = .hit qs ↔
      ∃ before p after v, ps = before ++ p :: after ∧ (∀ x ∈ before, silent x) ∧
        b.evaluatePath p.path = some v ∧
        ((p.op = .change ∧ v.text ≠ p.stored) ∨ (p.op = .eq ∧ v.text = p.stored) ∨
          (p.op = .neq ∧ v.text ≠ p.stored)) ∧
        qs = before ++ (if p.op = .change then { p with stored := v.text } else p) :: after) ∧
    (b.tick ps = .fatal ↔
      ∃ before p after, ps = before ++ p :: after ∧ (∀ x ∈ before, silent x) ∧ b.evaluatePath p.path = none) ∧
    (b.tick ps = .quiet ↔ ∀ x ∈ ps, silent x)

/-- Rules R146 and R148: what a key event does: only a press the key-state table shows as new counts; a character is
appended and puts the session in EditingCommandLine, backspace removes one, in every mode but RunningWithBreakpoints;
a new press of the break-in key returns to the prompt from every mode; and in RunningWithBreakpoints every other key
does nothing else. Rule R148 says that the break-in key always resets the session; that it, too, counts only as a new
press is the model's reading with rule R146 (DEDUCED, log 15), and so is, of rule R145, that keys other than the
break-in key do nothing in RunningWithBreakpoints (DEDUCED, log 15). That backspace leaves the mode as it is is the
model's choice (DESIGN CHOICE, log 15); what the break-in key does to the buffer is a parameter (DESIGN CHOICE, log
15), and so is the key code map (log 14). -/
def Obligations.KeyEventsEditTheCommandLine : Prop :=
  (∀ (q : DebuggerSession) (c j : Byte) (p : Bool),
    (q.setKey c p).keyDown j = (if j = c then p else q.keyDown j)) ∧
  ∀ (s : State) (c : Byte) (p : Bool),
    let q := s.session.setKey c p
    (p = false ∨ s.session.keyDown c = true ∨ s.keyOf c = none →
      exec (.dbgKey c p) s = .next { s with session := q }) ∧
    (p = true → s.session.keyDown c = false →
      (∀ ch, s.keyOf c = some (.char ch) → s.session.takesKeys = true →
        exec (.dbgKey c p) s = .next
          { s with session := { q with mode := .editingCommandLine, buffer := s.session.buffer ++ [ch] } }) ∧
      (s.keyOf c = some .backspace → s.session.takesKeys = true →
        exec (.dbgKey c p) s = .next { s with session := { q with buffer := s.session.buffer.dropLast } }) ∧
      (s.keyOf c = some .breakIn →
        exec (.dbgKey c p) s = .next
          { s with session := { q with
              mode := .awaitingCommand
              buffer := if s.cfg.breakInClearsBuffer then [] else s.session.buffer } }) ∧
      (∀ k, s.keyOf c = some k → k ≠ .breakIn → s.session.takesKeys = false →
        exec (.dbgKey c p) s = .next { s with session := q }))

/-- Rules R143, R146 and R147: newline, in every mode but RunningWithBreakpoints, finishes the line and returns to
AwaitingCommand: an empty line does nothing more, an unknown name is reported and changes nothing of the block, `run`
resumes stepping, `x` reports a value, `break` does what a direct `set_breakpoint_command` does, and `call` performs
the operation its path names, from the prompt; `x` and `call` without a path, or with one that does not resolve, are
reported. Which mode `run` enters is the spec's decision D32; that an empty line is no command and that no line is
finished in RunningWithBreakpoints is log 15; the names of fields and methods are log 16; that further arguments are
ignored and how errors are reported is log 26; that the direct command takes the arguments without the name is log 30;
that the command finds the session at its prompt is log 28: all the model's choices. -/
def Obligations.NewlineDispatchesTheCommand : Prop :=
  ∀ (s : State) (c : Byte), s.session.keyDown c = false → s.keyOf c = some .newline → s.session.takesKeys = true →
    let q := { s.session.setKey c true with mode := .awaitingCommand, buffer := [] }
    let reported := fun r : Report =>
      exec (.dbgKey c true) s = .next { s with session := { q with reports := r :: q.reports } }
    let methods : List (List Text × Instr) :=
      [(["STEP".toList], .step), (["IME".toList, "REQUEST".toList], .imeRequest),
       (["HALT".toList, "ENTER".toList], .haltEnter), (["STOP".toList, "ENTER".toList], .stopEnter),
       (["TIMER".toList, "ADVANCE".toList], .timerAdvance), (["SERIAL".toList, "ADVANCE".toList], .serialAdvance),
       (["DMA".toList, "ADVANCE".toList], .dmaAdvance), (["SPEED".toList, "COMMIT".toList], .speedCommit),
       (["DBG".toList, "STEP".toList], .dbgStep)]
    (tokens s.session.buffer = [] → exec (.dbgKey c true) s = .next { s with session := q }) ∧
    (∀ name args, tokens s.session.buffer = name :: args →
      name ∉ ["run".toList, "x".toList, "break".toList, "call".toList] → reported (.unknownCmd name)) ∧
    (∀ args, tokens s.session.buffer = "run".toList :: args →
      exec (.dbgKey c true) s = .next { s with session := { q with
        mode := if s.session.breakpoints = [] then .runningUnchecked else .runningWithBreakpoints } }) ∧
    (tokens s.session.buffer = ["x".toList] → reported .missingPath) ∧
    (∀ path args, tokens s.session.buffer = "x".toList :: path :: args →
      (∀ v, s.toBlock.evaluatePath (pathNames path) = some v → reported (.value v.text)) ∧
      (s.toBlock.evaluatePath (pathNames path) = none → reported (.notFound (pathNames path)))) ∧
    (∀ args, tokens s.session.buffer = "break".toList :: args →
      exec (.dbgKey c true) s = step { s with session := q, pending := .setBreakpoint args :: s.pending }) ∧
    (tokens s.session.buffer = ["call".toList] → reported .missingPath) ∧
    (∀ path args, tokens s.session.buffer = "call".toList :: path :: args →
      (∀ i, (pathNames path, i) ∈ methods → exec (.dbgKey c true) s = exec i { s with session := q }) ∧
      ((∀ i, (pathNames path, i) ∉ methods) → reported (.notFound (pathNames path))))

/-- Rules R141 and R149: `set_breakpoint` on a path that resolves adds a breakpoint: CHANGE with the present value, EQ
and NEQ with the given one; a bad operator and a missing path are reported and add nothing. That a new breakpoint goes
to the end of the list is the model's choice (log 29); so are reporting a path that does not resolve, a missing
operator (as a bad one) and a missing value, ignoring further arguments, and serving the direct call without the
prompt (log 26); that the tokens of the direct call are the arguments without the name `break` is its choice too (log
30); the names of fields and the string forms are the model's (log 16). -/
def Obligations.SetBreakpointStoresItsBaseline : Prop :=
  ∀ (s : State) (rest : List HostCall) (path : Text),
    let add := fun p : Breakpoint => { s with
      pending := rest
      session := { s.session with breakpoints := s.session.breakpoints ++ [p] } }
    let say := fun r : Report => { s with
      pending := rest
      session := { s.session with reports := r :: s.session.reports } }
    (∀ v, s.toBlock.evaluatePath (pathNames path) = some v →
      (∀ more, s.pending = .setBreakpoint (path :: "CHANGE".toList :: more) :: rest →
        step s = .next (add ⟨pathNames path, .change, v.text⟩)) ∧
      (∀ value more, s.pending = .setBreakpoint (path :: "EQ".toList :: value :: more) :: rest →
        step s = .next (add ⟨pathNames path, .eq, value⟩)) ∧
      (∀ value more, s.pending = .setBreakpoint (path :: "NEQ".toList :: value :: more) :: rest →
        step s = .next (add ⟨pathNames path, .neq, value⟩)) ∧
      (∀ op ∈ ["EQ".toList, "NEQ".toList], s.pending = .setBreakpoint [path, op] :: rest →
        step s = .next (say .missingValue)) ∧
      (∀ op more, op ∉ ["CHANGE".toList, "EQ".toList, "NEQ".toList] →
        s.pending = .setBreakpoint (path :: op :: more) :: rest → step s = .next (say .badOperator)) ∧
      (s.pending = .setBreakpoint [path] :: rest → step s = .next (say .badOperator))) ∧
    (s.toBlock.evaluatePath (pathNames path) = none →
      ∀ more, s.pending = .setBreakpoint (path :: more) :: rest →
        step s = .next (say (.notFound (pathNames path)))) ∧
    (s.pending = .setBreakpoint [] :: rest → step s = .next (say .missingPath))

/-- Rule R142: a path is resolved one name at a time: a one-name path is the entry of that name, a longer one goes on
inside a composite, and resolution fails at an absent name or at a value that is not composite. And the names lead
where they say: each of the block's 26 fields, alone and (but for the sequencer's four) inside its group, evaluates to
its present value, and a group to its fields. Which names there are, and the groups, is the model's registry (DESIGN
CHOICE, log 16). -/
def Obligations.PathsResolveOneNameAtATime : Prop :=
  (∀ (names : List (Text × PathValue)) (n m : Text) (rest : List Text),
    resolveFrom names [n] = named n names ∧
    (∀ ms, named n names = some (.composite ms) →
      resolveFrom names (n :: m :: rest) = resolveFrom (ms.map fun f => (f.1, .leaf f.2)) (m :: rest)) ∧
    (∀ x, named n names = some (.leaf x) → resolveFrom names (n :: m :: rest) = none) ∧
    (named n names = none → resolveFrom names (n :: rest) = none) ∧
    resolveFrom names [] = none) ∧
  (∀ b : Block,
    let fields : List (Text × Text × Nat) :=
      [("InterruptLines".toList, "ie".toList, b.ie.toNat), ("InterruptLines".toList, "if_".toList, b.if_.toNat),
       ("TimerState".toList, "div".toList, b.div.toNat), ("TimerState".toList, "tmr_on".toList, b.tmr_on.toNat),
       ("TimerState".toList, "tmr_sel".toList, b.tmr_sel.toNat),
       ("TimerState".toList, "tima".toList, b.tima.toNat), ("TimerState".toList, "tma".toList, b.tma.toNat),
       ("TimerState".toList, "lag".toList, b.lag.toNat), ("SerialState".toList, "sb".toList, b.sb.toNat),
       ("SerialState".toList, "ser_start".toList, b.ser_start.toNat),
       ("SerialState".toList, "ser_internal".toList, b.ser_internal.toNat),
       ("SerialState".toList, "ser_fast".toList, b.ser_fast.toNat),
       ("SerialState".toList, "ser_clk".toList, b.ser_clk.toNat),
       ("SerialState".toList, "ser_bits".toList, b.ser_bits.toNat),
       ("DMAState".toList, "dma_active".toList, b.dma_active.toNat),
       ("DMAState".toList, "dma_idx".toList, b.dma_idx.toNat),
       ("DMAState".toList, "dma_src".toList, b.dma_src.toNat), ("JoypadState".toList, "btn".toList, b.btn.toNat),
       ("JoypadState".toList, "sel_dir".toList, b.sel_dir.toNat),
       ("JoypadState".toList, "sel_act".toList, b.sel_act.toNat),
       ("SpeedState".toList, "fast".toList, b.fast.toNat),
       ("SpeedState".toList, "prepared".toList, b.prepared.toNat)]
    let sequencer : List (Text × Nat) :=
      [("ime".toList, b.ime.toNat), ("ime_req".toList, b.ime_req.toNat), ("halt".toList, b.halt.toNat),
       ("stop".toList, b.stop.toNat)]
    (∀ f ∈ fields, b.evaluatePath (pathNames f.2.1) = some (.leaf f.2.2) ∧
      b.evaluatePath (pathNames (f.1 ++ '.' :: f.2.1)) = some (.leaf f.2.2) ∧
      b.evaluatePath (pathNames f.1) =
        some (.composite ((fields.filter fun g => g.1 == f.1).map fun g => (g.2.1, g.2.2)))) ∧
    (∀ f ∈ sequencer, b.evaluatePath (pathNames f.1) = some (.leaf f.2)))

/-- Rules R140, R143 and R149: a key event changes the block only by finishing a line that calls a method. That the
session was then not in RunningWithBreakpoints is the model's reading (log 15); which methods there are is its choice
(log 16). -/
def Obligations.KeysReachTheBlockOnlyThroughCall : Prop :=
  ∀ (c : Byte) (p : Bool) (s t : State), exec (.dbgKey c p) s = .next t → t.toBlock ≠ s.toBlock →
    p = true ∧ s.session.keyDown c = false ∧ s.keyOf c = some .newline ∧ s.session.takesKeys = true ∧
      ∃ path args m, tokens s.session.buffer = "call".toList :: path :: args ∧ methodOf (pathNames path) = some m

/-- Section H5: the debugger cannot be observed from inside: every operation but the debugger's own does the same
whatever the session is, and leaves the session alone. The section's sentence is not a numbered rule. -/
def Obligations.DebuggerSessionIsInvisibleToTheBlock : Prop :=
  ∀ (i : Instr) (s t : State) (q : DebuggerSession), i ≠ .dbgStep → (∀ c p, i ≠ .dbgKey c p) →
    exec i s = .next t → t.session = s.session ∧ exec i { s with session := q } = .next { t with session := q }
end

