-- ==== Sys2Proof/Laws/State.lean ====
section
/-! SUPPORT. One lemma per field per update, each true by computation, so that no proof unfolds a record update. -/

namespace Sys2Proof.Laws

open Sys2Proof.Machine

/-! ## A change of the block's own fields -/

@[simp] theorem onBlock_toBlock (f : Block → Block) (s : State) : (s.onBlock f).toBlock = f s.toBlock := rfl
@[simp] theorem onBlock_cfg (f : Block → Block) (s : State) : (s.onBlock f).cfg = s.cfg := rfl
@[simp] theorem onBlock_mem (f : Block → Block) (s : State) : (s.onBlock f).mem = s.mem := rfl
@[simp] theorem onBlock_session (f : Block → Block) (s : State) : (s.onBlock f).session = s.session := rfl
@[simp] theorem onBlock_pending (f : Block → Block) (s : State) : (s.onBlock f).pending = s.pending := rfl
@[simp] theorem onBlock_ieuAnswers (f : Block → Block) (s : State) : (s.onBlock f).ieuAnswers = s.ieuAnswers := rfl
@[simp] theorem onBlock_displayAnswers (f : Block → Block) (s : State) : (s.onBlock f).displayAnswers = s.displayAnswers := rfl
@[simp] theorem onBlock_bankAnswers (f : Block → Block) (s : State) : (s.onBlock f).bankAnswers = s.bankAnswers := rfl
@[simp] theorem onBlock_fresh (f : Block → Block) (s : State) : (s.onBlock f).fresh = s.fresh := rfl
@[simp] theorem onBlock_output (f : Block → Block) (s : State) : (s.onBlock f).output = s.output := rfl

/-! ## Something said to the outside -/

@[simp] theorem emit_toBlock (e : Event) (s : State) : (s.emit e).toBlock = s.toBlock := rfl
@[simp] theorem emit_cfg (e : Event) (s : State) : (s.emit e).cfg = s.cfg := rfl
@[simp] theorem emit_mem (e : Event) (s : State) : (s.emit e).mem = s.mem := rfl
@[simp] theorem emit_session (e : Event) (s : State) : (s.emit e).session = s.session := rfl
@[simp] theorem emit_pending (e : Event) (s : State) : (s.emit e).pending = s.pending := rfl
@[simp] theorem emit_ieuAnswers (e : Event) (s : State) : (s.emit e).ieuAnswers = s.ieuAnswers := rfl
@[simp] theorem emit_displayAnswers (e : Event) (s : State) : (s.emit e).displayAnswers = s.displayAnswers := rfl
@[simp] theorem emit_bankAnswers (e : Event) (s : State) : (s.emit e).bankAnswers = s.bankAnswers := rfl
@[simp] theorem emit_fresh (e : Event) (s : State) : (s.emit e).fresh = s.fresh := rfl
@[simp] theorem emit_output (e : Event) (s : State) : (s.emit e).output = e :: s.output := rfl

/-! ## A byte stored -/

@[simp] theorem poke_toBlock (a : Addr) (v : Byte) (s : State) : (s.poke a v).toBlock = s.toBlock := rfl
@[simp] theorem poke_cfg (a : Addr) (v : Byte) (s : State) : (s.poke a v).cfg = s.cfg := rfl
@[simp] theorem poke_mem (a : Addr) (v : Byte) (s : State) : (s.poke a v).mem = s.mem.write a.toNat v := rfl
@[simp] theorem poke_session (a : Addr) (v : Byte) (s : State) : (s.poke a v).session = s.session := rfl
@[simp] theorem poke_pending (a : Addr) (v : Byte) (s : State) : (s.poke a v).pending = s.pending := rfl
@[simp] theorem poke_ieuAnswers (a : Addr) (v : Byte) (s : State) : (s.poke a v).ieuAnswers = s.ieuAnswers := rfl
@[simp] theorem poke_displayAnswers (a : Addr) (v : Byte) (s : State) : (s.poke a v).displayAnswers = s.displayAnswers := rfl
@[simp] theorem poke_bankAnswers (a : Addr) (v : Byte) (s : State) : (s.poke a v).bankAnswers = s.bankAnswers := rfl
@[simp] theorem poke_fresh (a : Addr) (v : Byte) (s : State) : (s.poke a v).fresh = s.fresh := rfl
@[simp] theorem poke_output (a : Addr) (v : Byte) (s : State) : (s.poke a v).output = s.output := rfl

/-! ## A change of the debugger session -/

@[simp] theorem onSession_toBlock (f : DebuggerSession → DebuggerSession) (s : State) : (s.onSession f).toBlock = s.toBlock := rfl
@[simp] theorem onSession_cfg (f : DebuggerSession → DebuggerSession) (s : State) : (s.onSession f).cfg = s.cfg := rfl
@[simp] theorem onSession_mem (f : DebuggerSession → DebuggerSession) (s : State) : (s.onSession f).mem = s.mem := rfl
@[simp] theorem onSession_session (f : DebuggerSession → DebuggerSession) (s : State) : (s.onSession f).session = f s.session := rfl
@[simp] theorem onSession_pending (f : DebuggerSession → DebuggerSession) (s : State) : (s.onSession f).pending = s.pending := rfl
@[simp] theorem onSession_ieuAnswers (f : DebuggerSession → DebuggerSession) (s : State) : (s.onSession f).ieuAnswers = s.ieuAnswers := rfl
@[simp] theorem onSession_displayAnswers (f : DebuggerSession → DebuggerSession) (s : State) : (s.onSession f).displayAnswers = s.displayAnswers := rfl
@[simp] theorem onSession_bankAnswers (f : DebuggerSession → DebuggerSession) (s : State) : (s.onSession f).bankAnswers = s.bankAnswers := rfl
@[simp] theorem onSession_fresh (f : DebuggerSession → DebuggerSession) (s : State) : (s.onSession f).fresh = s.fresh := rfl
@[simp] theorem onSession_output (f : DebuggerSession → DebuggerSession) (s : State) : (s.onSession f).output = s.output := rfl

/-! ## Snapshots (rule R8) -/

@[simp] theorem takeSnapshot_toBlock (s : State) : s.takeSnapshot.toBlock = s.toBlock := rfl
@[simp] theorem takeSnapshot_cfg (s : State) : s.takeSnapshot.cfg = s.cfg := rfl
@[simp] theorem takeSnapshot_mem (s : State) : s.takeSnapshot.mem = s.mem := rfl
@[simp] theorem takeSnapshot_session (s : State) : s.takeSnapshot.session = s.session := rfl
@[simp] theorem takeSnapshot_pending (s : State) : s.takeSnapshot.pending = s.pending := rfl
@[simp] theorem takeSnapshot_ieuAnswers (s : State) : s.takeSnapshot.ieuAnswers = s.ieuAnswers := rfl
@[simp] theorem takeSnapshot_displayAnswers (s : State) : s.takeSnapshot.displayAnswers = s.displayAnswers := rfl
@[simp] theorem takeSnapshot_bankAnswers (s : State) : s.takeSnapshot.bankAnswers = s.bankAnswers := rfl
@[simp] theorem takeSnapshot_fresh (s : State) : s.takeSnapshot.fresh = s.fresh := rfl
@[simp] theorem takeSnapshot_output (s : State) : s.takeSnapshot.output = .snapshot s.toBlock :: s.output := rfl
@[simp] theorem restoreSnapshot_toBlock (b : Block) (s : State) : (s.restoreSnapshot b).toBlock = b := rfl
@[simp] theorem restoreSnapshot_cfg (b : Block) (s : State) : (s.restoreSnapshot b).cfg = s.cfg := rfl
@[simp] theorem restoreSnapshot_mem (b : Block) (s : State) : (s.restoreSnapshot b).mem = s.mem := rfl
@[simp] theorem restoreSnapshot_session (b : Block) (s : State) : (s.restoreSnapshot b).session = s.session := rfl
@[simp] theorem restoreSnapshot_pending (b : Block) (s : State) : (s.restoreSnapshot b).pending = s.pending := rfl
@[simp] theorem restoreSnapshot_ieuAnswers (b : Block) (s : State) : (s.restoreSnapshot b).ieuAnswers = s.ieuAnswers := rfl
@[simp] theorem restoreSnapshot_displayAnswers (b : Block) (s : State) : (s.restoreSnapshot b).displayAnswers = s.displayAnswers := rfl
@[simp] theorem restoreSnapshot_bankAnswers (b : Block) (s : State) : (s.restoreSnapshot b).bankAnswers = s.bankAnswers := rfl
@[simp] theorem restoreSnapshot_fresh (b : Block) (s : State) : (s.restoreSnapshot b).fresh = s.fresh := rfl
@[simp] theorem restoreSnapshot_output (b : Block) (s : State) : (s.restoreSnapshot b).output = s.output := rfl
@[simp] theorem failRestore_toBlock (s : State) : s.failRestore.toBlock = s.toBlock := rfl
@[simp] theorem failRestore_cfg (s : State) : s.failRestore.cfg = s.cfg := rfl
@[simp] theorem failRestore_mem (s : State) : s.failRestore.mem = s.mem := rfl
@[simp] theorem failRestore_session (s : State) : s.failRestore.session = s.session := rfl
@[simp] theorem failRestore_pending (s : State) : s.failRestore.pending = s.pending := rfl
@[simp] theorem failRestore_ieuAnswers (s : State) : s.failRestore.ieuAnswers = s.ieuAnswers := rfl
@[simp] theorem failRestore_displayAnswers (s : State) : s.failRestore.displayAnswers = s.displayAnswers := rfl
@[simp] theorem failRestore_bankAnswers (s : State) : s.failRestore.bankAnswers = s.bankAnswers := rfl
@[simp] theorem failRestore_fresh (s : State) : s.failRestore.fresh = s.fresh := rfl
@[simp] theorem failRestore_output (s : State) : s.failRestore.output = .restoreError :: s.output := rfl

/-! ## A call of the host taken off the waiting calls -/

@[simp] theorem afterCall_toBlock (r : List HostCall) (s : State) : (s.afterCall r).toBlock = s.toBlock := rfl
@[simp] theorem afterCall_cfg (r : List HostCall) (s : State) : (s.afterCall r).cfg = s.cfg := rfl
@[simp] theorem afterCall_mem (r : List HostCall) (s : State) : (s.afterCall r).mem = s.mem := rfl
@[simp] theorem afterCall_session (r : List HostCall) (s : State) : (s.afterCall r).session = s.session := rfl
@[simp] theorem afterCall_pending (r : List HostCall) (s : State) : (s.afterCall r).pending = r := rfl
@[simp] theorem afterCall_ieuAnswers (r : List HostCall) (s : State) : (s.afterCall r).ieuAnswers = s.ieuAnswers := rfl
@[simp] theorem afterCall_displayAnswers (r : List HostCall) (s : State) : (s.afterCall r).displayAnswers = s.displayAnswers := rfl
@[simp] theorem afterCall_bankAnswers (r : List HostCall) (s : State) : (s.afterCall r).bankAnswers = s.bankAnswers := rfl
@[simp] theorem afterCall_fresh (r : List HostCall) (s : State) : (s.afterCall r).fresh = s.fresh := rfl
@[simp] theorem afterCall_output (r : List HostCall) (s : State) : (s.afterCall r).output = s.output := rfl

/-! ## IRQ.RAISE and IRQ.ACK -/

@[simp] theorem raise_ie (k : Source) (b : Block) : (b.raise k).ie = b.ie := rfl
@[simp] theorem raise_if_ (k : Source) (b : Block) : (b.raise k).if_ = b.if_ ||| k.mask := rfl
@[simp] theorem raise_ime (k : Source) (b : Block) : (b.raise k).ime = b.ime := rfl
@[simp] theorem raise_ime_req (k : Source) (b : Block) : (b.raise k).ime_req = b.ime_req := rfl
@[simp] theorem raise_halt (k : Source) (b : Block) : (b.raise k).halt = b.halt := rfl
@[simp] theorem raise_stop (k : Source) (b : Block) : (b.raise k).stop = b.stop := rfl
@[simp] theorem raise_div (k : Source) (b : Block) : (b.raise k).div = b.div := rfl
@[simp] theorem raise_tmr_on (k : Source) (b : Block) : (b.raise k).tmr_on = b.tmr_on := rfl
@[simp] theorem raise_tmr_sel (k : Source) (b : Block) : (b.raise k).tmr_sel = b.tmr_sel := rfl
@[simp] theorem raise_tima (k : Source) (b : Block) : (b.raise k).tima = b.tima := rfl
@[simp] theorem raise_tma (k : Source) (b : Block) : (b.raise k).tma = b.tma := rfl
@[simp] theorem raise_lag (k : Source) (b : Block) : (b.raise k).lag = b.lag := rfl
@[simp] theorem raise_sb (k : Source) (b : Block) : (b.raise k).sb = b.sb := rfl
@[simp] theorem raise_ser_start (k : Source) (b : Block) : (b.raise k).ser_start = b.ser_start := rfl
@[simp] theorem raise_ser_internal (k : Source) (b : Block) : (b.raise k).ser_internal = b.ser_internal := rfl
@[simp] theorem raise_ser_fast (k : Source) (b : Block) : (b.raise k).ser_fast = b.ser_fast := rfl
@[simp] theorem raise_ser_clk (k : Source) (b : Block) : (b.raise k).ser_clk = b.ser_clk := rfl
@[simp] theorem raise_ser_bits (k : Source) (b : Block) : (b.raise k).ser_bits = b.ser_bits := rfl
@[simp] theorem raise_dma_active (k : Source) (b : Block) : (b.raise k).dma_active = b.dma_active := rfl
@[simp] theorem raise_dma_idx (k : Source) (b : Block) : (b.raise k).dma_idx = b.dma_idx := rfl
@[simp] theorem raise_dma_src (k : Source) (b : Block) : (b.raise k).dma_src = b.dma_src := rfl
@[simp] theorem raise_btn (k : Source) (b : Block) : (b.raise k).btn = b.btn := rfl
@[simp] theorem raise_sel_dir (k : Source) (b : Block) : (b.raise k).sel_dir = b.sel_dir := rfl
@[simp] theorem raise_sel_act (k : Source) (b : Block) : (b.raise k).sel_act = b.sel_act := rfl
@[simp] theorem raise_fast (k : Source) (b : Block) : (b.raise k).fast = b.fast := rfl
@[simp] theorem raise_prepared (k : Source) (b : Block) : (b.raise k).prepared = b.prepared := rfl

@[simp] theorem ack_ie (k : Source) (b : Block) : (b.ack k).ie = b.ie := rfl
@[simp] theorem ack_if_ (k : Source) (b : Block) : (b.ack k).if_ = b.if_ &&& ~~~k.mask := rfl
@[simp] theorem ack_ime (k : Source) (b : Block) : (b.ack k).ime = false := rfl
@[simp] theorem ack_ime_req (k : Source) (b : Block) : (b.ack k).ime_req = b.ime_req := rfl
@[simp] theorem ack_halt (k : Source) (b : Block) : (b.ack k).halt = b.halt := rfl
@[simp] theorem ack_stop (k : Source) (b : Block) : (b.ack k).stop = b.stop := rfl
@[simp] theorem ack_div (k : Source) (b : Block) : (b.ack k).div = b.div := rfl
@[simp] theorem ack_tmr_on (k : Source) (b : Block) : (b.ack k).tmr_on = b.tmr_on := rfl
@[simp] theorem ack_tmr_sel (k : Source) (b : Block) : (b.ack k).tmr_sel = b.tmr_sel := rfl
@[simp] theorem ack_tima (k : Source) (b : Block) : (b.ack k).tima = b.tima := rfl
@[simp] theorem ack_tma (k : Source) (b : Block) : (b.ack k).tma = b.tma := rfl
@[simp] theorem ack_lag (k : Source) (b : Block) : (b.ack k).lag = b.lag := rfl
@[simp] theorem ack_sb (k : Source) (b : Block) : (b.ack k).sb = b.sb := rfl
@[simp] theorem ack_ser_start (k : Source) (b : Block) : (b.ack k).ser_start = b.ser_start := rfl
@[simp] theorem ack_ser_internal (k : Source) (b : Block) : (b.ack k).ser_internal = b.ser_internal := rfl
@[simp] theorem ack_ser_fast (k : Source) (b : Block) : (b.ack k).ser_fast = b.ser_fast := rfl
@[simp] theorem ack_ser_clk (k : Source) (b : Block) : (b.ack k).ser_clk = b.ser_clk := rfl
@[simp] theorem ack_ser_bits (k : Source) (b : Block) : (b.ack k).ser_bits = b.ser_bits := rfl
@[simp] theorem ack_dma_active (k : Source) (b : Block) : (b.ack k).dma_active = b.dma_active := rfl
@[simp] theorem ack_dma_idx (k : Source) (b : Block) : (b.ack k).dma_idx = b.dma_idx := rfl
@[simp] theorem ack_dma_src (k : Source) (b : Block) : (b.ack k).dma_src = b.dma_src := rfl
@[simp] theorem ack_btn (k : Source) (b : Block) : (b.ack k).btn = b.btn := rfl
@[simp] theorem ack_sel_dir (k : Source) (b : Block) : (b.ack k).sel_dir = b.sel_dir := rfl
@[simp] theorem ack_sel_act (k : Source) (b : Block) : (b.ack k).sel_act = b.sel_act := rfl
@[simp] theorem ack_fast (k : Source) (b : Block) : (b.ack k).fast = b.fast := rfl
@[simp] theorem ack_prepared (k : Source) (b : Block) : (b.ack k).prepared = b.prepared := rfl

/-! ## DMA.START -/

@[simp] theorem dmaStart_ie (a : Addr) (b : Block) : (b.dmaStart a).ie = b.ie := rfl
@[simp] theorem dmaStart_if_ (a : Addr) (b : Block) : (b.dmaStart a).if_ = b.if_ := rfl
@[simp] theorem dmaStart_ime (a : Addr) (b : Block) : (b.dmaStart a).ime = b.ime := rfl
@[simp] theorem dmaStart_ime_req (a : Addr) (b : Block) : (b.dmaStart a).ime_req = b.ime_req := rfl
@[simp] theorem dmaStart_halt (a : Addr) (b : Block) : (b.dmaStart a).halt = b.halt := rfl
@[simp] theorem dmaStart_stop (a : Addr) (b : Block) : (b.dmaStart a).stop = b.stop := rfl
@[simp] theorem dmaStart_div (a : Addr) (b : Block) : (b.dmaStart a).div = b.div := rfl
@[simp] theorem dmaStart_tmr_on (a : Addr) (b : Block) : (b.dmaStart a).tmr_on = b.tmr_on := rfl
@[simp] theorem dmaStart_tmr_sel (a : Addr) (b : Block) : (b.dmaStart a).tmr_sel = b.tmr_sel := rfl
@[simp] theorem dmaStart_tima (a : Addr) (b : Block) : (b.dmaStart a).tima = b.tima := rfl
@[simp] theorem dmaStart_tma (a : Addr) (b : Block) : (b.dmaStart a).tma = b.tma := rfl
@[simp] theorem dmaStart_lag (a : Addr) (b : Block) : (b.dmaStart a).lag = b.lag := rfl
@[simp] theorem dmaStart_sb (a : Addr) (b : Block) : (b.dmaStart a).sb = b.sb := rfl
@[simp] theorem dmaStart_ser_start (a : Addr) (b : Block) : (b.dmaStart a).ser_start = b.ser_start := rfl
@[simp] theorem dmaStart_ser_internal (a : Addr) (b : Block) : (b.dmaStart a).ser_internal = b.ser_internal := rfl
@[simp] theorem dmaStart_ser_fast (a : Addr) (b : Block) : (b.dmaStart a).ser_fast = b.ser_fast := rfl
@[simp] theorem dmaStart_ser_clk (a : Addr) (b : Block) : (b.dmaStart a).ser_clk = b.ser_clk := rfl
@[simp] theorem dmaStart_ser_bits (a : Addr) (b : Block) : (b.dmaStart a).ser_bits = b.ser_bits := rfl
@[simp] theorem dmaStart_dma_active (a : Addr) (b : Block) : (b.dmaStart a).dma_active = true := rfl
@[simp] theorem dmaStart_dma_idx (a : Addr) (b : Block) : (b.dmaStart a).dma_idx = 0#8 := rfl
@[simp] theorem dmaStart_dma_src (a : Addr) (b : Block) : (b.dmaStart a).dma_src = a := rfl
@[simp] theorem dmaStart_btn (a : Addr) (b : Block) : (b.dmaStart a).btn = b.btn := rfl
@[simp] theorem dmaStart_sel_dir (a : Addr) (b : Block) : (b.dmaStart a).sel_dir = b.sel_dir := rfl
@[simp] theorem dmaStart_sel_act (a : Addr) (b : Block) : (b.dmaStart a).sel_act = b.sel_act := rfl
@[simp] theorem dmaStart_fast (a : Addr) (b : Block) : (b.dmaStart a).fast = b.fast := rfl
@[simp] theorem dmaStart_prepared (a : Addr) (b : Block) : (b.dmaStart a).prepared = b.prepared := rfl

end Sys2Proof.Laws
end

