-- ==== Sys2Proof/Laws/AddressMap.lean ====
section
/-! SUPPORT. The address map: which register claims an address, under parameters that meet the spec's constraints. -/

namespace Sys2Proof.Laws

open Sys2Proof.Machine

/-- Every register is in the list of registers. -/
theorem mem_all (r : Reg) : r ∈ Reg.all := by cases r <;> decide

/-- The register addresses are pairwise distinct (rule R39). -/
theorem addr_inj {c : Config} (h : c.wf = true) {r q : Reg} (e : c.addr r = c.addr q) : r = q := by
  simp only [Config.wf, Bool.and_eq_true, decide_eq_true_eq] at h
  exact List.inj_on_of_nodup_map h.1.1 (mem_all r) (mem_all q) e

/-- A claimed address is the claiming register's. -/
theorem addr_of_claimed {c : Config} {a : Addr} {r : Reg} (h : c.claimed a = some r) :
    c.claims r = true ∧ c.addr r = a := by
  have := List.find?_some h
  simpa using this

/-- A register the block has claims its address (rule R39). -/
theorem claimed_addr {c : Config} (h : c.wf = true) {r : Reg} (hr : c.claims r = true) :
    c.claimed (c.addr r) = some r := by
  cases hc : c.claimed (c.addr r) with
  | none =>
    have := List.find?_eq_none.mp hc r (mem_all r)
    simp [hr] at this
  | some q => rw [addr_inj h (addr_of_claimed hc).2]

/-- A register the block has not leaves its address unclaimed (rule R99). -/
theorem unclaimed_addr {c : Config} (h : c.wf = true) {r : Reg} (hr : c.claims r = false) :
    c.claimed (c.addr r) = none := by
  cases hc : c.claimed (c.addr r) with
  | none => rfl
  | some q =>
    have hq := addr_of_claimed hc
    rw [addr_inj h hq.2] at hq
    simp [hr] at hq

/-- Every register but KEY1 is on every variant. -/
@[simp] theorem claims_ne_key1 (c : Config) {r : Reg} (h : r ≠ .key1) : c.claims r = true := by
  cases r <;> simp_all [Config.claims]

/-- The object-memory window is plain external memory (rule R41). -/
theorem oam_external {c : Config} (h : c.wf = true) {i : Byte} (hi : i.toNat < 160) :
    c.isExternal (c.oamAddr i) = true := by
  simp only [Config.wf, Bool.and_eq_true, List.all_eq_true, List.mem_range] at h
  simpa using h.2 i.toNat hi

/-- An external address is not claimed. -/
theorem unclaimed_of_external {c : Config} {a : Addr} (h : c.isExternal a = true) : c.claimed a = none := by
  simp only [Config.isExternal, Bool.and_eq_true, Option.isNone_iff_eq_none] at h
  exact h.1

/-- An external address is in no window of the Memory Bank Controller. -/
theorem unbanked_of_external {c : Config} {a : Addr} (h : c.isExternal a = true) : bankedWindow a = false := by
  simp only [Config.isExternal, Bool.and_eq_true, Bool.not_eq_true'] at h
  exact h.2

/-- The default parameters meet the spec's constraints. -/
theorem default_wf : Config.default.wf = true := by decide

end Sys2Proof.Laws
end

