-- ==== Sys2Proof/Laws/Memory.lean ====
section
/-! SUPPORT. The laws of memory: what a read answers after a write, and that a write keeps the canonical form. -/

namespace Sys2Proof.Laws

open Sys2Proof.Machine

/-- The byte written is the byte read back. -/
theorem lookup_write_same (m : Memory) (a : Nat) (v : Byte) : (m.write a v).lookup a = some v := by
  induction m with
  | nil => simp [Memory.write, Memory.lookup]
  | cons c m ih =>
    unfold Memory.write
    split
    · simp [Memory.lookup]
    · split
      · simp [Memory.lookup]
      · rename_i h1 h2
        have : c.1 ≠ a := fun h => h2 h.symm
        simp [Memory.lookup, this, ih]

/-- Every other byte is read as before. -/
theorem lookup_write_other (m : Memory) (a b : Nat) (v : Byte) (h : b ≠ a) :
    (m.write a v).lookup b = m.lookup b := by
  have h' : a ≠ b := fun e => h e.symm
  induction m with
  | nil => simp [Memory.write, Memory.lookup, h']
  | cons c m ih =>
    unfold Memory.write
    split
    · simp [Memory.lookup, h']
    · split
      · rename_i h1 h2
        have : c.1 ≠ b := fun e => h (by rw [← e, ← h2])
        simp [Memory.lookup, h', this]
      · simp only [Memory.lookup, ih]

/-- A cell of the memory after a write is the written one or was there before. -/
theorem mem_of_mem_write (m : Memory) (a : Nat) (v : Byte) (c : Host.Cell) (h : c ∈ m.write a v) :
    c = (a, v) ∨ c ∈ m := by
  induction m with
  | nil => simpa [Memory.write] using h
  | cons x m ih =>
    unfold Memory.write at h
    split at h
    · simpa [or_assoc] using h
    · split at h
      · rcases List.mem_cons.mp h with h | h
        · exact .inl h
        · exact .inr (List.mem_cons_of_mem _ h)
      · rcases List.mem_cons.mp h with h | h
        · exact .inr (by simp [h])
        · rcases ih h with h | h
          · exact .inl h
          · exact .inr (List.mem_cons_of_mem _ h)

/-- Addresses stay strictly rising. -/
theorem pairwise_write (m : Memory) (a : Nat) (v : Byte) (h : m.Pairwise fun x y => x.1 < y.1) :
    (m.write a v).Pairwise fun x y => x.1 < y.1 := by
  induction m with
  | nil => simp [Memory.write]
  | cons c m ih =>
    obtain ⟨hc, hm⟩ := List.pairwise_cons.mp h
    unfold Memory.write
    split
    · rename_i h1
      refine List.pairwise_cons.mpr ⟨fun y hy => ?_, h⟩
      rcases List.mem_cons.mp hy with rfl | hy
      · exact h1
      · exact Nat.lt_trans h1 (hc y hy)
    · split
      · rename_i h2
        exact List.pairwise_cons.mpr ⟨fun y hy => by simpa [h2] using hc y hy, hm⟩
      · rename_i h1 h2
        refine List.pairwise_cons.mpr ⟨fun y hy => ?_, ih hm⟩
        rcases mem_of_mem_write m a v y hy with rfl | hy
        · show c.1 < a
          omega
        · exact hc y hy

/-- A write inside the address space keeps the canonical form. -/
theorem write_wf (m : Memory) (a : Nat) (v : Byte) (ha : a < 65536) (h : m.wf = true) : (m.write a v).wf = true := by
  simp only [Memory.wf, Bool.and_eq_true, decide_eq_true_eq, List.all_eq_true] at h ⊢
  refine ⟨pairwise_write m a v h.1, fun c hc => ?_⟩
  rcases mem_of_mem_write m a v c hc with rfl | hc
  · exact ha
  · exact h.2 c hc

/-- The memory after reset is in canonical form. -/
theorem reset_mem_wf : State.reset.mem.wf = true := by decide

/-- Storing a byte keeps the canonical form. -/
theorem poke_wf (s : State) (a : Addr) (v : Byte) (h : s.mem.wf = true) : (s.poke a v).mem.wf = true :=
  write_wf _ _ _ a.isLt h

/-- The byte stored is the byte read. -/
@[simp] theorem peek_poke_same (s : State) (a : Addr) (v : Byte) : (s.poke a v).peek a = v := by
  simp [State.peek, lookup_write_same]

/-- Storing a byte leaves every other byte. -/
theorem peek_poke_other (s : State) (a b : Addr) (v : Byte) (h : b ≠ a) : (s.poke a v).peek b = s.peek b := by
  have : b.toNat ≠ a.toNat := fun e => h (BitVec.eq_of_toNat_eq e)
  simp [State.peek, lookup_write_other _ _ _ _ this]

/-- A byte read depends on the memory only. -/
theorem peek_congr {s t : State} (h : s.mem = t.mem) (a : Addr) : s.peek a = t.peek a := by
  simp [State.peek, h]

@[simp] theorem peek_onBlock (f : Block → Block) (s : State) (a : Addr) : (s.onBlock f).peek a = s.peek a := rfl
@[simp] theorem peek_emit (e : Event) (s : State) (a : Addr) : (s.emit e).peek a = s.peek a := rfl
@[simp] theorem peek_onSession (f : DebuggerSession → DebuggerSession) (s : State) (a : Addr) :
    (s.onSession f).peek a = s.peek a := rfl

end Sys2Proof.Laws
end

