-- ==== Sys2Proof/Laws/Bus.lean ====
section
/-! SUPPORT. The bus: what a read and a write can do, and what they leave alone. -/

namespace Sys2Proof.Laws

open Sys2Proof.Machine

/-! ## Fields no access touches -/

@[simp] theorem bankAnswer_toBlock (s : State) : (s.bankAnswer.2).toBlock = s.toBlock := by
  unfold State.bankAnswer; split <;> rfl
@[simp] theorem bankAnswer_cfg (s : State) : (s.bankAnswer.2).cfg = s.cfg := by
  unfold State.bankAnswer; split <;> rfl
@[simp] theorem bankAnswer_mem (s : State) : (s.bankAnswer.2).mem = s.mem := by
  unfold State.bankAnswer; split <;> rfl
@[simp] theorem bankAnswer_session (s : State) : (s.bankAnswer.2).session = s.session := by
  unfold State.bankAnswer; split <;> rfl
@[simp] theorem bankAnswer_pending (s : State) : (s.bankAnswer.2).pending = s.pending := by
  unfold State.bankAnswer; split <;> rfl
@[simp] theorem bankAnswer_ieuAnswers (s : State) : (s.bankAnswer.2).ieuAnswers = s.ieuAnswers := by
  unfold State.bankAnswer; split <;> rfl
@[simp] theorem bankAnswer_displayAnswers (s : State) : (s.bankAnswer.2).displayAnswers = s.displayAnswers := by
  unfold State.bankAnswer; split <;> rfl

@[simp] theorem bankAnswer_output (s : State) : s.bankAnswer.2.output = s.output := by
  unfold State.bankAnswer; split <;> rfl

@[simp] theorem externalRead_toBlock (a : Addr) (s : State) : ((s.externalRead a).2).toBlock = s.toBlock := by
  unfold State.externalRead; split <;> simp
@[simp] theorem externalRead_cfg (a : Addr) (s : State) : ((s.externalRead a).2).cfg = s.cfg := by
  unfold State.externalRead; split <;> simp
@[simp] theorem externalRead_mem (a : Addr) (s : State) : ((s.externalRead a).2).mem = s.mem := by
  unfold State.externalRead; split <;> simp
@[simp] theorem externalRead_session (a : Addr) (s : State) : ((s.externalRead a).2).session = s.session := by
  unfold State.externalRead; split <;> simp
@[simp] theorem externalRead_pending (a : Addr) (s : State) : ((s.externalRead a).2).pending = s.pending := by
  unfold State.externalRead; split <;> simp
@[simp] theorem externalRead_ieuAnswers (a : Addr) (s : State) : ((s.externalRead a).2).ieuAnswers = s.ieuAnswers := by
  unfold State.externalRead; split <;> simp
@[simp] theorem externalRead_displayAnswers (a : Addr) (s : State) : ((s.externalRead a).2).displayAnswers = s.displayAnswers := by
  unfold State.externalRead; split <;> simp

@[simp] theorem busRead_toBlock (a : Addr) (s : State) : ((s.busRead a).2).toBlock = s.toBlock := by
  unfold State.busRead; split <;> simp
@[simp] theorem busRead_cfg (a : Addr) (s : State) : ((s.busRead a).2).cfg = s.cfg := by
  unfold State.busRead; split <;> simp
@[simp] theorem busRead_mem (a : Addr) (s : State) : ((s.busRead a).2).mem = s.mem := by
  unfold State.busRead; split <;> simp
@[simp] theorem busRead_session (a : Addr) (s : State) : ((s.busRead a).2).session = s.session := by
  unfold State.busRead; split <;> simp
@[simp] theorem busRead_pending (a : Addr) (s : State) : ((s.busRead a).2).pending = s.pending := by
  unfold State.busRead; split <;> simp
@[simp] theorem busRead_ieuAnswers (a : Addr) (s : State) : ((s.busRead a).2).ieuAnswers = s.ieuAnswers := by
  unfold State.busRead; split <;> simp
@[simp] theorem busRead_displayAnswers (a : Addr) (s : State) : ((s.busRead a).2).displayAnswers = s.displayAnswers := by
  unfold State.busRead; split <;> simp

@[simp] theorem readOp_toBlock (a : Addr) (s : State) : (s.readOp a).toBlock = s.toBlock := by
  simp [State.readOp]
@[simp] theorem readOp_cfg (a : Addr) (s : State) : (s.readOp a).cfg = s.cfg := by
  simp [State.readOp]
@[simp] theorem readOp_mem (a : Addr) (s : State) : (s.readOp a).mem = s.mem := by
  simp [State.readOp]
@[simp] theorem readOp_session (a : Addr) (s : State) : (s.readOp a).session = s.session := by
  simp [State.readOp]
@[simp] theorem readOp_pending (a : Addr) (s : State) : (s.readOp a).pending = s.pending := by
  simp [State.readOp]
@[simp] theorem readOp_ieuAnswers (a : Addr) (s : State) : (s.readOp a).ieuAnswers = s.ieuAnswers := by
  simp [State.readOp]
@[simp] theorem readOp_displayAnswers (a : Addr) (s : State) : (s.readOp a).displayAnswers = s.displayAnswers := by
  simp [State.readOp]

@[simp] theorem readReg_toBlock (r : Reg) (s : State) : (s.readReg r).toBlock = s.toBlock := by
  unfold State.readReg; split <;> simp
@[simp] theorem readReg_cfg (r : Reg) (s : State) : (s.readReg r).cfg = s.cfg := by
  unfold State.readReg; split <;> simp
@[simp] theorem readReg_mem (r : Reg) (s : State) : (s.readReg r).mem = s.mem := by
  unfold State.readReg; split <;> simp
@[simp] theorem readReg_session (r : Reg) (s : State) : (s.readReg r).session = s.session := by
  unfold State.readReg; split <;> simp
@[simp] theorem readReg_pending (r : Reg) (s : State) : (s.readReg r).pending = s.pending := by
  unfold State.readReg; split <;> simp
@[simp] theorem readReg_ieuAnswers (r : Reg) (s : State) : (s.readReg r).ieuAnswers = s.ieuAnswers := by
  unfold State.readReg; split <;> simp
@[simp] theorem readReg_displayAnswers (r : Reg) (s : State) : (s.readReg r).displayAnswers = s.displayAnswers := by
  unfold State.readReg; split <;> simp

@[simp] theorem externalWrite_toBlock (a : Addr) (v : Byte) (s : State) : (s.externalWrite a v).toBlock = s.toBlock := by
  unfold State.externalWrite; split <;> simp
@[simp] theorem externalWrite_cfg (a : Addr) (v : Byte) (s : State) : (s.externalWrite a v).cfg = s.cfg := by
  unfold State.externalWrite; split <;> simp
@[simp] theorem externalWrite_session (a : Addr) (v : Byte) (s : State) : (s.externalWrite a v).session = s.session := by
  unfold State.externalWrite; split <;> simp
@[simp] theorem externalWrite_pending (a : Addr) (v : Byte) (s : State) : (s.externalWrite a v).pending = s.pending := by
  unfold State.externalWrite; split <;> simp
@[simp] theorem externalWrite_ieuAnswers (a : Addr) (v : Byte) (s : State) : (s.externalWrite a v).ieuAnswers = s.ieuAnswers := by
  unfold State.externalWrite; split <;> simp
@[simp] theorem externalWrite_displayAnswers (a : Addr) (v : Byte) (s : State) : (s.externalWrite a v).displayAnswers = s.displayAnswers := by
  unfold State.externalWrite; split <;> simp

@[simp] theorem busWrite_cfg (a : Addr) (v : Byte) (s : State) : (s.busWrite a v).cfg = s.cfg := by
  unfold State.busWrite; split <;> simp
@[simp] theorem busWrite_session (a : Addr) (v : Byte) (s : State) : (s.busWrite a v).session = s.session := by
  unfold State.busWrite; split <;> simp
@[simp] theorem busWrite_pending (a : Addr) (v : Byte) (s : State) : (s.busWrite a v).pending = s.pending := by
  unfold State.busWrite; split <;> simp
@[simp] theorem busWrite_ieuAnswers (a : Addr) (v : Byte) (s : State) : (s.busWrite a v).ieuAnswers = s.ieuAnswers := by
  unfold State.busWrite; split <;> simp
@[simp] theorem busWrite_displayAnswers (a : Addr) (v : Byte) (s : State) : (s.busWrite a v).displayAnswers = s.displayAnswers := by
  unfold State.busWrite; split <;> simp

@[simp] theorem writeReg_cfg (r : Reg) (v : Byte) (s : State) : (s.writeReg r v).cfg = s.cfg := by
  unfold State.writeReg; split <;> simp
@[simp] theorem writeReg_session (r : Reg) (v : Byte) (s : State) : (s.writeReg r v).session = s.session := by
  unfold State.writeReg; split <;> simp
@[simp] theorem writeReg_pending (r : Reg) (v : Byte) (s : State) : (s.writeReg r v).pending = s.pending := by
  unfold State.writeReg; split <;> simp
@[simp] theorem writeReg_ieuAnswers (r : Reg) (v : Byte) (s : State) : (s.writeReg r v).ieuAnswers = s.ieuAnswers := by
  unfold State.writeReg; split <;> simp
@[simp] theorem writeReg_displayAnswers (r : Reg) (v : Byte) (s : State) : (s.writeReg r v).displayAnswers = s.displayAnswers := by
  unfold State.writeReg; split <;> simp

/-! ## What an access can do -/

/-- An access to an external address goes to memory (rule R38). -/
theorem busWrite_external {s : State} {a : Addr} (h : s.cfg.isExternal a = true) (v : Byte) :
    s.busWrite a v = s.poke a v := by
  simp [State.busWrite, unclaimed_of_external h, State.externalWrite, unbanked_of_external h]

/-- A read of an external address answers the memory's byte and changes nothing (rule R37). -/
theorem busRead_external {s : State} {a : Addr} (h : s.cfg.isExternal a = true) : s.busRead a = (s.peek a, s) := by
  simp [State.busRead, unclaimed_of_external h, State.externalRead, unbanked_of_external h]

/-- A write to a claimed address is the register's (rule R38). -/
theorem busWrite_claimed {s : State} {a : Addr} {r : Reg} (h : s.cfg.claimed a = some r) (v : Byte) :
    s.busWrite a v = s.onBlock fun b => b.regWrite v r := by
  simp [State.busWrite, h]

/-- A read of a claimed address is the register's and changes nothing (rules R37, R42). -/
theorem busRead_claimed {s : State} {a : Addr} {r : Reg} (h : s.cfg.claimed a = some r) :
    s.busRead a = (s.toBlock.regRead r, s) := by
  simp [State.busRead, h]

/-- Everything a write can be: a register's, the Memory Bank Controller's, or a byte stored (rules R38, R39, R41). -/
theorem busWrite_cases (a : Addr) (v : Byte) (s : State) :
    (∃ r, s.cfg.claimed a = some r ∧ s.busWrite a v = s.onBlock fun b => b.regWrite v r) ∨
    (s.cfg.claimed a = none ∧ bankedWindow a = true ∧ s.busWrite a v = s.emit (.bankWrite a v)) ∨
    (s.cfg.isExternal a = true ∧ s.busWrite a v = s.poke a v) := by
  cases hc : s.cfg.claimed a with
  | some r => exact .inl ⟨r, rfl, busWrite_claimed hc v⟩
  | none =>
    cases hb : bankedWindow a with
    | true => exact .inr (.inl ⟨rfl, rfl, by simp [State.busWrite, hc, State.externalWrite, hb]⟩)
    | false =>
      have hx : s.cfg.isExternal a = true := by simp [Config.isExternal, hc, hb]
      exact .inr (.inr ⟨hx, busWrite_external hx v⟩)

/-- Everything a read can be. -/
theorem busRead_cases (a : Addr) (s : State) :
    (∃ r, s.cfg.claimed a = some r ∧ s.busRead a = (s.toBlock.regRead r, s)) ∨
    (s.cfg.claimed a = none ∧ bankedWindow a = true ∧
      s.busRead a = (s.bankAnswer.1, s.bankAnswer.2.emit (.bankRead a s.bankAnswer.1))) ∨
    (s.cfg.isExternal a = true ∧ s.busRead a = (s.peek a, s)) := by
  cases hc : s.cfg.claimed a with
  | some r => exact .inl ⟨r, rfl, busRead_claimed hc⟩
  | none =>
    cases hb : bankedWindow a with
    | true => exact .inr (.inl ⟨rfl, rfl, by simp [State.busRead, hc, State.externalRead, hb]⟩)
    | false =>
      have hx : s.cfg.isExternal a = true := by simp [Config.isExternal, hc, hb]
      exact .inr (.inr ⟨hx, busRead_external hx⟩)

/-- The named access to a register the block has (rule R50). -/
theorem readReg_claimed {s : State} {r : Reg} (h : s.cfg.claims r = true) :
    s.readReg r = s.emit (.readResult (s.cfg.addr r) (s.toBlock.regRead r)) := by
  simp [State.readReg, h]

/-- The named write to a register the block has (rule R50). -/
theorem writeReg_claimed {s : State} {r : Reg} (h : s.cfg.claims r = true) (v : Byte) :
    s.writeReg r v = s.onBlock fun b => b.regWrite v r := by
  simp [State.writeReg, h]

/-! ## Memory stays canonical and external -/

/-- Storing a byte at an external address keeps the memory external. -/
theorem poke_memExternal (s : State) (a : Addr) (v : Byte) (ha : s.cfg.isExternal a = true)
    (h : s.memExternal = true) : (s.poke a v).memExternal = true := by
  simp only [State.memExternal, List.all_eq_true, poke_mem, poke_cfg] at h ⊢
  intro c hc
  rcases mem_of_mem_write _ _ _ c hc with rfl | hc
  · simpa using ha
  · exact h c hc


/-- A bus write keeps the memory canonical. -/
theorem busWrite_mem_wf (s : State) (a : Addr) (v : Byte) (h : s.mem.wf = true) : (s.busWrite a v).mem.wf = true := by
  rcases busWrite_cases a v s with ⟨r, -, e⟩ | ⟨-, -, e⟩ | ⟨-, e⟩
  · simpa [e] using h
  · simpa [e] using h
  · rw [e]; exact poke_wf s a v h

/-- A bus write keeps the memory external. -/
theorem busWrite_memExternal (s : State) (a : Addr) (v : Byte) (h : s.memExternal = true) :
    (s.busWrite a v).memExternal = true := by
  rcases busWrite_cases a v s with ⟨r, -, e⟩ | ⟨-, -, e⟩ | ⟨hx, e⟩
  · simpa [e, State.memExternal] using h
  · simpa [e, State.memExternal] using h
  · rw [e]; exact poke_memExternal s a v hx h

/-- A byte outside the written address is read as before. -/
theorem peek_busWrite_other (s : State) (a b : Addr) (v : Byte) (h : b ≠ a) : (s.busWrite a v).peek b = s.peek b := by
  rcases busWrite_cases a v s with ⟨r, -, e⟩ | ⟨-, -, e⟩ | ⟨-, e⟩
  · exact peek_congr (by simp [e]) b
  · exact peek_congr (by simp [e]) b
  · rw [e]; exact peek_poke_other s a b v h

end Sys2Proof.Laws
end

