-- ==== Sys2Proof/Laws/Decode.lean ====
section
/-! SUPPORT. The fields of a command word, and its stored form (spec/30_encoding.md rule R47). -/

namespace Sys2Proof.Laws

open Sys2Proof.Machine

@[simp] theorem opField_packWord (op : Byte) (a : Addr) (d : Byte) : opField (packWord op a d) = op := by
  unfold opField packWord
  ext i hi
  have h1 : ¬ (24 + i - 8 < 16) := by omega
  have h2 : ¬ (24 + i < 8) := by omega
  simp [show 24 + i < 32 by omega, BitVec.getLsbD_of_ge a (24 + i - 8) (by omega),
    BitVec.getLsbD_of_ge d (24 + i) (by omega), BitVec.getLsbD_eq_getElem hi]

@[simp] theorem aField_packWord (op : Byte) (a : Addr) (d : Byte) : aField (packWord op a d) = a := by
  unfold aField packWord
  ext i hi
  simp [show 8 + i < 24 by omega, show 8 + i < 32 by omega, BitVec.getLsbD_eq_getElem hi]

@[simp] theorem dField_packWord (op : Byte) (a : Addr) (d : Byte) : dField (packWord op a d) = d := by
  unfold dField packWord
  ext i hi
  simp [show i < 24 by omega, show i < 32 by omega, hi]

/-- A word is its three fields. -/
theorem packWord_fields (w : Word) : packWord (opField w) (aField w) (dField w) = w := by
  unfold opField aField dField packWord
  ext i hi
  by_cases h1 : i < 8
  · simp [h1, hi, show i < 24 by omega]
  · by_cases h2 : i < 24
    · simp [h1, h2, hi, show i - 8 < 16 by omega, show 8 + (i - 8) = i by omega]
    · simp [h1, h2, hi, show ¬ (i - 8 < 16) by omega, show i - 24 < 8 by omega, show 24 + (i - 24) = i by omega]

/-- The word of three fields is given by its fields. -/
theorem eq_packWord {w : Word} {op : Byte} {a : Addr} {d : Byte} (h1 : opField w = op) (h2 : aField w = a)
    (h3 : dField w = d) : w = packWord op a d := by
  rw [← h1, ← h2, ← h3, packWord_fields]

/-- Masking a word masks its fields. -/
theorem packWord_and (op mo : Byte) (a ma : Addr) (d md : Byte) :
    packWord op a d &&& packWord mo ma md = packWord (op &&& mo) (a &&& ma) (d &&& md) := by
  refine eq_packWord ?_ ?_ ?_
  · rw [opField, BitVec.extractLsb'_and]
    exact congrArg₂ _ (opField_packWord op a d) (opField_packWord mo ma md)
  · rw [aField, BitVec.extractLsb'_and]
    exact congrArg₂ _ (aField_packWord op a d) (aField_packWord mo ma md)
  · rw [dField, BitVec.extractLsb'_and]
    exact congrArg₂ _ (dField_packWord op a d) (dField_packWord mo ma md)

/-- An operand field is its two bytes. -/
theorem addr_of_halves (a : Addr) :
    (a.extractLsb' 8 8).setWidth 16 <<< 8 ||| (a.extractLsb' 0 8).setWidth 16 = a := by
  ext i hi
  by_cases h1 : i < 8
  · simp [h1, hi]
  · simp [h1, hi, show i - 8 < 8 by omega, show 8 + (i - 8) = i by omega]

/-- The stored bytes of a word are its word. -/
theorem wordOfBytes_bytesOfWord (w : Word) :
    wordOfBytes (opField w) ((aField w).extractLsb' 8 8) ((aField w).extractLsb' 0 8) (dField w) = w := by
  rw [wordOfBytes, addr_of_halves, packWord_fields]

/-- An index read back is the source. -/
@[simp] theorem sourceOf_index (k : Source) : sourceOf k.index = some k := by cases k <;> rfl

/-- Only an index names a source. -/
theorem index_of_sourceOf {n : Nat} {k : Source} (h : sourceOf n = some k) : k.index = n := by
  unfold sourceOf at h
  split at h <;> simp_all [Source.index] <;> subst h <;> rfl

/-- The named read of a claimed address spells as the generic one (rule R50). -/
theorem encode_readInstr (c : Config) (r : Reg) : encode c (readInstr r) = packWord 0x01#8 (c.addr r) 0#8 := by
  cases r <;> rfl

/-- The named write to a claimed address spells as the generic one (rule R50). -/
theorem encode_writeInstr (c : Config) (r : Reg) (d : Byte) :
    encode c (writeInstr d r) = packWord 0x02#8 (c.addr r) d := by
  cases r <;> rfl

/-- A named access is well formed exactly when the block has the register (rule R50). -/
theorem readInstr_wf (c : Config) (r : Reg) : (readInstr r).wf c = c.claims r := by cases r <;> rfl

/-- A named access is well formed exactly when the block has the register (rule R50). -/
theorem writeInstr_wf (c : Config) (r : Reg) (d : Byte) : (writeInstr d r).wf c = c.claims r := by cases r <;> rfl

end Sys2Proof.Laws
end

