-- ==== Sys2Proof/Laws/Runs.lean ====
section
/-! SUPPORT. Sequences of operations (spec/20_memory.md rule R43, spec/41_timer.md rule R73). -/

namespace Sys2Proof.Laws

open Sys2Proof.Machine

/-- No operation at all. -/
@[simp] theorem execTimes_zero (i : Instr) (s : State) : execTimes 0 i s = .next s := rfl

/-- One operation, then the rest. -/
theorem execAll_cons {i : Instr} {s t : State} (h : exec i s = .next t) (is : List Instr) :
    execAll (i :: is) s = execAll is t := by
  simp [execAll, h]

/-- One of n + 1 operations, then the other n. -/
theorem execTimes_succ {i : Instr} {s t : State} (h : exec i s = .next t) (n : Nat) :
    execTimes (n + 1) i s = execTimes n i t := by
  rw [execTimes, List.replicate_succ, execAll_cons h]; rfl

/-- One operation once. -/
theorem execTimes_one {i : Instr} {s t : State} (h : exec i s = .next t) : execTimes 1 i s = .next t := by
  rw [execTimes_succ h, execTimes_zero]

/-- A sequence, then another. -/
theorem execAll_append {xs : List Instr} {s t : State} (h : execAll xs s = .next t) (ys : List Instr) :
    execAll (xs ++ ys) s = execAll ys t := by
  induction xs generalizing s with
  | nil => simp only [execAll, Host.Outcome.next.injEq] at h; simp [h]
  | cons i is ih =>
    simp only [execAll, List.cons_append] at h ⊢
    cases hi : exec i s with
    | next u => rw [hi] at h; exact ih h
    | fault r => rw [hi] at h; cases h
    | refused r => rw [hi] at h; cases h

/-- n operations, then m more. -/
theorem execTimes_add {n : Nat} {i : Instr} {s t : State} (h : execTimes n i s = .next t) (m : Nat) :
    execTimes (n + m) i s = execTimes m i t := by
  rw [execTimes, List.replicate_add, execAll_append h]; rfl

/-- What the Instruction Execution Unit performs is the operation it names (rules R5, R46). -/
theorem exec_operation (o : IeuOp) (s : State) : exec o.operation s = .next (s.ieuOp o) := by
  cases o <;> rfl

end Sys2Proof.Laws
end

