-- ==== Sys2Proof/Laws/Timer.lean ====
section
/-! SUPPORT. The boundary tests of the timer and the serial port as divisibility (spec/41_timer.md rules R70, R71,
spec/42_serial.md rule R82). -/

namespace Sys2Proof.Laws

open Sys2Proof.Machine

/-- Masking with a power of two less one is the remainder. -/
theorem mask_eq_zero_iff {w : Nat} (x : BitVec w) (k : Nat) (hk : k ≤ w) :
    (x &&& BitVec.ofNat w (2 ^ k - 1) == 0#w) = decide (x.toNat % 2 ^ k = 0) := by
  have hle : 2 ^ k ≤ 2 ^ w := Nat.pow_le_pow_right (by decide) hk
  have hpos : 0 < 2 ^ k := Nat.two_pow_pos k
  have e : (x &&& BitVec.ofNat w (2 ^ k - 1)).toNat = x.toNat % 2 ^ k := by
    rw [BitVec.toNat_and, BitVec.toNat_ofNat, Nat.mod_eq_of_lt (by omega), Nat.and_two_pow_sub_one_eq_mod]
  rw [Bool.eq_iff_iff, beq_iff_eq, decide_eq_true_eq, ← e]
  exact ⟨fun h => by simp [h], fun h => BitVec.eq_of_toNat_eq (by simpa using h)⟩

/-- Every selector is one of four. -/
theorem selector_cases (sel : BitVec 2) : sel = 0#2 ∨ sel = 1#2 ∨ sel = 2#2 ∨ sel = 3#2 := by
  revert sel; decide

/-- The timer's boundary test is divisibility of the divider by the period (rules R70, R71). -/
theorem timerBoundary_eq (sel : BitVec 2) (d : BitVec 16) :
    timerBoundary sel d = decide (d.toNat % period sel = 0) := by
  rcases selector_cases sel with rfl | rfl | rfl | rfl
  · exact mask_eq_zero_iff d 10 (by decide)
  · exact mask_eq_zero_iff d 4 (by decide)
  · exact mask_eq_zero_iff d 6 (by decide)
  · exact mask_eq_zero_iff d 8 (by decide)

/-- The serial fast period is a power of two dividing 512 (decision D13). -/
theorem fastPeriod_pow {c : Config} (h : c.wf = true) : ∃ k, k ≤ 9 ∧ c.serialFastPeriod = 2 ^ k := by
  simp only [Config.wf, Bool.and_eq_true, List.contains_iff_mem, List.mem_cons, List.not_mem_nil, or_false] at h
  rcases h.1.2 with e | e | e | e | e | e | e | e | e | e
  · exact ⟨0, by omega, e⟩
  · exact ⟨1, by omega, e⟩
  · exact ⟨2, by omega, e⟩
  · exact ⟨3, by omega, e⟩
  · exact ⟨4, by omega, e⟩
  · exact ⟨5, by omega, e⟩
  · exact ⟨6, by omega, e⟩
  · exact ⟨7, by omega, e⟩
  · exact ⟨8, by omega, e⟩
  · exact ⟨9, by omega, e⟩

/-- The serial port's boundary test is divisibility of the clock counter by the period (rule R82). -/
theorem serialBoundary_eq {c : Config} (h : c.wf = true) (fast : Bool) (clk : BitVec 9) :
    serialBoundary c fast clk = decide (clk.toNat % serialPeriod c fast = 0) := by
  cases fast with
  | false => exact mask_eq_zero_iff clk 9 (by decide)
  | true =>
    obtain ⟨k, hk, e⟩ := fastPeriod_pow h
    simp only [serialBoundary, serialPeriod, if_true, e]
    exact mask_eq_zero_iff clk k hk

end Sys2Proof.Laws
end

