-- ==== Sys2Proof/Laws/Sequencer.lean ====
section
/-! SUPPORT. What the peripherals' advances and the cycle orchestrator can do, and what they leave alone
(spec/41_timer.md rule R71, spec/42_serial.md rule R82, spec/43_dma.md rule R89, spec/46_step.md rule R108). -/

namespace Sys2Proof.Laws

open Sys2Proof.Machine

/-! ## The frame of an advance -/

/-- What no advance of a peripheral touches in the block, and that it clears no pending flag. -/
structure BlockFrame (b c : Block) : Prop where
  ie : c.ie = b.ie
  ime : c.ime = b.ime
  ime_req : c.ime_req = b.ime_req
  halt : c.halt = b.halt
  stop : c.stop = b.stop
  tmr_on : c.tmr_on = b.tmr_on
  tmr_sel : c.tmr_sel = b.tmr_sel
  tma : c.tma = b.tma
  ser_internal : c.ser_internal = b.ser_internal
  ser_fast : c.ser_fast = b.ser_fast
  dma_src : c.dma_src = b.dma_src
  btn : c.btn = b.btn
  sel_dir : c.sel_dir = b.sel_dir
  sel_act : c.sel_act = b.sel_act
  fast : c.fast = b.fast
  prepared : c.prepared = b.prepared
  flags : ∀ i, b.if_.getLsbD i = true → c.if_.getLsbD i = true

theorem BlockFrame.refl (b : Block) : BlockFrame b b :=
  ⟨rfl, rfl, rfl, rfl, rfl, rfl, rfl, rfl, rfl, rfl, rfl, rfl, rfl, rfl, rfl, rfl, fun _ h => h⟩

theorem BlockFrame.trans {a b c : Block} (h : BlockFrame a b) (g : BlockFrame b c) : BlockFrame a c :=
  ⟨g.ie.trans h.ie, g.ime.trans h.ime, g.ime_req.trans h.ime_req, g.halt.trans h.halt, g.stop.trans h.stop,
    g.tmr_on.trans h.tmr_on, g.tmr_sel.trans h.tmr_sel, g.tma.trans h.tma, g.ser_internal.trans h.ser_internal,
    g.ser_fast.trans h.ser_fast, g.dma_src.trans h.dma_src, g.btn.trans h.btn, g.sel_dir.trans h.sel_dir,
    g.sel_act.trans h.sel_act, g.fast.trans h.fast, g.prepared.trans h.prepared, fun i x => g.flags i (h.flags i x)⟩

/-- Raising a flag clears none. -/
theorem raise_frame (k : Source) (b : Block) : BlockFrame b (b.raise k) :=
  ⟨rfl, rfl, rfl, rfl, rfl, rfl, rfl, rfl, rfl, rfl, rfl, rfl, rfl, rfl, rfl, rfl, fun i h => by simp [h]⟩

/-- Raising a flag on a condition clears none. -/
theorem raiseIf_frame (cond : Bool) (k : Source) (b : Block) : BlockFrame b (b.raiseIf cond k) := by
  cases cond
  · exact .refl b
  · exact raise_frame k b

/-- The frame of one cycle of the timer (rule R71). -/
theorem timerAdvance_frame (b : Block) : BlockFrame b b.timerAdvance := by
  have h1 : BlockFrame b b.timerDivider := by constructor <;> first | rfl | exact fun _ h => h
  have h2 (b : Block) : BlockFrame b b.timerLag := by
    unfold Block.timerLag
    split
    · exact .refl b
    · split
      · refine .trans ?_ (raise_frame _ _)
        constructor <;> first | rfl | exact fun _ h => h
      · constructor <;> first | rfl | exact fun _ h => h
  have h3 (b : Block) : BlockFrame b b.timerCount := by
    unfold Block.timerCount
    split
    · split <;> constructor <;> first | rfl | exact fun _ h => h
    · exact .refl b
  unfold Block.timerAdvance
  split
  · exact (h1.trans (h2 _)).trans (h3 _)
  · exact h1

/-- The frame of one cycle of the serial port (rules R82, R83). -/
theorem serialAdvance_frame (c : Config) (b : Block) : BlockFrame b (b.serialAdvance c) := by
  have h1 (b : Block) : BlockFrame b (b.serialShift c) := by
    unfold Block.serialShift
    split
    · refine .trans ?_ (raise_frame _ _)
      constructor <;> first | rfl | exact fun _ h => h
    · constructor <;> first | rfl | exact fun _ h => h
  unfold Block.serialAdvance
  split
  · constructor <;> first | rfl | exact fun _ h => h
  · split
    · exact .refl b
    · split
      · refine .trans ?_ (h1 _)
        constructor <;> first | rfl | exact fun _ h => h
      · constructor <;> first | rfl | exact fun _ h => h

@[simp] theorem timerLag_div (b : Block) : b.timerLag.div = b.div := by
  unfold Block.timerLag; split <;> (try split) <;> rfl
@[simp] theorem timerCount_div (b : Block) : b.timerCount.div = b.div := by
  unfold Block.timerCount; split <;> (try split) <;> rfl
@[simp] theorem timerLag_dma_active (b : Block) : b.timerLag.dma_active = b.dma_active := by
  unfold Block.timerLag; split <;> (try split) <;> rfl
@[simp] theorem timerCount_dma_active (b : Block) : b.timerCount.dma_active = b.dma_active := by
  unfold Block.timerCount; split <;> (try split) <;> rfl
@[simp] theorem timerLag_dma_idx (b : Block) : b.timerLag.dma_idx = b.dma_idx := by
  unfold Block.timerLag; split <;> (try split) <;> rfl
@[simp] theorem timerCount_dma_idx (b : Block) : b.timerCount.dma_idx = b.dma_idx := by
  unfold Block.timerCount; split <;> (try split) <;> rfl
@[simp] theorem timerLag_ser_bits (b : Block) : b.timerLag.ser_bits = b.ser_bits := by
  unfold Block.timerLag; split <;> (try split) <;> rfl
@[simp] theorem timerCount_ser_bits (b : Block) : b.timerCount.ser_bits = b.ser_bits := by
  unfold Block.timerCount; split <;> (try split) <;> rfl
@[simp] theorem timerLag_ser_clk (b : Block) : b.timerLag.ser_clk = b.ser_clk := by
  unfold Block.timerLag; split <;> (try split) <;> rfl
@[simp] theorem timerCount_ser_clk (b : Block) : b.timerCount.ser_clk = b.ser_clk := by
  unfold Block.timerCount; split <;> (try split) <;> rfl
@[simp] theorem timerLag_sb (b : Block) : b.timerLag.sb = b.sb := by
  unfold Block.timerLag; split <;> (try split) <;> rfl
@[simp] theorem timerCount_sb (b : Block) : b.timerCount.sb = b.sb := by
  unfold Block.timerCount; split <;> (try split) <;> rfl
@[simp] theorem timerLag_ser_start (b : Block) : b.timerLag.ser_start = b.ser_start := by
  unfold Block.timerLag; split <;> (try split) <;> rfl
@[simp] theorem timerCount_ser_start (b : Block) : b.timerCount.ser_start = b.ser_start := by
  unfold Block.timerCount; split <;> (try split) <;> rfl

/-- Each cycle of the timer counts the divider once (rule R71). -/
@[simp] theorem timerAdvance_div (b : Block) : b.timerAdvance.div = b.div + 1#16 := by
  unfold Block.timerAdvance; split <;> simp [Block.timerDivider]
@[simp] theorem timerAdvance_dma_active (b : Block) : b.timerAdvance.dma_active = b.dma_active := by
  unfold Block.timerAdvance; split <;> simp [Block.timerDivider]
@[simp] theorem timerAdvance_dma_idx (b : Block) : b.timerAdvance.dma_idx = b.dma_idx := by
  unfold Block.timerAdvance; split <;> simp [Block.timerDivider]
@[simp] theorem timerAdvance_ser_bits (b : Block) : b.timerAdvance.ser_bits = b.ser_bits := by
  unfold Block.timerAdvance; split <;> simp [Block.timerDivider]
@[simp] theorem timerAdvance_ser_clk (b : Block) : b.timerAdvance.ser_clk = b.ser_clk := by
  unfold Block.timerAdvance; split <;> simp [Block.timerDivider]
@[simp] theorem timerAdvance_sb (b : Block) : b.timerAdvance.sb = b.sb := by
  unfold Block.timerAdvance; split <;> simp [Block.timerDivider]
@[simp] theorem timerAdvance_ser_start (b : Block) : b.timerAdvance.ser_start = b.ser_start := by
  unfold Block.timerAdvance; split <;> simp [Block.timerDivider]

@[simp] theorem serialAdvance_div (c : Config) (b : Block) : (b.serialAdvance c).div = b.div := by
  unfold Block.serialAdvance Block.serialShift
  split
  · rfl
  · split
    · rfl
    · split
      · split <;> rfl
      · rfl

@[simp] theorem serialAdvance_lag (c : Config) (b : Block) : (b.serialAdvance c).lag = b.lag := by
  unfold Block.serialAdvance Block.serialShift
  split
  · rfl
  · split
    · rfl
    · split
      · split <;> rfl
      · rfl

@[simp] theorem serialAdvance_tima (c : Config) (b : Block) : (b.serialAdvance c).tima = b.tima := by
  unfold Block.serialAdvance Block.serialShift
  split
  · rfl
  · split
    · rfl
    · split
      · split <;> rfl
      · rfl

@[simp] theorem serialAdvance_dma_active (c : Config) (b : Block) :
    (b.serialAdvance c).dma_active = b.dma_active := by
  unfold Block.serialAdvance Block.serialShift
  split
  · rfl
  · split
    · rfl
    · split
      · split <;> rfl
      · rfl

@[simp] theorem serialAdvance_dma_idx (c : Config) (b : Block) : (b.serialAdvance c).dma_idx = b.dma_idx := by
  unfold Block.serialAdvance Block.serialShift
  split
  · rfl
  · split
    · rfl
    · split
      · split <;> rfl
      · rfl

/-- A cycle of the serial port touches the Serial flag only (rule R82). -/
theorem serialAdvance_flag (c : Config) (b : Block) (i : Nat) (h : i ≠ 3) :
    (b.serialAdvance c).if_.getLsbD i = b.if_.getLsbD i := by
  have hm : (Source.serial.mask).getLsbD i = false := by
    rcases Nat.lt_or_ge i 5 with h5 | h5
    · have : i = 0 ∨ i = 1 ∨ i = 2 ∨ i = 4 := by omega
      rcases this with rfl | rfl | rfl | rfl <;> rfl
    · exact BitVec.getLsbD_of_ge _ _ h5
  unfold Block.serialAdvance Block.serialShift
  split
  · rfl
  · split
    · rfl
    · split
      · split
        · simp [hm]
        · rfl
      · rfl

/-! ## The invariant of rule R35 -/

/-- The invariant of rule R35 as arithmetic. -/
theorem inv_iff (b : Block) : b.inv = true ↔
    b.lag.toNat ≤ 4 ∧ b.ser_bits.toNat ≤ 7 ∧ b.dma_idx.toNat ≤ 0xA0 ∧
      (b.dma_active = true → b.dma_idx.toNat ≤ 0x9F) := by
  cases h : b.dma_active <;> simp [Block.inv, h] <;> omega

/-- Only four fields bear on the invariant. -/
theorem inv_congr {b c : Block} (h1 : c.lag = b.lag) (h2 : c.ser_bits = b.ser_bits) (h3 : c.dma_idx = b.dma_idx)
    (h4 : c.dma_active = b.dma_active) : c.inv = b.inv := by
  simp [Block.inv, h1, h2, h3, h4]

/-- Decrementing an armed lag keeps it in range. -/
theorem lag_sub_le {l : BitVec 3} (h0 : l ≠ 0#3) (h : l.toNat ≤ 4) : (l - 1#3).toNat ≤ 4 := by
  revert h0 h; revert l; decide

/-- A cycle of the timer keeps the lag in range (rules R35, R71). -/
theorem timerAdvance_lag_le (b : Block) (h : b.lag.toNat ≤ 4) : b.timerAdvance.lag.toNat ≤ 4 := by
  have h2 (b : Block) (h : b.lag.toNat ≤ 4) : b.timerLag.lag.toNat ≤ 4 := by
    unfold Block.timerLag
    split
    · exact h
    · rename_i h0
      split <;> exact lag_sub_le h0 h
  have h3 (b : Block) (h : b.lag.toNat ≤ 4) : b.timerCount.lag.toNat ≤ 4 := by
    unfold Block.timerCount
    split
    · split
      · exact Nat.le_refl 4
      · exact h
    · exact h
  unfold Block.timerAdvance
  split
  · exact h3 _ (h2 _ h)
  · exact h

/-- A cycle of the timer keeps the block's invariant. -/
theorem timerAdvance_inv (b : Block) (h : b.inv = true) : b.timerAdvance.inv = true := by
  rw [inv_iff] at h ⊢
  simp only [timerAdvance_ser_bits, timerAdvance_dma_idx, timerAdvance_dma_active]
  exact ⟨timerAdvance_lag_le b h.1, h.2⟩

/-- Counting one bit, not the eighth, keeps the count in range. -/
theorem bits_add_le {x : BitVec 4} (h8 : x + 1#4 ≠ 8#4) (h : x.toNat ≤ 7) : (x + 1#4).toNat ≤ 7 := by
  revert h8 h; revert x; decide

/-- A cycle of the serial port keeps the bit count in range (rules R35, R82). -/
theorem serialAdvance_bits_le (c : Config) (b : Block) (h : b.ser_bits.toNat ≤ 7) :
    (b.serialAdvance c).ser_bits.toNat ≤ 7 := by
  unfold Block.serialAdvance Block.serialShift
  split
  · exact Nat.zero_le _
  · split
    · exact h
    · split
      · split
        · exact Nat.zero_le _
        · rename_i h8
          exact bits_add_le h8 h
      · exact h

/-- A cycle of the serial port keeps the block's invariant. -/
theorem serialAdvance_inv (c : Config) (b : Block) (h : b.inv = true) : (b.serialAdvance c).inv = true := by
  rw [inv_iff] at h ⊢
  simp only [serialAdvance_lag, serialAdvance_dma_idx, serialAdvance_dma_active]
  exact ⟨h.1, serialAdvance_bits_le c b h.2.1, h.2.2⟩

/-- A register write keeps the block's invariant (rules R4, R35). -/
theorem regWrite_inv (d : Byte) (b : Block) (r : Reg) (h : b.inv = true) : (b.regWrite d r).inv = true := by
  cases r <;> first
    | exact h
    | (rw [inv_iff] at h ⊢; exact ⟨h.1, h.2.1, Nat.zero_le _, fun _ => Nat.zero_le _⟩)

/-! ## The invariant of the machine -/

/-- A change of the block that keeps its invariant keeps the machine's. -/
theorem onBlock_Inv {s : State} (h : s.Inv) {f : Block → Block} (hf : (f s.toBlock).inv = true) :
    (s.onBlock f).Inv := ⟨h.1, hf, h.2.2.1, h.2.2.2⟩

/-- The invariant depends on the parameters, the block and memory only. -/
theorem Inv_congr {s t : State} (h : s.Inv) (h1 : t.cfg = s.cfg) (h2 : t.toBlock = s.toBlock) (h3 : t.mem = s.mem) :
    t.Inv := by
  unfold State.Inv State.memExternal at *
  rw [h1, h2, h3]; exact h

theorem emit_Inv {s : State} (h : s.Inv) (e : Event) : (s.emit e).Inv := Inv_congr h rfl rfl rfl

theorem busRead_Inv {s : State} (h : s.Inv) (a : Addr) : (s.busRead a).2.Inv := Inv_congr h (by simp) (by simp) (by simp)

theorem readOp_Inv {s : State} (h : s.Inv) (a : Addr) : (s.readOp a).Inv := Inv_congr h (by simp) (by simp) (by simp)

theorem readReg_Inv {s : State} (h : s.Inv) (r : Reg) : (s.readReg r).Inv := Inv_congr h (by simp) (by simp) (by simp)

/-- A bus write keeps the invariant (rules R35, R38). -/
theorem busWrite_Inv {s : State} (h : s.Inv) (a : Addr) (v : Byte) : (s.busWrite a v).Inv := by
  refine ⟨by simpa using h.1, ?_, busWrite_mem_wf s a v h.2.2.1, busWrite_memExternal s a v h.2.2.2⟩
  rcases busWrite_cases a v s with ⟨r, -, e⟩ | ⟨-, -, e⟩ | ⟨-, e⟩
  · rw [e]; exact regWrite_inv v _ r h.2.1
  · rw [e]; exact h.2.1
  · rw [e]; exact h.2.1

/-- A named register write keeps the invariant. -/
theorem writeReg_Inv {s : State} (h : s.Inv) (r : Reg) (v : Byte) : (s.writeReg r v).Inv := by
  cases hc : s.cfg.claims r with
  | true => rw [writeReg_claimed hc]; exact onBlock_Inv h (regWrite_inv v _ r h.2.1)
  | false =>
    have e : s.writeReg r v = s.busWrite (s.cfg.addr r) v := by
      simp [State.writeReg, hc, State.busWrite, unclaimed_addr h.1 hc]
    rw [e]; exact busWrite_Inv h _ _

/-- One cycle of an active DMA, where the window is external: the bytes it stores and the fields it counts (rule R89). -/
theorem dmaAdvance_active {s : State} (h : s.Inv) (ha : s.dma_active = true) :
    s.dmaAdvance = ((s.busRead s.toBlock.dmaSource).2.poke (s.cfg.oamAddr s.dma_idx)
      (s.busRead s.toBlock.dmaSource).1).onBlock Block.dmaCount := by
  have hi := ((inv_iff _).mp h.2.1).2.2.2 ha
  have hx : (s.busRead s.toBlock.dmaSource).2.cfg.isExternal (s.cfg.oamAddr s.dma_idx) = true := by
    rw [busRead_cfg]; exact oam_external h.1 (by omega)
  simp only [State.dmaAdvance, ha, if_true, State.dmaCopy, busWrite_external hx]

/-- An inactive DMA does nothing (rule R89). -/
theorem dmaAdvance_inactive {s : State} (ha : s.dma_active = false) : s.dmaAdvance = s := by
  simp [State.dmaAdvance, ha]

/-- Counting one byte keeps the block's invariant. -/
theorem dmaCount_inv (b : Block) (h : b.inv = true) (ha : b.dma_active = true) : b.dmaCount.inv = true := by
  rw [inv_iff] at h ⊢
  have hi := h.2.2.2 ha
  have e : (b.dma_idx + 1#8).toNat = b.dma_idx.toNat + 1 := by
    rw [BitVec.toNat_add, show (1#8).toNat = 1 from rfl, Nat.mod_eq_of_lt (by omega)]
  refine ⟨h.1, h.2.1, ?_, ?_⟩
  · show (b.dma_idx + 1#8).toNat ≤ _
    omega
  · intro hx
    show (b.dma_idx + 1#8).toNat ≤ _
    simp only [Block.dmaCount] at hx
    split at hx
    · cases hx
    · rename_i hne
      have : (b.dma_idx + 1#8).toNat ≠ 160 := fun e => hne (BitVec.eq_of_toNat_eq e)
      omega

/-- A cycle of the DMA keeps the invariant. -/
theorem dmaAdvance_Inv {s : State} (h : s.Inv) : s.dmaAdvance.Inv := by
  cases ha : s.dma_active with
  | false => rw [dmaAdvance_inactive ha]; exact h
  | true =>
    rw [dmaAdvance_active h ha]
    have hi := ((inv_iff _).mp h.2.1).2.2.2 ha
    have hx : (s.busRead s.toBlock.dmaSource).2.cfg.isExternal (s.cfg.oamAddr s.dma_idx) = true := by
      rw [busRead_cfg]; exact oam_external h.1 (by omega)
    have hr := busRead_Inv h s.toBlock.dmaSource
    refine ⟨hr.1, ?_, poke_wf _ _ _ hr.2.2.1, poke_memExternal _ _ _ hx hr.2.2.2⟩
    simp only [onBlock_toBlock, poke_toBlock, busRead_toBlock]
    exact dmaCount_inv _ h.2.1 ha

/-! ## Cycles -/

/-- What a consumed cycle leaves alone, and that it stores only in the object-memory window. -/
structure CycleFrame (s t : State) : Prop where
  block : BlockFrame s.toBlock t.toBlock
  cfg : t.cfg = s.cfg
  session : t.session = s.session
  pending : t.pending = s.pending
  ieuAnswers : t.ieuAnswers = s.ieuAnswers
  bytes : ∀ a, (∀ i : Nat, i < 160 → a ≠ s.cfg.oamBase + BitVec.ofNat 16 i) → t.peek a = s.peek a

theorem CycleFrame.refl (s : State) : CycleFrame s s := ⟨.refl _, rfl, rfl, rfl, rfl, fun _ _ => rfl⟩

theorem CycleFrame.trans {s t u : State} (h : CycleFrame s t) (g : CycleFrame t u) : CycleFrame s u :=
  ⟨h.block.trans g.block, g.cfg.trans h.cfg, g.session.trans h.session, g.pending.trans h.pending,
    g.ieuAnswers.trans h.ieuAnswers,
    fun a ha => (g.bytes a (by rw [h.cfg]; exact ha)).trans (h.bytes a ha)⟩

/-- A change of the block within its frame is within the cycle's. -/
theorem onBlock_cycleFrame {s : State} {f : Block → Block} (h : BlockFrame s.toBlock (f s.toBlock)) :
    CycleFrame s (s.onBlock f) := ⟨h, rfl, rfl, rfl, rfl, fun _ _ => rfl⟩

/-- The frame of a cycle of the DMA (rule R89). -/
theorem dmaAdvance_frame {s : State} (h : s.Inv) : CycleFrame s s.dmaAdvance := by
  cases ha : s.dma_active with
  | false => rw [dmaAdvance_inactive ha]; exact .refl s
  | true =>
    rw [dmaAdvance_active h ha]
    have hi := ((inv_iff _).mp h.2.1).2.2.2 ha
    refine ⟨?_, by simp, by simp, by simp, by simp, ?_⟩
    · simp only [onBlock_toBlock, poke_toBlock, busRead_toBlock]
      constructor <;> first | rfl | exact fun _ h => h
    · intro a hne
      have hi2 : s.cfg.oamAddr s.dma_idx = s.cfg.oamBase + BitVec.ofNat 16 s.dma_idx.toNat := by
        unfold Config.oamAddr
        congr 1
        apply BitVec.eq_of_toNat_eq
        simp
      rw [peek_onBlock]
      refine (peek_poke_other _ _ _ _ ?_).trans (peek_congr (by simp) a)
      rw [hi2]; exact hne _ (by omega)

/-- An advance of the DMA in an invariant state counts no divider and touches neither timer nor serial port. -/
theorem dmaAdvance_block {s : State} (h : s.Inv) :
    s.dmaAdvance.toBlock = if s.dma_active then s.toBlock.dmaCount else s.toBlock := by
  cases ha : s.dma_active with
  | false => rw [dmaAdvance_inactive ha]; rfl
  | true => rw [dmaAdvance_active h ha]; simp

/-- A cycle is the three advances: an inactive DMA's does nothing (rules R89, R108). -/
theorem cycle_eq (s : State) : s.cycle = ((s.onBlock Block.timerAdvance).serialAdvance).dmaAdvance := by
  unfold State.cycle
  dsimp only
  split
  · rfl
  · rename_i h
    exact (dmaAdvance_inactive (by simpa using h)).symm

/-- The timer's and the serial port's cycle keep the invariant. -/
theorem timerSerial_Inv {s : State} (h : s.Inv) : ((s.onBlock Block.timerAdvance).serialAdvance).Inv :=
  onBlock_Inv (onBlock_Inv h (timerAdvance_inv _ h.2.1)) (serialAdvance_inv _ _ (timerAdvance_inv _ h.2.1))

/-- A consumed cycle keeps the invariant (rules R35, R108). -/
theorem cycle_Inv {s : State} (h : s.Inv) : s.cycle.Inv := by
  rw [cycle_eq]; exact dmaAdvance_Inv (timerSerial_Inv h)

/-- The frame of a consumed cycle (rule R108). -/
theorem cycle_frame {s : State} (h : s.Inv) : CycleFrame s s.cycle := by
  rw [cycle_eq]
  exact ((onBlock_cycleFrame (timerAdvance_frame _)).trans (onBlock_cycleFrame (serialAdvance_frame _ _))).trans
    (dmaAdvance_frame (timerSerial_Inv h))

/-- The block after a consumed cycle (rule R108). -/
theorem cycle_block {s : State} (h : s.Inv) :
    s.cycle.toBlock = if s.dma_active then (s.toBlock.timerAdvance.serialAdvance s.cfg).dmaCount
      else s.toBlock.timerAdvance.serialAdvance s.cfg := by
  rw [cycle_eq, dmaAdvance_block (timerSerial_Inv h)]
  simp [State.serialAdvance]

/-- Each consumed cycle counts the divider once (rule R116). -/
theorem cycle_div {s : State} (h : s.Inv) : s.cycle.div = s.div + 1#16 := by
  rw [cycle_block h]
  split <;> simp [Block.dmaCount]

/-- Consumed cycles keep the invariant. -/
theorem runLoop_Inv (n : Nat) {s : State} (h : s.Inv) : (State.runLoop n s).Inv := by
  induction n generalizing s with
  | zero => exact h
  | succ n ih => exact ih (cycle_Inv h)

/-- The frame of consumed cycles. -/
theorem runLoop_frame (n : Nat) {s : State} (h : s.Inv) : CycleFrame s (State.runLoop n s) := by
  induction n generalizing s with
  | zero => exact .refl s
  | succ n ih => exact (cycle_frame h).trans (ih (cycle_Inv h))

/-- n consumed cycles count the divider n times (rule R116). -/
theorem runLoop_div (n : Nat) {s : State} (h : s.Inv) : (State.runLoop n s).div = s.div + BitVec.ofNat 16 n := by
  induction n generalizing s with
  | zero => simp [State.runLoop]
  | succ n ih =>
    rw [State.runLoop, ih (cycle_Inv h), cycle_div h, BitVec.add_assoc]
    congr 1
    apply BitVec.eq_of_toNat_eq
    simp
    omega

/-! ## The Display and Audio Units -/

@[simp] theorem displayAnswer_toBlock (s : State) : s.displayAnswer.2.toBlock = s.toBlock := by
  unfold State.displayAnswer; split <;> rfl
@[simp] theorem displayAnswer_cfg (s : State) : s.displayAnswer.2.cfg = s.cfg := by
  unfold State.displayAnswer; split <;> rfl
@[simp] theorem displayAnswer_mem (s : State) : s.displayAnswer.2.mem = s.mem := by
  unfold State.displayAnswer; split <;> rfl
@[simp] theorem displayAnswer_session (s : State) : s.displayAnswer.2.session = s.session := by
  unfold State.displayAnswer; split <;> rfl
@[simp] theorem displayAnswer_pending (s : State) : s.displayAnswer.2.pending = s.pending := by
  unfold State.displayAnswer; split <;> rfl
@[simp] theorem displayAnswer_ieuAnswers (s : State) : s.displayAnswer.2.ieuAnswers = s.ieuAnswers := by
  unfold State.displayAnswer; split <;> rfl
@[simp] theorem displayAnswer_bankAnswers (s : State) : s.displayAnswer.2.bankAnswers = s.bankAnswers := by
  unfold State.displayAnswer; split <;> rfl
@[simp] theorem displayAnswer_output (s : State) : s.displayAnswer.2.output = s.output := by
  unfold State.displayAnswer; split <;> rfl

/-- The Display Unit changes nothing of the block but the pending flags (rule R7). -/
theorem displayAdvance_toBlock (m : Nat) (s : State) :
    (s.displayAdvance m).toBlock = { s.toBlock with if_ := (s.displayAdvance m).if_ } := by
  simp only [State.displayAdvance, onBlock_toBlock, emit_toBlock, displayAnswer_toBlock, Block.raiseIf]
  split <;> split <;> rfl

/-- The Display Unit raises flags 0 and 1 only (rule R7). -/
theorem displayAdvance_flag (m : Nat) (s : State) (i : Nat) (h : 2 ≤ i) :
    (s.displayAdvance m).if_.getLsbD i = s.if_.getLsbD i := by
  have hv : Source.vblank.mask.getLsbD i = false := by
    simp only [Source.mask, Source.index, BitVec.getLsbD_shiftLeft, BitVec.getLsbD_one]
    simp; omega
  have hl : Source.lcd.mask.getLsbD i = false := by
    simp only [Source.mask, Source.index, BitVec.getLsbD_shiftLeft, BitVec.getLsbD_one]
    simp; omega
  simp only [State.displayAdvance, onBlock_toBlock, emit_toBlock, displayAnswer_toBlock, Block.raiseIf]
  split <;> split <;> simp [hv, hl]

/-- The Display Unit raises flags 0 and 1 exactly as its answer says (rule R7, log 11). -/
theorem displayAdvance_raises (m : Nat) (s : State) :
    (s.displayAdvance m).if_.getLsbD Source.vblank.index =
      (s.if_.getLsbD Source.vblank.index || s.displayAnswer.1.vblank) ∧
    (s.displayAdvance m).if_.getLsbD Source.lcd.index =
      (s.if_.getLsbD Source.lcd.index || s.displayAnswer.1.lcd) := by
  simp only [State.displayAdvance, onBlock_toBlock, emit_toBlock, displayAnswer_toBlock, Block.raiseIf, Block.raise,
    Source.mask, Source.index]
  cases s.displayAnswer.1.vblank <;> cases s.displayAnswer.1.lcd <;> simp

/-- The frame of the Display Unit's advance (rule R7). -/
theorem displayAdvance_frame (m : Nat) (s : State) : CycleFrame s (s.displayAdvance m) := by
  refine ⟨?_, by simp [State.displayAdvance], by simp [State.displayAdvance], by simp [State.displayAdvance],
    by simp [State.displayAdvance], fun a _ => peek_congr (by simp [State.displayAdvance]) a⟩
  simp only [State.displayAdvance, onBlock_toBlock, emit_toBlock, displayAnswer_toBlock]
  exact (raiseIf_frame _ _ _).trans (raiseIf_frame _ _ _)

@[simp] theorem displayAdvance_mem (m : Nat) (s : State) : (s.displayAdvance m).mem = s.mem := by
  simp [State.displayAdvance]
@[simp] theorem displayAdvance_cfg (m : Nat) (s : State) : (s.displayAdvance m).cfg = s.cfg := by
  simp [State.displayAdvance]
@[simp] theorem displayAdvance_output (m : Nat) (s : State) :
    (s.displayAdvance m).output = .displayAdvance m :: s.output := by
  simp [State.displayAdvance]

/-- The Display Unit's advance keeps the invariant. -/
theorem displayAdvance_Inv (m : Nat) {s : State} (h : s.Inv) : (s.displayAdvance m).Inv := by
  refine ⟨by simpa using h.1, ?_, by simpa using h.2.2.1, by simpa [State.memExternal] using h.2.2.2⟩
  rw [displayAdvance_toBlock]
  exact h.2.1

@[simp] theorem audioAdvance_toBlock (m : Nat) (s : State) : (s.audioAdvance m).toBlock = s.toBlock := rfl
@[simp] theorem audioAdvance_mem (m : Nat) (s : State) : (s.audioAdvance m).mem = s.mem := rfl
@[simp] theorem audioAdvance_cfg (m : Nat) (s : State) : (s.audioAdvance m).cfg = s.cfg := rfl
@[simp] theorem audioAdvance_output (m : Nat) (s : State) :
    (s.audioAdvance m).output = .audioAdvance m :: s.output := rfl

/-- `RunCycles` keeps the invariant (rule R35). -/
theorem runCycles_Inv (n : Nat) {s : State} (h : s.Inv) : (s.runCycles n).Inv :=
  emit_Inv (displayAdvance_Inv _ (runLoop_Inv n h)) _

/-- The frame of `RunCycles` (rule R108). -/
theorem runCycles_frame (n : Nat) {s : State} (h : s.Inv) : CycleFrame s (s.runCycles n) := by
  have g := (runLoop_frame n h).trans (displayAdvance_frame ((State.runLoop n s).realTimeCycles n) _)
  exact ⟨g.block, g.cfg, g.session, g.pending, g.ieuAnswers, g.bytes⟩

/-- The block after `RunCycles` is the block after its cycles but for the pending flags. -/
theorem runCycles_block (n : Nat) (s : State) :
    (s.runCycles n).toBlock = { (State.runLoop n s).toBlock with if_ := (s.runCycles n).if_ } :=
  displayAdvance_toBlock _ _

/-- `RunCycles(n)` counts the divider n times (rule R116). -/
theorem runCycles_div (n : Nat) {s : State} (h : s.Inv) : (s.runCycles n).div = s.div + BitVec.ofNat 16 n := by
  rw [runCycles_block]
  exact runLoop_div n h

/-! ## The Instruction Execution Unit -/

@[simp] theorem ieuAnswer_toBlock (s : State) : s.ieuAnswer.2.toBlock = s.toBlock := by
  unfold State.ieuAnswer; split <;> rfl
@[simp] theorem ieuAnswer_cfg (s : State) : s.ieuAnswer.2.cfg = s.cfg := by
  unfold State.ieuAnswer; split <;> rfl
@[simp] theorem ieuAnswer_mem (s : State) : s.ieuAnswer.2.mem = s.mem := by
  unfold State.ieuAnswer; split <;> rfl
@[simp] theorem ieuAnswer_session (s : State) : s.ieuAnswer.2.session = s.session := by
  unfold State.ieuAnswer; split <;> rfl
@[simp] theorem ieuAnswer_pending (s : State) : s.ieuAnswer.2.pending = s.pending := by
  unfold State.ieuAnswer; split <;> rfl
@[simp] theorem ieuAnswer_output (s : State) : s.ieuAnswer.2.output = s.output := by
  unfold State.ieuAnswer; split <;> rfl

/-- The unit's answer does not depend on the block. -/
@[simp] theorem ieuAnswer_onBlock (f : Block → Block) (s : State) : (s.onBlock f).ieuAnswer.1 = s.ieuAnswer.1 := by
  unfold State.ieuAnswer
  simp only [onBlock_ieuAnswers, onBlock_fresh]
  split <;> rfl

/-- An operation of the Instruction Execution Unit keeps the invariant. -/
theorem ieuOp_Inv {s : State} (h : s.Inv) (o : IeuOp) : (s.ieuOp o).Inv := by
  cases o with
  | regRead a => exact readOp_Inv h a
  | regWrite a d => exact busWrite_Inv h a d
  | imeRequest => exact onBlock_Inv h h.2.1
  | imeWrite v => exact onBlock_Inv h h.2.1
  | haltEnter => exact onBlock_Inv h h.2.1
  | stopEnter => exact onBlock_Inv h h.2.1

/-- Its operations keep the invariant. -/
theorem ieuOps_Inv (os : List IeuOp) {s : State} (h : s.Inv) : (State.ieuOps os s).Inv := by
  induction os generalizing s with
  | nil => exact h
  | cons o os ih => exact ih (ieuOp_Inv h o)

/-- An operation of the Instruction Execution Unit other than IME.REQUEST and IME.WRITE leaves the master enable and its
request alone (rules R5, R63, R64). -/
theorem ieuOp_latches (s : State) (o : IeuOp) (h : o ≠ .imeRequest ∧ ∀ v, o ≠ .imeWrite v) :
    (s.ieuOp o).ime = s.ime ∧ (s.ieuOp o).ime_req = s.ime_req := by
  cases o with
  | regRead a => simp [State.ieuOp]
  | regWrite a d =>
    rcases busWrite_cases a d s with ⟨r, -, e⟩ | ⟨-, -, e⟩ | ⟨-, e⟩ <;> simp only [State.ieuOp, e]
    · cases r <;> exact ⟨rfl, rfl⟩
    · exact ⟨rfl, rfl⟩
    · exact ⟨rfl, rfl⟩
  | imeRequest => exact absurd rfl h.1
  | imeWrite v => exact absurd rfl (h.2 v)
  | haltEnter => exact ⟨rfl, rfl⟩
  | stopEnter => exact ⟨rfl, rfl⟩

/-- The same of any list of such operations. -/
theorem ieuOps_latches (os : List IeuOp) (s : State) (h : ∀ o ∈ os, o ≠ .imeRequest ∧ ∀ v, o ≠ .imeWrite v) :
    (State.ieuOps os s).ime = s.ime ∧ (State.ieuOps os s).ime_req = s.ime_req := by
  induction os generalizing s with
  | nil => exact ⟨rfl, rfl⟩
  | cons o os ih =>
    have a := ieuOp_latches s o (h o (.head _))
    have b := ih (s.ieuOp o) fun x hx => h x (.tail _ hx)
    exact ⟨b.1.trans a.1, b.2.trans a.2⟩

/-- An invocation of the Instruction Execution Unit keeps the invariant (rule R111). -/
theorem dispatch_Inv (irq : Option Source) {s : State} (h : s.Inv) : (s.dispatch irq).2.Inv := by
  have ha : s.ieuAnswer.2.Inv := Inv_congr h (by simp) (by simp) (by simp)
  cases irq with
  | none => exact ieuOps_Inv _ (emit_Inv ha _)
  | some k =>
    have hb := ieuOps_Inv s.ieuAnswer.1.before (emit_Inv ha (.dispatchInterrupt k (s.ieuAnswer.2.cfg.vector k)))
    exact ieuOps_Inv _ (onBlock_Inv hb hb.2.1)

/-! ## STEP -/

/-- Committing a speed switch keeps the block's invariant. -/
theorem speedCommit_inv (b : Block) (h : b.inv = true) : b.speedCommit.inv = true := by
  unfold Block.speedCommit; split <;> exact h

/-- Applying a requested enable keeps the block's invariant. -/
theorem applyImeRequest_inv (b : Block) (h : b.inv = true) : b.applyImeRequest.inv = true := by
  unfold Block.applyImeRequest; split <;> exact h

/-- A STEP keeps the invariant (rules R35, R110). -/
theorem stepOnce_Inv {s : State} (h : s.Inv) : s.stepOnce.Inv := by
  unfold State.stepOnce State.haltStep State.stopStep State.executeStep
  split
  · split
    · exact onBlock_Inv (runCycles_Inv _ h) (runCycles_Inv _ h).2.1
    · exact runCycles_Inv _ h
  · split
    · have h0 := onBlock_Inv (f := fun b => { b with div := 0#16 }) h h.2.1
      have h1 := onBlock_Inv (f := Block.speedCommit) h0 (speedCommit_inv _ h0.2.1)
      exact onBlock_Inv (runCycles_Inv _ h1) (runCycles_Inv _ h1).2.1
    · exact runCycles_Inv _ (dispatch_Inv _ (onBlock_Inv h (applyImeRequest_inv _ h.2.1)))

end Sys2Proof.Laws
end

