-- ==== Sys2Proof/Laws/Debug.lean ====
section
/-! SUPPORT. What the debugger can do to the machine (spec/60_exceptions.md rules R140 to R149). -/

namespace Sys2Proof.Laws

open Sys2Proof.Machine

/-- A change of the session keeps the invariant. -/
theorem onSession_Inv {s : State} (h : s.Inv) (f : DebuggerSession → DebuggerSession) : (s.onSession f).Inv :=
  Inv_congr h rfl rfl rfl

/-- Everything one `DBG.STEP` can do: nothing, a STEP, or a return to the prompt (rule R145). -/
theorem debugStep_cases (s : State) :
    s.debugStep = s ∨ s.debugStep = s.stepOnce ∨ ∃ f, s.debugStep = s.onSession f := by
  unfold State.debugStep
  split
  · exact .inl rfl
  · exact .inl rfl
  · exact .inr (.inl rfl)
  · split
    · exact .inr (.inl rfl)
    · exact .inr (.inr ⟨_, rfl⟩)
    · exact .inr (.inr ⟨_, rfl⟩)

/-- `break` changes nothing but the session (rules R141, R149). -/
theorem setBreakpoint_cases (args : List Text) (s : State) : ∃ f, s.setBreakpoint args = s.onSession f := by
  unfold State.setBreakpoint
  split
  · exact ⟨_, rfl⟩
  · split
    · exact ⟨_, rfl⟩
    · split
      · exact ⟨_, rfl⟩
      · exact ⟨_, rfl⟩
      · split <;> exact ⟨_, rfl⟩

/-- `x` changes nothing but the session (rule R147). -/
theorem readPath_cases (args : List Text) (s : State) : ∃ f, s.readPath args = s.onSession f := by
  unfold State.readPath
  split
  · exact ⟨_, rfl⟩
  · split <;> exact ⟨_, rfl⟩

/-- `call` changes the session or invokes the method its path names (rule R143). -/
theorem callPath_cases (args : List Text) (s : State) :
    (∃ f, s.callPath args = s.onSession f) ∨
    ∃ path more m, args = path :: more ∧ methodOf (pathNames path) = some m ∧ s.callPath args = s.invoke m := by
  unfold State.callPath
  split
  · exact .inl ⟨_, rfl⟩
  · rename_i path more
    split
    · exact .inl ⟨_, rfl⟩
    · rename_i m hm
      exact .inr ⟨path, more, m, rfl, hm, rfl⟩

/-- A finished line changes the session, or is a `call` that invokes a method (rules R146, R147). -/
theorem command_cases (line : List Text) (s : State) :
    (∃ f, s.command line = s.onSession f) ∨
    ∃ path more m, line = "call".toList :: path :: more ∧ methodOf (pathNames path) = some m ∧
      s.command line = s.invoke m := by
  unfold State.command
  split
  · exact .inl ⟨id, rfl⟩
  · rename_i name args
    split
    · exact .inl ⟨_, rfl⟩
    · exact .inl ⟨_, rfl⟩
    · exact .inl (readPath_cases args s)
    · exact .inl (setBreakpoint_cases args s)
    · rename_i hn
      have e : name = "call".toList := by
        simp only [commandTable, named] at hn
        split at hn
        · cases hn
        · split at hn
          · cases hn
          · split at hn
            · cases hn
            · split at hn
              · rename_i e; exact e.symm
              · cases hn
      rcases callPath_cases args s with h | ⟨path, more, m, rfl, hm, he⟩
      · exact .inl h
      · exact .inr ⟨path, more, m, by rw [e], hm, he⟩

/-- Two changes of the session are one. -/
theorem onSession_onSession (f g : DebuggerSession → DebuggerSession) (s : State) :
    (s.onSession f).onSession g = s.onSession fun q => g (f q) := rfl

/-- Newline changes the session, or invokes a method, back at the prompt (rule R146). -/
theorem finishLine_cases (s : State) :
    (∃ f, s.finishLine = s.onSession f) ∨
    ∃ path more m f, tokens s.session.buffer = "call".toList :: path :: more ∧ methodOf (pathNames path) = some m ∧
      (∀ q, (f q).mode = .awaitingCommand) ∧ s.finishLine = (s.onSession f).invoke m := by
  unfold State.finishLine
  rcases command_cases (tokens s.session.buffer)
    (s.onSession fun q => { q with mode := .awaitingCommand, buffer := [] }) with ⟨f, e⟩ | ⟨path, more, m, hl, hm, e⟩
  · exact .inl ⟨_, e.trans (onSession_onSession _ f s)⟩
  · exact .inr ⟨path, more, m, _, hl, hm, fun _ => rfl, e⟩

/-- A new press changes the session, or is a newline that invokes a method (rules R146, R148). -/
theorem pressKey_cases (k : Key) (s : State) :
    (∃ f, s.pressKey k = s.onSession f) ∨
    (k = .newline ∧ s.session.takesKeys = true ∧
      ∃ path more m f, tokens s.session.buffer = "call".toList :: path :: more ∧ methodOf (pathNames path) = some m ∧
        (∀ q, (f q).mode = .awaitingCommand) ∧ s.pressKey k = (s.onSession f).invoke m) := by
  cases k with
  | breakIn =>
    refine .inl ⟨fun q =>
      { q with mode := .awaitingCommand, buffer := if s.cfg.breakInClearsBuffer then [] else q.buffer }, ?_⟩
    rfl
  | char ch =>
    simp only [State.pressKey]
    split
    · exact .inl ⟨_, rfl⟩
    · exact .inl ⟨id, rfl⟩
  | backspace =>
    simp only [State.pressKey]
    split
    · exact .inl ⟨_, rfl⟩
    · exact .inl ⟨id, rfl⟩
  | newline =>
    simp only [State.pressKey]
    split
    · rename_i ha
      rcases finishLine_cases s with h | h
      · exact .inl h
      · exact .inr ⟨trivial, ha, h⟩
    · exact .inl ⟨id, rfl⟩

/-- The key-state table's change leaves the mode and the buffer. -/
@[simp] theorem setKey_takesKeys (c : Byte) (p : Bool) (q : DebuggerSession) : (q.setKey c p).takesKeys = q.takesKeys := rfl
@[simp] theorem setKey_buffer (c : Byte) (p : Bool) (q : DebuggerSession) : (q.setKey c p).buffer = q.buffer := rfl
@[simp] theorem setKey_mode (c : Byte) (p : Bool) (q : DebuggerSession) : (q.setKey c p).mode = q.mode := rfl
@[simp] theorem setKey_breakpoints (c : Byte) (p : Bool) (q : DebuggerSession) :
    (q.setKey c p).breakpoints = q.breakpoints := rfl
@[simp] theorem setKey_reports (c : Byte) (p : Bool) (q : DebuggerSession) : (q.setKey c p).reports = q.reports := rfl

/-- A key event changes the session, or finishes a line that invokes a method (rules R146, R148). -/
theorem debugKey_cases (c : Byte) (p : Bool) (s : State) :
    (∃ f, s.debugKey c p = s.onSession f) ∨
    (p = true ∧ s.session.keyDown c = false ∧ s.keyOf c = some .newline ∧ s.session.takesKeys = true ∧
      ∃ path more m f, tokens s.session.buffer = "call".toList :: path :: more ∧ methodOf (pathNames path) = some m ∧
        (∀ q, (f q).mode = .awaitingCommand) ∧ s.debugKey c p = (s.onSession f).invoke m) := by
  unfold State.debugKey
  dsimp only
  split
  · rename_i hp
    simp only [Bool.and_eq_true, Bool.not_eq_true'] at hp
    split
    · rename_i k hk
      rcases pressKey_cases k (s.onSession (DebuggerSession.setKey c p)) with
        ⟨f, e⟩ | ⟨rfl, ha, path, more, m, f, hl, hm, hf, e⟩
      · exact .inl ⟨_, e.trans (onSession_onSession _ f s)⟩
      · rw [onSession_onSession] at e
        exact .inr ⟨hp.1, hp.2, hk, by simpa using ha, path, more, m, _, by simpa using hl, hm, fun q => hf _, e⟩
    · exact .inl ⟨_, rfl⟩
  · exact .inl ⟨_, rfl⟩

/-- `DBG.STEP` keeps the invariant. -/
theorem debugStep_Inv {s : State} (h : s.Inv) : s.debugStep.Inv := by
  rcases debugStep_cases s with e | e | ⟨f, e⟩ <;> rw [e]
  · exact h
  · exact stepOnce_Inv h
  · exact onSession_Inv h f

/-- A method invoked through `call` keeps the invariant. -/
theorem invoke_Inv {s : State} (h : s.Inv) (m : Method) : (s.invoke m).Inv := by
  cases m with
  | step => exact stepOnce_Inv h
  | imeRequest => exact onBlock_Inv h h.2.1
  | haltEnter => exact onBlock_Inv h h.2.1
  | stopEnter => exact onBlock_Inv h h.2.1
  | timerAdvance => exact onBlock_Inv h (timerAdvance_inv _ h.2.1)
  | serialAdvance => exact onBlock_Inv h (serialAdvance_inv _ _ h.2.1)
  | dmaAdvance => exact dmaAdvance_Inv h
  | speedCommit => exact onBlock_Inv h (speedCommit_inv _ h.2.1)
  | dbgStep => exact debugStep_Inv h

/-- A key event keeps the invariant. -/
theorem debugKey_Inv {s : State} (h : s.Inv) (c : Byte) (p : Bool) : (s.debugKey c p).Inv := by
  rcases debugKey_cases c p s with ⟨f, e⟩ | ⟨-, -, -, -, path, more, m, f, -, -, -, e⟩ <;> rw [e]
  · exact onSession_Inv h f
  · exact invoke_Inv (onSession_Inv h f) m

end Sys2Proof.Laws
end

