-- ==== Sys2Proof/Laws/PerInstr.lean ====
section
/-! SUPPORT. Statements made for every operation, one lemma per constructor of Instr. -/

namespace Sys2Proof.Laws

open Sys2Proof.Machine

/-- A mask of all ones keeps a byte. -/
theorem byte_and_ones (d : Byte) : d &&& 0xFF#8 = d := by revert d; decide

/-- A mask of all ones keeps an address. -/
theorem addr_and_ones (a : Addr) : a &&& 0xFFFF#16 = a := BitVec.and_allOnes

/-- Fields that meet a row's masks spell the row (rule R49). -/
theorem spells_of_fields {op po mo : Byte} {a pa ma : Addr} {d pd md : Byte} {pattern mask : Word} (mnemonic : String)
    (hp : pattern = packWord po pa pd) (hm : mask = packWord mo ma md)
    (h1 : op &&& mo = po) (h2 : a &&& ma = pa) (h3 : d &&& md = pd) :
    OpcodeRow.spells ⟨mnemonic, pattern, mask, false⟩ (packWord op a d) = true := by
  simp [OpcodeRow.spells, hp, hm, packWord_and, h1, h2, h3]

/-- The word of an operation spells the row of the opcode map that rules R49 and R50 give the operation, whatever the
parameters are. -/
def RowSpelling.Statement (i : Instr) : Prop :=
  ∀ c : Config, ∃ r ∈ opcodeTable, r.mnemonic = i.rowMnemonic ∧ r.spells (encode c i) = true

/-- The words of the named reads spell REG.READ. -/
theorem read_spells (a : Addr) : ∃ r ∈ opcodeTable, r.mnemonic = "REG.READ" ∧ r.spells (packWord 0x01#8 a 0#8) = true :=
  ⟨⟨"REG.READ", 0x01000000#32, 0xFF0000FF#32, false⟩, by decide, rfl,
    spells_of_fields (mo := 0xFF#8) (ma := 0#16) (md := 0xFF#8) (po := 0x01#8) (pa := 0#16) (pd := 0#8) _
      (by decide) (by decide) (by decide) (BitVec.and_zero) (by decide)⟩

/-- The words of the named writes spell REG.WRITE. -/
theorem write_spells (a : Addr) (d : Byte) :
    ∃ r ∈ opcodeTable, r.mnemonic = "REG.WRITE" ∧ r.spells (packWord 0x02#8 a d) = true :=
  ⟨⟨"REG.WRITE", 0x02000000#32, 0xFF000000#32, false⟩, by decide, rfl,
    spells_of_fields (mo := 0xFF#8) (ma := 0#16) (md := 0#8) (po := 0x02#8) (pa := 0#16) (pd := 0#8) _
      (by decide) (by decide) (by decide) (BitVec.and_zero) (BitVec.and_zero)⟩

theorem RowSpelling.step : RowSpelling.Statement .step :=
  fun _ => ⟨⟨"STEP", 0x00000000#32, 0xFFFFFFFF#32, false⟩, by decide, rfl, by simp only [encode]; decide⟩

theorem RowSpelling.regRead (a : Addr) : RowSpelling.Statement (.regRead a) := fun _ => read_spells _

theorem RowSpelling.regWrite (a : Addr) (d : Byte) : RowSpelling.Statement (.regWrite a d) := fun _ => write_spells _ _

theorem RowSpelling.cyclesRun (n : BitVec 16) : RowSpelling.Statement (.cyclesRun n) :=
  fun _ => ⟨⟨"CYCLES.RUN", 0x03000000#32, 0xFF0000FF#32, false⟩, by decide, rfl,
    spells_of_fields (mo := 0xFF#8) (ma := 0x0000#16) (md := 0xFF#8) (po := 0x03#8) (pa := 0x0000#16) (pd := 0x00#8) _
      (by decide) (by decide) (by decide) BitVec.and_zero (by decide)⟩

theorem RowSpelling.irqRaise (k : Source) : RowSpelling.Statement (.irqRaise k) :=
  fun _ => ⟨⟨"IRQ.RAISE", 0x10000000#32, 0xFFFFFFF8#32, true⟩, by decide, rfl, by cases k <;> simp only [encode] <;> decide⟩

theorem RowSpelling.irqAck (k : Source) : RowSpelling.Statement (.irqAck k) :=
  fun _ => ⟨⟨"IRQ.ACK", 0x11000000#32, 0xFFFFFFF8#32, true⟩, by decide, rfl, by cases k <;> simp only [encode] <;> decide⟩

theorem RowSpelling.imeRequest : RowSpelling.Statement .imeRequest :=
  fun _ => ⟨⟨"IME.REQUEST", 0x12000000#32, 0xFFFFFFFF#32, false⟩, by decide, rfl, by simp only [encode]; decide⟩

theorem RowSpelling.imeWrite (b : Bool) : RowSpelling.Statement (.imeWrite b) :=
  fun _ => ⟨⟨"IME.WRITE", 0x13000000#32, 0xFFFFFFFE#32, false⟩, by decide, rfl, by cases b <;> simp only [encode] <;> decide⟩

theorem RowSpelling.haltEnter : RowSpelling.Statement .haltEnter :=
  fun _ => ⟨⟨"HALT.ENTER", 0x14000000#32, 0xFFFFFFFF#32, false⟩, by decide, rfl, by simp only [encode]; decide⟩

theorem RowSpelling.stopEnter : RowSpelling.Statement .stopEnter :=
  fun _ => ⟨⟨"STOP.ENTER", 0x15000000#32, 0xFFFFFFFF#32, false⟩, by decide, rfl, by simp only [encode]; decide⟩

theorem RowSpelling.timerAdvance : RowSpelling.Statement .timerAdvance :=
  fun _ => ⟨⟨"TIMER.ADVANCE", 0x20000000#32, 0xFFFFFFFF#32, false⟩, by decide, rfl, by simp only [encode]; decide⟩

theorem RowSpelling.serialAdvance : RowSpelling.Statement .serialAdvance :=
  fun _ => ⟨⟨"SERIAL.ADVANCE", 0x21000000#32, 0xFFFFFFFF#32, false⟩, by decide, rfl, by simp only [encode]; decide⟩

theorem RowSpelling.dmaAdvance : RowSpelling.Statement .dmaAdvance :=
  fun _ => ⟨⟨"DMA.ADVANCE", 0x22000000#32, 0xFFFFFFFF#32, false⟩, by decide, rfl, by simp only [encode]; decide⟩

theorem RowSpelling.dmaStart (a : Addr) : RowSpelling.Statement (.dmaStart a) :=
  fun _ => ⟨⟨"DMA.START", 0x23000000#32, 0xFF0000FF#32, false⟩, by decide, rfl,
    spells_of_fields (mo := 0xFF#8) (ma := 0x0000#16) (md := 0xFF#8) (po := 0x23#8) (pa := 0x0000#16) (pd := 0x00#8) _
      (by decide) (by decide) (by decide) BitVec.and_zero (by decide)⟩

theorem RowSpelling.joypadUpdate (d : Byte) : RowSpelling.Statement (.joypadUpdate d) :=
  fun _ => ⟨⟨"JOYPAD.UPDATE", 0x24000000#32, 0xFFFFFF00#32, false⟩, by decide, rfl,
    spells_of_fields (mo := 0xFF#8) (ma := 0xFFFF#16) (md := 0x00#8) (po := 0x24#8) (pa := 0x0000#16) (pd := 0x00#8) _
      (by decide) (by decide) (by decide) (by decide) BitVec.and_zero⟩

theorem RowSpelling.speedPrepare (b : Bool) : RowSpelling.Statement (.speedPrepare b) :=
  fun _ => ⟨⟨"SPEED.PREPARE", 0x25000000#32, 0xFFFFFFFE#32, false⟩, by decide, rfl, by cases b <;> simp only [encode] <;> decide⟩

theorem RowSpelling.speedCommit : RowSpelling.Statement .speedCommit :=
  fun _ => ⟨⟨"SPEED.COMMIT", 0x26000000#32, 0xFFFFFFFF#32, false⟩, by decide, rfl, by simp only [encode]; decide⟩

theorem RowSpelling.dbgStep : RowSpelling.Statement .dbgStep :=
  fun _ => ⟨⟨"DBG.STEP", 0x30000000#32, 0xFFFFFFFF#32, false⟩, by decide, rfl, by simp only [encode]; decide⟩

theorem RowSpelling.dbgKey (c : Byte) (p : Bool) : RowSpelling.Statement (.dbgKey c p) :=
  fun _ => ⟨⟨"DBG.KEY", 0x31000000#32, 0xFFFF00FE#32, false⟩, by decide, rfl,
    spells_of_fields (mo := 0xFF#8) (ma := 0xFF00#16) (md := 0xFE#8) (po := 0x31#8) (pa := 0x0000#16) (pd := 0x00#8) _
      (by decide) (by decide) (by decide) (by revert c; decide) (by cases p <;> decide)⟩

theorem RowSpelling.rdP1 : RowSpelling.Statement .rdP1 := fun _ => read_spells _

theorem RowSpelling.wrP1 (d : Byte) : RowSpelling.Statement (.wrP1 d) := fun _ => write_spells _ _

theorem RowSpelling.rdSb : RowSpelling.Statement .rdSb := fun _ => read_spells _

theorem RowSpelling.wrSb (d : Byte) : RowSpelling.Statement (.wrSb d) := fun _ => write_spells _ _

theorem RowSpelling.rdSc : RowSpelling.Statement .rdSc := fun _ => read_spells _

theorem RowSpelling.wrSc (d : Byte) : RowSpelling.Statement (.wrSc d) := fun _ => write_spells _ _

theorem RowSpelling.rdDiv : RowSpelling.Statement .rdDiv := fun _ => read_spells _

theorem RowSpelling.wrDiv (d : Byte) : RowSpelling.Statement (.wrDiv d) := fun _ => write_spells _ _

theorem RowSpelling.rdTima : RowSpelling.Statement .rdTima := fun _ => read_spells _

theorem RowSpelling.wrTima (d : Byte) : RowSpelling.Statement (.wrTima d) := fun _ => write_spells _ _

theorem RowSpelling.rdTma : RowSpelling.Statement .rdTma := fun _ => read_spells _

theorem RowSpelling.wrTma (d : Byte) : RowSpelling.Statement (.wrTma d) := fun _ => write_spells _ _

theorem RowSpelling.rdTac : RowSpelling.Statement .rdTac := fun _ => read_spells _

theorem RowSpelling.wrTac (d : Byte) : RowSpelling.Statement (.wrTac d) := fun _ => write_spells _ _

theorem RowSpelling.rdIf : RowSpelling.Statement .rdIf := fun _ => read_spells _

theorem RowSpelling.wrIf (d : Byte) : RowSpelling.Statement (.wrIf d) := fun _ => write_spells _ _

theorem RowSpelling.rdDma : RowSpelling.Statement .rdDma := fun _ => read_spells _

theorem RowSpelling.wrDma (d : Byte) : RowSpelling.Statement (.wrDma d) := fun _ => write_spells _ _

theorem RowSpelling.rdKey1 : RowSpelling.Statement .rdKey1 := fun _ => read_spells _

theorem RowSpelling.wrKey1 (d : Byte) : RowSpelling.Statement (.wrKey1 d) := fun _ => write_spells _ _

theorem RowSpelling.rdIe : RowSpelling.Statement .rdIe := fun _ => read_spells _

theorem RowSpelling.wrIe (d : Byte) : RowSpelling.Statement (.wrIe d) := fun _ => write_spells _ _

end Sys2Proof.Laws
end

