-- ==== Sys2Proof/Tests/Slice0.lean ====
section
/-! SUPPORT. The model's own tests. Every expected value is the spec's: the words are written out from the tables of
spec/30_encoding.md rules R49 and R50, the results come from spec/95_test_vectors.md (the vector's name stands beside
each) or from the example of the rule named. -/

namespace Sys2Proof.Tests

open Sys2Proof Sys2Proof.Machine

/-- The state an operation leaves. -/
def after (i : Instr) (s : State) : State :=
  match exec i s with
  | .next t => t
  | .fault _ => s
  | .refused _ => s

/-- The last thing the outside was told. -/
def said (s : State) : Option Event := s.output.head?

/-- An answer of the Instruction Execution Unit that performs nothing. -/
def idle (cycles : Nat) : IeuAnswer := ⟨[], [], cycles⟩

/-- The default parameters with a key code map: ASCII codes, 8 for backspace, 10 for newline, 96 for break-in. -/
def keyed : Config :=
  { Config.default with
    keyMap := [(97#8, .char 'a'), (8#8, .backspace), (10#8, .newline), (96#8, .breakIn)] }

/-- The base variant. -/
def baseVariant : Config := { Config.default with extended := false }

/-! ## WellFormed: one ill-formed term for each check (rule R50) -/

theorem test_wf_refuses_regRead_of_claimed : (Instr.regRead 0xFF04#16).wf Config.default = false := by decide
theorem test_wf_refuses_regWrite_of_claimed : (Instr.regWrite 0xFFFF#16 0#8).wf Config.default = false := by decide
theorem test_wf_refuses_rdKey1_on_base : Instr.rdKey1.wf baseVariant = false := by decide
theorem test_wf_refuses_wrKey1_on_base : (Instr.wrKey1 1#8).wf baseVariant = false := by decide
theorem test_wf_accepts : (Instr.regRead 0xC100#16).wf Config.default = true ∧ Instr.rdKey1.wf Config.default = true ∧
    (Instr.regRead 0xFF4D#16).wf baseVariant = true := by decide

/-! ## Decode: one word of every constructor, written out from rules R49 and R50 -/

theorem test_decode_step_and_bus :
    decodeTableWord 32 0x00000000 = some .step ∧
    decodeTableWord 32 0x01C10000 = some (.regRead 0xC100#16) ∧
    decodeTableWord 32 0x02FE00A5 = some (.regWrite 0xFE00#16 0xA5#8) ∧
    decodeTableWord 32 0x03000C00 = some (.cyclesRun 12#16) := by decide

theorem test_decode_interrupt :
    decodeTableWord 32 0x10000002 = some (.irqRaise .timer) ∧
    decodeTableWord 32 0x11000004 = some (.irqAck .joypad) ∧
    decodeTableWord 32 0x12000000 = some .imeRequest ∧
    decodeTableWord 32 0x13000001 = some (.imeWrite true) ∧
    decodeTableWord 32 0x14000000 = some .haltEnter ∧
    decodeTableWord 32 0x15000000 = some .stopEnter ∧
    decodeTableWord 32 0x01FF0F00 = some .rdIf ∧
    decodeTableWord 32 0x02FF0FFB = some (.wrIf 0xFB#8) ∧
    decodeTableWord 32 0x01FFFF00 = some .rdIe ∧
    decodeTableWord 32 0x02FFFF18 = some (.wrIe 0x18#8) := by decide

theorem test_decode_timer :
    decodeTableWord 32 0x20000000 = some .timerAdvance ∧
    decodeTableWord 32 0x01FF0400 = some .rdDiv ∧
    decodeTableWord 32 0x02FF0477 = some (.wrDiv 0x77#8) ∧
    decodeTableWord 32 0x01FF0500 = some .rdTima ∧
    decodeTableWord 32 0x02FF0505 = some (.wrTima 0x05#8) ∧
    decodeTableWord 32 0x01FF0600 = some .rdTma ∧
    decodeTableWord 32 0x02FF0611 = some (.wrTma 0x11#8) ∧
    decodeTableWord 32 0x01FF0700 = some .rdTac ∧
    decodeTableWord 32 0x02FF0705 = some (.wrTac 0x05#8) := by decide

theorem test_decode_serial_and_dma :
    decodeTableWord 32 0x21000000 = some .serialAdvance ∧
    decodeTableWord 32 0x01FF0100 = some .rdSb ∧
    decodeTableWord 32 0x02FF015A = some (.wrSb 0x5A#8) ∧
    decodeTableWord 32 0x01FF0200 = some .rdSc ∧
    decodeTableWord 32 0x02FF0281 = some (.wrSc 0x81#8) ∧
    decodeTableWord 32 0x22000000 = some .dmaAdvance ∧
    decodeTableWord 32 0x23C10000 = some (.dmaStart 0xC100#16) ∧
    decodeTableWord 32 0x01FF4600 = some .rdDma ∧
    decodeTableWord 32 0x02FF46C1 = some (.wrDma 0xC1#8) := by decide

theorem test_decode_joypad_speed_debug :
    decodeTableWord 32 0x24000004 = some (.joypadUpdate 0x04#8) ∧
    decodeTableWord 32 0x01FF0000 = some .rdP1 ∧
    decodeTableWord 32 0x02FF0020 = some (.wrP1 0x20#8) ∧
    decodeTableWord 32 0x25000001 = some (.speedPrepare true) ∧
    decodeTableWord 32 0x26000000 = some .speedCommit ∧
    decodeTableWord 32 0x01FF4D00 = some .rdKey1 ∧
    decodeTableWord 32 0x02FF4DFF = some (.wrKey1 0xFF#8) ∧
    decodeTableWord 32 0x30000000 = some .dbgStep ∧
    decodeTableWord 32 0x31006101 = some (.dbgKey 0x61#8 true) := by decide

/-- Reserved words are refused by name (rule R52, vector V-I1c). -/
theorem test_decode_refuses :
    decodeWord Config.default 0x10000005#32 = .refused .sourceOutOfRange ∧
    decodeWord Config.default 0x10000008#32 = .refused .nonzeroUnusedField ∧
    decodeWord Config.default 0x01C10001#32 = .refused .nonzeroUnusedField ∧
    decodeWord Config.default 0x31016101#32 = .refused .nonzeroUnusedField ∧
    decodeWord Config.default 0x13000002#32 = .refused .nonzeroUnusedField ∧
    decodeWord Config.default 0x04000000#32 = .refused (.reservedOp 0x04#8) ∧
    decodeWord Config.default 0xFF000000#32 = .refused (.reservedOp 0xFF#8) ∧
    (decodeBytes Config.default [0x20#8, 0#8, 0#8]).1 = .refused .truncated := by decide

/-- Without the speed switch the address of KEY1 is not the block's (rule R50). -/
theorem test_decode_key1_on_base :
    decodeWord baseVariant 0x01FF4D00#32 = .operation (.regRead 0xFF4D#16) ∧
    decodeWord baseVariant 0x02FF4D01#32 = .operation (.regWrite 0xFF4D#16 0x01#8) := by decide

/-- The first step after reset runs the word placed for it, and a word that spells nothing is refused. -/
theorem test_step_runs_fetched_word :
    step (State.reset.withFetchWord 32 0x20000000) = exec .timerAdvance State.reset ∧
    step (State.reset.withFetchWord 32 0x10000005) = .refused (.noOperation .sourceOutOfRange) := ⟨rfl, rfl⟩

/-! ## Interrupt lines (spec/95_test_vectors.md section 2.1) -/

theorem test_irqRaise : (after (.irqRaise .timer) State.reset).if_ = 0b00100#5 := by decide -- V-I1
theorem test_irqRaise_again :
    (after (.irqRaise .timer) { State.reset with if_ := 0b00100#5 }).if_ = 0b00100#5 := by decide -- V-I1b
theorem test_irqAck :
    let t := after (.irqAck .lcd) { State.reset with if_ := 0b10110#5, ime := true }
    t.if_ = 0b10100#5 ∧ t.ime = false := by decide -- V-I2
theorem test_imeRequest :
    let t := after .imeRequest State.reset
    t.ime = false ∧ t.ime_req = true := by decide -- V-I4
theorem test_imeWrite_clears :
    let t := after (.imeWrite false) { State.reset with ime := true, ime_req := true }
    t.ime = false ∧ t.ime_req = true := by decide -- V-I5
theorem test_imeWrite_sets : (after (.imeWrite true) State.reset).ime = true := by decide -- V-I6
theorem test_wrIf : (after (.wrIf 0xFB#8) { State.reset with if_ := 0b00100#5 }).if_ = 0b11011#5 := by decide -- V-I7
theorem test_rdIf :
    said (after .rdIf { State.reset with if_ := 0b00101#5 }) = some (.readResult 0xFF0F#16 0xE5#8) := by decide -- V-I8
theorem test_wrIe : (after (.wrIe 0xFF#8) State.reset).ie = 0b11111#5 := by decide -- V-I9
theorem test_rdIe :
    said (after .rdIe { State.reset with ie := 0b11111#5 }) = some (.readResult 0xFFFF#16 0x1F#8) := by decide -- V-I9

/-! ## Timer (section 2.2) -/

theorem test_timerAdvance_wraps :
    let t := after .timerAdvance { State.reset with div := 0xFFFF#16, tmr_on := true, tima := 0x07#8 }
    t.div = 0#16 ∧ t.tima = 0x08#8 := by decide -- V-T3
theorem test_timerAdvance_overflows :
    let t := after .timerAdvance { State.reset with div := 15#16, tmr_on := true, tmr_sel := 1#2, tima := 0xFF#8, tma := 0xAB#8 }
    t.tima = 0#8 ∧ t.lag = 4#3 ∧ t.if_ = 0#5 := by decide -- V-T4, V-T5
theorem test_wrDiv : (after (.wrDiv 0x77#8) { State.reset with div := 0x000F#16 }).div = 0#16 := by decide -- V-T10
theorem test_rdDiv :
    said (after .rdDiv { State.reset with div := 0x1234#16 }) = some (.readResult 0xFF04#16 0x12#8) := by decide -- V-T11
theorem test_wrTima : (after (.wrTima 0x05#8) { State.reset with lag := 2#3 }).tima = 0x05#8 := by decide -- V-T5
theorem test_wrTima_leaves_lag : (after (.wrTima 0x05#8) { State.reset with lag := 2#3 }).lag = 2#3 := by decide -- R77
theorem test_rdTima :
    said (after .rdTima { State.reset with tima := 0xAB#8 }) = some (.readResult 0xFF05#16 0xAB#8) := by decide -- R76
theorem test_wrTma : (after (.wrTma 0x11#8) State.reset).tma = 0x11#8 := by decide -- V-T6
theorem test_rdTma : said (after .rdTma State.reset) = some (.readResult 0xFF06#16 0x00#8) := by decide -- V-T14
theorem test_wrTac :
    let t := after (.wrTac 0xFF#8) State.reset
    t.tmr_on = true ∧ t.tmr_sel = 3#2 := by decide -- V-T13
theorem test_rdTac :
    said (after .rdTac { State.reset with tmr_on := true, tmr_sel := 1#2 }) = some (.readResult 0xFF07#16 0xFD#8) := by
  decide -- V-T12

/-! ## Serial port (section 2.3) -/

theorem test_serialAdvance_last_bit :
    let t := after .serialAdvance { State.reset with
      sb := 0x7F#8, ser_start := true, ser_internal := true, ser_clk := 511#9, ser_bits := 7#4 }
    t.sb = 0xFF#8 ∧ t.ser_clk = 0#9 ∧ t.ser_bits = 0#4 ∧ t.if_ = 0b01000#5 := by decide -- V-S1
theorem test_serialAdvance_fast :
    let t := after .serialAdvance { State.reset with
      ser_start := true, ser_internal := true, ser_fast := true, ser_clk := 15#9 }
    t.sb = 0x01#8 ∧ t.ser_clk = 16#9 ∧ t.ser_bits = 1#4 := by decide -- V-S2
theorem test_wrSb : (after (.wrSb 0x5A#8) State.reset).sb = 0x5A#8 := by decide -- V-S7
theorem test_rdSb :
    said (after .rdSb { State.reset with sb := 0x5A#8 }) = some (.readResult 0xFF01#16 0x5A#8) := by decide -- V-S7
theorem test_wrSc :
    let t := after (.wrSc 0x81#8) State.reset
    t.ser_start = true ∧ t.ser_fast = false ∧ t.ser_internal = true := by decide -- V-S4
theorem test_rdSc :
    said (after .rdSc { State.reset with ser_start := true, ser_internal := true }) =
      some (.readResult 0xFF02#16 0xFD#8) := by decide -- V-S6

/-! ## DMA (section 2.4) and the bus -/

theorem test_dmaStart :
    let t := after (.dmaStart 0xC100#16) { State.reset with dma_idx := 0xA0#8 }
    t.dma_src = 0xC100#16 ∧ t.dma_idx = 0#8 ∧ t.dma_active = true := by decide -- V-D1
theorem test_dmaAdvance_inactive :
    let t := after .dmaAdvance State.reset
    t.toBlock = State.reset.toBlock ∧ t.mem = [] := by decide -- V-D2
theorem test_dmaAdvance_reads_ie :
    let t := after .dmaAdvance { State.reset with
      ie := 0b10101#5, dma_src := 0xFFF0#16, dma_idx := 0x0F#8, dma_active := true }
    t.peek 0xFE0F#16 = 0x15#8 ∧ t.dma_idx = 0x10#8 := by decide -- V-D5
theorem test_wrDma : (after (.wrDma 0xC1#8) State.reset).dma_src = 0xC100#16 := by decide -- S4
theorem test_rdDma :
    said (after .rdDma { State.reset with dma_src := 0xC100#16 }) = some (.readResult 0xFF46#16 0xC1#8) := by
  decide -- V-D6
theorem test_regWrite : (after (.regWrite 0xC100#16 0xA5#8) State.reset).mem = [(0xC100, 0xA5#8)] := by decide -- R38
theorem test_regRead :
    said (after (.regRead 0xC100#16) { State.reset with mem := [(0xC100, 0xA5#8)] }) =
      some (.readResult 0xC100#16 0xA5#8) := by decide -- R37
theorem test_regRead_banked :
    (after (.regRead 0x0000#16) { State.reset with bankAnswers := [0x99#8] }).output =
      [.readResult 0x0000#16 0x99#8, .bankRead 0x0000#16 0x99#8] := by decide -- V-D5, R41

/-! ## Joypad (section 2.5) -/

theorem test_joypadUpdate_falling :
    (after (.joypadUpdate 0x01#8) { State.reset with sel_dir := true }).if_ = 0b10000#5 := by decide -- V-J1
theorem test_joypadUpdate_not_again :
    (after (.joypadUpdate 0x03#8) { State.reset with sel_dir := true, btn := 0x01#8 }).if_ = 0b00000#5 := by
  decide -- V-J1
theorem test_wrP1 :
    let t := after (.wrP1 0x20#8) { State.reset with btn := 0x01#8 }
    t.sel_dir = true ∧ t.sel_act = false ∧ t.if_ = 0#5 := by decide -- V-J5
theorem test_rdP1 :
    said (after .rdP1 { State.reset with btn := 0x01#8, sel_dir := true }) = some (.readResult 0xFF00#16 0xEE#8) := by
  decide -- V-J5

/-! ## Speed switch (section 2.6) -/

theorem test_speedPrepare : (after (.speedPrepare true) State.reset).prepared = true := by decide -- V-K1
theorem test_speedPrepare_base :
    (after (.speedPrepare true) { State.reset with cfg := baseVariant }).prepared = false := by decide -- V-K7
theorem test_speedCommit :
    let t := after .speedCommit { State.reset with prepared := true }
    t.fast = true ∧ t.prepared = false := by decide -- V-K3
theorem test_speedCommit_back : (after .speedCommit { State.reset with fast := true, prepared := true }).fast = false := by
  decide -- V-K4
theorem test_wrKey1 :
    let t := after (.wrKey1 0xFF#8) State.reset
    t.prepared = true ∧ t.fast = false := by decide -- V-K6
theorem test_rdKey1 : said (after .rdKey1 State.reset) = some (.readResult 0xFF4D#16 0x7E#8) := by decide -- V-K6

/-! ## Step sequencer (section 2.7) -/

theorem test_step_executes :
    (let t := after .step { State.reset with ieuAnswers := [idle 4], displayAnswers := [⟨false, false⟩] }
     t.div = 4#16 ∧ t.output = [.audioAdvance 4, .displayAdvance 4, .dispatchOne]) ∧ -- V-P1
    (let t := after .step { State.reset with
       ieuAnswers := [⟨[.regWrite 0xFFFF#16 0x15#8, .imeRequest], [.imeWrite true, .haltEnter, .stopEnter], 4⟩]
       displayAnswers := [⟨true, false⟩] }
     t.ie = 0b10101#5 ∧ t.ime_req = true ∧ t.ime = true ∧ t.halt = true ∧ t.stop = true ∧ t.if_ = 0b00001#5) := by
  decide -- R5, R7, R111: what the unit performs and a VBlank raise
theorem test_step_enters_highest :
    let t := after .step { State.reset with
      ie := 0b11100#5, if_ := 0b11011#5, ime := true, ieuAnswers := [idle 4], displayAnswers := [⟨false, false⟩] }
    t.if_ = 0b10011#5 ∧ t.ime = false ∧ t.output.getLast? = some (.dispatchInterrupt .serial 0x0058#16) := by
  decide -- V-I3, third line, with a count of 4
theorem test_cyclesRun :
    let t := after (.cyclesRun 3#16) { State.reset with fast := true, displayAnswers := [⟨false, true⟩] }
    t.div = 3#16 ∧ t.if_ = 0b00010#5 ∧ t.output = [.audioAdvance 1, .displayAdvance 1] := by
  decide -- R108, an odd count in fast mode; R7, an LCD-status raise
theorem test_haltEnter : (after .haltEnter State.reset).halt = true := by decide -- V-P16
theorem test_stopEnter : (after .stopEnter State.reset).stop = true := by decide -- V-P16
theorem test_halt_step :
    let t := after .step { State.reset with
      halt := true, ie := 0b00100#5, if_ := 0b00100#5, displayAnswers := [⟨false, false⟩] }
    t.halt = false ∧ t.div = 4#16 ∧ t.if_ = 0b00100#5 ∧ t.ime = false := by decide -- V-P2
theorem test_stop_step :
    let t := after .step { State.reset with
      stop := true, fast := true, prepared := true, div := 0xFFFF#16, displayAnswers := [⟨false, false⟩] }
    t.stop = false ∧ t.fast = false ∧ t.prepared = false ∧ t.div = 4#16 ∧ .displayAdvance 4 ∈ t.output := by
  decide -- V-P9

/-! ## Debug layer (scenarios S5 and S7) -/

theorem test_dbgStep_fires :
    let t := after .dbgStep { State.reset with
      tima := 0xFF#8
      session := ⟨.runningWithBreakpoints, [], 0, [⟨["tima".toList], .change, "254".toList⟩], []⟩ }
    t.div = 0#16 ∧ t.session.mode = .awaitingCommand ∧
      t.session.breakpoints = [⟨["tima".toList], .change, "255".toList⟩] := by decide -- S5, second line
theorem test_dbgStep_steps :
    let t := after .dbgStep { State.reset with
      ieuAnswers := [idle 4]
      displayAnswers := [⟨false, false⟩]
      session := ⟨.runningUnchecked, [], 0, [], []⟩ }
    t.div = 4#16 ∧ t.session.mode = .runningUnchecked := by decide -- R145
theorem test_dbgKey_newline :
    let t := after (.dbgKey 10#8 true) { State.reset with
      cfg := keyed
      session := ⟨.editingCommandLine, "brun".toList, 0, [], []⟩ }
    t.session.reports = [.unknownCmd "brun".toList] ∧ t.session.buffer = [] ∧ t.session.mode = .awaitingCommand := by
  decide -- S7, last line
theorem test_dbgKey_backspace :
    (after (.dbgKey 8#8 true) { State.reset with
      cfg := keyed
      session := ⟨.editingCommandLine, "br".toList, 0, [], []⟩ }).session.buffer = "b".toList := by decide -- S7
/-- The one report text the spec gives (rule R147). -/
theorem test_report_unknown : (Report.unknownCmd "brun".toList).text = "unknown cmd".toList := by decide

/-! ## Witnesses: for every statement with hypotheses, concrete objects that meet all of them together -/

/-- A state in which the host's next call is a command word. -/
def calling (w : Word) : State := { State.reset with pending := [.command w] }

/-- A timer one advance away from its overflow, with a reload value (vector V-T5). -/
def nearOverflow : State :=
  { State.reset with div := 15#16, tmr_on := true, tmr_sel := 1#2, tima := 0xFF#8, tma := 0xAB#8 }

/-- A session at the prompt with a line typed, under a key code map. -/
def typed (line : String) : State :=
  { State.reset with cfg := keyed, session := ⟨.editingCommandLine, line.toList, 0, [], []⟩ }

/-- A transfer of the serial port about to begin at standard speed. -/
def sending : State := { State.reset with ser_start := true, ser_internal := true }

/-- A machine in HALT mode with every source masked. -/
def haltedMasked : State := { State.reset with halt := true, if_ := 0b11111#5 }

theorem reset_Inv : State.reset.Inv := ⟨Laws.default_wf, by decide, by decide, by decide⟩

theorem witness_EncodedOperationDecodesToItself :
    Config.default.wf = true ∧ (Instr.dbgKey 0xFF#8 true).wf Config.default = true ∧
    baseVariant.wf = true ∧ (Instr.regWrite 0xFF4D#16 0xFF#8).wf baseVariant = true := by decide

theorem witness_DecodedWordIsTheEncodingOfItsOperation :
    decodeWord Config.default 0x3100FF01#32 = .operation (.dbgKey 0xFF#8 true) := by decide

theorem witness_WordDecodesExactlyWhenItSpellsARow :
    ∃ r ∈ opcodeTable, r.spells 0x10000004#32 = true := ⟨_, .tail _ (.tail _ (.tail _ (.tail _ (.head _)))), by decide⟩

theorem witness_WordWithoutRowIsRefusedByName :
    (∀ r ∈ opcodeTable, r.spells 0x10000005#32 = false) ∧ (calling 0x10000005#32).pending = .command 0x10000005#32 :: [] ∧
    Config.default.wf = true ∧ Config.default.claims .key1 = true := by decide

/-- Of EveryOperationCompletes as well. -/
theorem witness_StepPerformsTheDecodedOperation :
    (calling 0x20000000#32).pending = .command 0x20000000#32 :: [] ∧
    decodeWord (calling 0x20000000#32).cfg 0x20000000#32 = .operation .timerAdvance := by decide

/-- No call, the taking of a snapshot, snapshots at the edges of the invariants, an error of the serializer, and a direct
breakpoint command. -/
theorem witness_OtherHostCallsAreServedWhole :
    State.reset.pending = [] ∧ { State.reset with pending := [.setBreakpoint []] }.pending = .setBreakpoint [] :: [] ∧
    { State.reset with pending := [.snapshot] }.pending = .snapshot :: [] ∧
    { State.reset with pending := [.restoreError] }.pending = .restoreError :: [] ∧ { Block.reset with lag := 4#3, ser_bits := 7#4, dma_idx := 0xA0#8 }.inv = true ∧
    { Block.reset with lag := 5#3 }.inv = false ∧ { Block.reset with ser_bits := 8#4 }.inv = false ∧
    { Block.reset with dma_idx := 0xA1#8 }.inv = false ∧
    { Block.reset with dma_idx := 0xA0#8, dma_active := true }.inv = false := by decide

/-- Of EveryOperationKeepsTheInvariant, EveryStepKeepsTheInvariant, RunningCyclesBatchesTheTimer and
CyclesRunLeavesTheRestAlone, whose hypotheses are the invariant and a next state. -/
theorem witness_EveryOperationKeepsTheInvariant :
    State.reset.Inv ∧ exec .dmaAdvance State.reset = .next State.reset ∧ step State.reset = .next State.reset :=
  ⟨reset_Inv, rfl, rfl⟩

theorem witness_ButtonsChangeOnlyByJoypadUpdate :
    exec (.joypadUpdate 0x01#8) State.reset = .next (after (.joypadUpdate 0x01#8) State.reset) ∧
    (after (.joypadUpdate 0x01#8) State.reset).btn ≠ State.reset.btn := ⟨rfl, by decide⟩

theorem witness_ReadyMeansAnEnabledSourceIsPending :
    State.reset.toBlock.ie = { Block.reset with ime := true }.ie ∧
    State.reset.toBlock.if_ = { Block.reset with ime := true }.if_ := by decide

/-- Each of the ways a pending flag is cleared, on the Joypad flag. -/
theorem witness_PendingFlagsAreConsumedOnlyAtADispatchBoundary :
    let s : State := { State.reset with ie := 0b10000#5, if_ := 0b10000#5, ime := true, ieuAnswers := [idle 4], displayAnswers := [⟨false, false⟩] }
    s.Inv ∧ s.if_.getLsbD 4 = true ∧
    (after (.irqAck .joypad) s).if_.getLsbD 4 = false ∧ (after (.wrIf 0x0F#8) s).if_.getLsbD 4 = false ∧
    (after (.regWrite 0xFF0F#16 0x0F#8) s).if_.getLsbD 4 = false ∧ (after .step s).if_.getLsbD 4 = false := by
  refine ⟨⟨Laws.default_wf, by decide, by decide, by decide⟩, by decide, by decide, by decide, by decide, by decide⟩

/-- The last advance inside the window (n = 3) and the one after it (n = 4). -/
theorem witness_TimerFlagComesFourCyclesAfterTheOverflow :
    nearOverflow.tmr_on = true ∧ nearOverflow.lag = 0#3 ∧ nearOverflow.tima = 0xFF#8 ∧
    (nearOverflow.div + 1#16).toNat % period nearOverflow.tmr_sel = 0 ∧ 3 ≤ 4 ∧ 4 ≤ 4 := by decide

/-- The nonzero value 1 for TIMA, at the first and the last place inside the window. -/
theorem witness_WritesInsideTheLagWindow :
    nearOverflow.tmr_on = true ∧ nearOverflow.lag = 0#3 ∧ nearOverflow.tima = 0xFF#8 ∧
    (nearOverflow.div + 1#16).toNat % period nearOverflow.tmr_sel = 0 ∧ 0 ≤ 3 ∧ 3 ≤ 3 ∧ 1#8 ≠ 0#8 := by decide

/-- Of the statements that ask only for parameters that meet the spec's constraints: InterruptRegisterAccesses,
TimerRegisterReads, TimerRegisterWrites, SerialAdvanceMovesThePortByItsRule, SerialRegisterAccesses,
DmaStartAndRegisterAccesses, JoypadRegisterAccesses and NamedAccessIsTheGenericAccess. Both ends of the range of the
serial fast period, and both variants. -/
theorem witness_parameters :
    State.reset.cfg.wf = true ∧ { Config.default with serialFastPeriod := 1 }.wf = true ∧
    { Config.default with serialFastPeriod := 512 }.wf = true ∧ baseVariant.wf = true := by decide

theorem witness_StandardTransferTakes4096Advances :
    sending.ser_start = true ∧ sending.ser_internal = true ∧ sending.ser_fast = false ∧ sending.ser_clk = 0#9 ∧
    sending.ser_bits = 0#4 ∧ 4095 < 4096 := by decide

/-- An inactive scheduler, and an active one at its last byte. -/
theorem witness_DmaAdvanceCopiesOneByte :
    State.reset.dma_active = false ∧ State.reset.cfg.wf = true ∧
    { Block.reset with dma_active := true, dma_idx := 0x9F#8 }.dma_idx.toNat ≤ 0x9F := by decide

theorem witness_DmaTransferCopiesTheWholeWindow :
    State.reset.cfg.wf = true ∧
    (∀ i : Nat, i < 160 → State.reset.cfg.isExternal (0xC100#16 + BitVec.ofNat 16 i) = true) ∧
    (∀ i j : Nat, i < 160 → j < 160 → 0xC100#16 + BitVec.ofNat 16 i ≠ State.reset.cfg.oamBase + BitVec.ofNat 16 j) := by
  have hx : ((List.range 160).all fun i => State.reset.cfg.isExternal (0xC100#16 + BitVec.ofNat 16 i)) = true := by decide
  refine ⟨Laws.default_wf, fun i hi => List.all_eq_true.mp hx i (List.mem_range.mpr hi), ?_⟩
  intro i j hi hj h
  have e := congrArg BitVec.toNat h
  simp [State.reset, Config.default] at e
  omega

theorem witness_JoypadNibbleBits : 0 < 4 ∧ 3 < 4 := by decide

theorem witness_SpeedRegisterAccesses :
    Config.default.extended = true ∧ Config.default.wf = true ∧
    baseVariant.extended = false ∧ bankedWindow baseVariant.addrKey1 = false := by decide

/-- A commit and a STEP that change the mode; the program's sequence, with and without a switch prepared. -/
theorem witness_FastModeChangesOnlyAtACommit :
    (let s : State := { State.reset with prepared := true, stop := true, displayAnswers := [⟨false, false⟩] }
     (after .speedCommit s).fast ≠ s.fast ∧ (after .step s).fast ≠ s.fast) ∧
    State.reset.Inv ∧ State.reset.halt = false ∧ State.reset.cfg.extended = true ∧ State.reset.prepared = false :=
  ⟨by decide, reset_Inv, rfl, rfl, rfl⟩

/-- A STEP that ends HALT mode, and one that ends STOP mode. -/
theorem witness_LowPowerModesEndOnlyInAStep :
    (let s : State := { State.reset with halt := true, ie := 1#5, if_ := 1#5, displayAnswers := [⟨false, false⟩] }
     s.halt = true ∧ (after .step s).halt = false) ∧
    (let s : State := { State.reset with stop := true, displayAnswers := [⟨false, false⟩] }
     s.stop = true ∧ (after .step s).stop = false) := by decide

theorem witness_HaltStepWaitsForAReadySource :
    haltedMasked.Inv ∧ haltedMasked.halt = true ∧ haltedMasked.toBlock.ready = false ∧
    { Block.reset with halt := true, ie := 0b10000#5, if_ := 0b10000#5 }.ready = true :=
  ⟨⟨Laws.default_wf, by decide, by decide, by decide⟩, by decide, by decide, by decide⟩

theorem witness_StopStepAlwaysResumes :
    let s : State := { State.reset with stop := true }
    s.Inv ∧ s.halt = false ∧ s.stop = true := ⟨⟨Laws.default_wf, by decide, by decide, by decide⟩, rfl, rfl⟩

/-- An interrupt to enter, and none. -/
theorem witness_ExecutingStepInvokesTheUnitOnce :
    let s : State := { State.reset with ie := 0b10001#5, if_ := 0b10000#5, ime := true }
    s.halt = false ∧ s.stop = false ∧ s.ime = true ∧ s.toBlock.highest = some .joypad ∧
    State.reset.halt = false ∧ State.reset.stop = false ∧ (State.reset.ime = false ∨ State.reset.toBlock.ready = false) := by
  decide

/-- An instruction that writes IE and enters HALT mode. -/
theorem witness_EnableTakesEffectAfterOneInstruction :
    let s : State := { State.reset with ieuAnswers := [⟨[.regWrite 0xFFFF#16 0x1F#8], [.haltEnter], 4⟩] }
    let u := after .imeRequest s
    s.ime = false ∧ s.halt = false ∧ s.stop = false ∧
    (∀ o ∈ u.ieuAnswer.1.before ++ u.ieuAnswer.1.after, o ≠ .imeRequest ∧ ∀ v, o ≠ .imeWrite v) ∧ s.Inv := by
  refine ⟨rfl, rfl, rfl, ?_, ⟨Laws.default_wf, by decide, by decide, by decide⟩⟩
  intro o ho
  have : o = .regWrite 0xFFFF#16 0x1F#8 ∨ o = .haltEnter := by
    simpa [after, exec, execImeRequest, State.ieuAnswer, State.onBlock] using ho
  rcases this with rfl | rfl <;> exact ⟨nofun, nofun⟩

/-- The invariant with each clause's mode. -/
theorem witness_DividerCountsTheConsumedCycles :
    haltedMasked.Inv ∧ haltedMasked.halt = true ∧
    (let s : State := { State.reset with stop := true }; s.Inv ∧ s.halt = false ∧ s.stop = true) ∧
    (let s : State := { State.reset with ieuAnswers := [idle 4] }
     s.Inv ∧ s.halt = false ∧ s.stop = false ∧ s.ieuAnswer.1.before = [] ∧ s.ieuAnswer.1.after = []) :=
  ⟨⟨Laws.default_wf, by decide, by decide, by decide⟩, rfl,
    ⟨⟨Laws.default_wf, by decide, by decide, by decide⟩, rfl, rfl⟩,
    ⟨⟨Laws.default_wf, by decide, by decide, by decide⟩, rfl, rfl, rfl, rfl⟩⟩

theorem witness_HaltWithEverySourceMaskedNeverEnds :
    haltedMasked.Inv ∧ haltedMasked.halt = true ∧ haltedMasked.ie = 0#5 :=
  ⟨⟨Laws.default_wf, by decide, by decide, by decide⟩, rfl, rfl⟩

/-- Of ExecutingStepInvokesTheUnitOnce, CyclesRunHandsTheRealTimeCountOver and BankedAccessGoesToTheController: a
collaborator with no answer given takes a free value, and one with an answer gives it. -/
theorem test_hyp_answers :
    State.reset.ieuAnswers = [] ∧ State.reset.displayAnswers = [] ∧ State.reset.bankAnswers = [] ∧
    State.reset.ieuAnswer.2.fresh = 1 ∧ State.reset.displayAnswer.2.fresh = 1 ∧ State.reset.bankAnswer.2.fresh = 1 ∧
    ({ State.reset with ieuAnswers := [idle 4, idle 8] } : State).ieuAnswer.2.ieuAnswers = [idle 8] ∧
    ({ State.reset with displayAnswers := [⟨true, false⟩] } : State).displayAnswer.1 = ⟨true, false⟩ ∧
    ({ State.reset with bankAnswers := [0x99#8] } : State).bankAnswer.1 = 0x99#8 := by decide

/-- Of ReadsChangeNothing, ExternalWriteIsReadBack and BankedAccessGoesToTheController: an external, a claimed and a banked address, at the edges of the windows. -/
theorem witness_bus :
    Config.default.isExternal 0x8000#16 = true ∧ Config.default.isExternal 0xFFFE#16 = true ∧
    Config.default.claimed 0xFFFF#16 = some .ieReg ∧ bankedWindow 0x8000#16 = false ∧
    Config.default.claimed 0x7FFF#16 = none ∧ bankedWindow 0x7FFF#16 = true ∧
    Config.default.claimed 0xA000#16 = none ∧ bankedWindow 0xA000#16 = true ∧
    bankedWindow 0xBFFF#16 = true ∧ bankedWindow 0xC000#16 = false := by decide

/-- Each mode, and each result of the evaluation of the breakpoints: no breakpoint, one that fires, one that does not
resolve; and the break-in key ending a run. -/
theorem witness_DebugStepByMode :
    State.reset.session.mode = .awaitingCommand ∧ (typed "a").session.mode = .editingCommandLine ∧
    Block.reset.tick [] = .quiet ∧
    Block.reset.tick [⟨["div".toList], .eq, "0".toList⟩] = .hit [⟨["div".toList], .eq, "0".toList⟩] ∧
    Block.reset.tick [⟨["pc".toList], .change, "0".toList⟩] = .fatal ∧
    (let s := { typed "a" with session := { (typed "a").session with mode := .runningWithBreakpoints } }
     s.session.mode = .runningWithBreakpoints ∧
     (after (.dbgKey 96#8 true) s).session.mode ≠ .runningWithBreakpoints) := by decide

/-- A release, a held key, an unmapped code; a new press of each kind of key; and the modes at the edge of taking keys. -/
theorem witness_KeyEventsEditTheCommandLine :
    let s := typed "a"
    s.session.keyDown 97#8 = false ∧ s.keyOf 97#8 = some (.char 'a') ∧ s.keyOf 8#8 = some .backspace ∧
    s.keyOf 96#8 = some .breakIn ∧ s.keyOf 0xFF#8 = none ∧ s.session.takesKeys = true ∧
    (s.session.setKey 97#8 true).keyDown 97#8 = true ∧
    (⟨.runningUnchecked, [], 0, [], []⟩ : DebuggerSession).takesKeys = true ∧
    (⟨.runningWithBreakpoints, [], 0, [], []⟩ : DebuggerSession).takesKeys = false := by decide

/-- A line for each clause. -/
theorem witness_NewlineDispatchesTheCommand :
    (typed "run").session.keyDown 10#8 = false ∧ (typed "run").keyOf 10#8 = some .newline ∧
    (typed "run").session.takesKeys = true ∧ tokens (typed " ").session.buffer = [] ∧
    tokens (typed "brun").session.buffer = ["brun".toList] ∧ tokens (typed "run").session.buffer = ["run".toList] ∧
    tokens (typed "x").session.buffer = ["x".toList] ∧ tokens (typed "call").session.buffer = ["call".toList] ∧
    tokens (typed "break div").session.buffer = ["break".toList, "div".toList] ∧
    tokens (typed "x pc").session.buffer = ["x".toList, "pc".toList] ∧
    Block.reset.evaluatePath (pathNames "pc".toList) = none ∧
    tokens (typed "call RESET").session.buffer = ["call".toList, "RESET".toList] ∧
    methodOf (pathNames "RESET".toList) = none ∧
    tokens (typed "x div").session.buffer = ["x".toList, "div".toList] ∧
    Block.reset.evaluatePath (pathNames "div".toList) = some (.leaf 0) ∧
    tokens (typed "call TIMER.ADVANCE").session.buffer = ["call".toList, "TIMER.ADVANCE".toList] ∧
    methodOf (pathNames "TIMER.ADVANCE".toList) = some .timerAdvance := by decide

theorem witness_SetBreakpointStoresItsBaseline :
    State.reset.toBlock.evaluatePath (pathNames "TimerState.tima".toList) = some (.leaf 0) ∧
    State.reset.toBlock.evaluatePath (pathNames "TimerState.pc".toList) = none ∧ "EQ".toList ∈ ["EQ".toList, "NEQ".toList] ∧
    "LT".toList ∉ ["CHANGE".toList, "EQ".toList, "NEQ".toList] := by decide

/-- A composite, a leaf and an absent name. -/
theorem witness_PathsResolveOneNameAtATime :
    named "SpeedState".toList Block.reset.registry =
      some (.composite [("fast".toList, 0), ("prepared".toList, 0)]) ∧
    named "div".toList Block.reset.registry = some (.leaf 0) ∧ named "pc".toList Block.reset.registry = none := by decide

theorem witness_KeysReachTheBlockOnlyThroughCall :
    (after (.dbgKey 10#8 true) (typed "call TIMER.ADVANCE")).toBlock ≠ (typed "call TIMER.ADVANCE").toBlock := by decide

theorem witness_DebuggerSessionIsInvisibleToTheBlock :
    Instr.timerAdvance ≠ .dbgStep ∧ (∀ c p, Instr.timerAdvance ≠ .dbgKey c p) ∧
    exec .timerAdvance State.reset = .next (after .timerAdvance State.reset) :=
  ⟨by decide, fun _ _ => Instr.noConfusion, rfl⟩

end Sys2Proof.Tests
end

section
/-! The host and its calls (spec/00_scope.md): one law per kind of call, what every operation leaves of the host's side
of the state, and the accesses the Memory Bank Controller serves. -/

namespace Sys2Proof.Proofs

open Sys2Proof.Machine Sys2Proof.Laws

/-! ## One step, by the call that waits -/

/-- A word that spells an operation has it performed, off the list of waiting calls (rules R3, R9). -/
theorem step_of_operation {s : State} {w : Word} {rest : List HostCall} {i : Instr}
    (hp : s.pending = .command w :: rest) (hd : decodeWord s.cfg w = .operation i) :
    step s = exec i (s.afterCall rest) := by
  simp [step, hp, hd]

/-- A word that spells none is refused under the decoder's own reason (rule R52). -/
theorem step_of_refused {s : State} {w : Word} {rest : List HostCall} {e : DecodeError}
    (hp : s.pending = .command w :: rest) (hd : decodeWord s.cfg w = .refused e) :
    step s = .refused (.noOperation e) := by
  simp [step, hp, hd]

/-- With no call waiting nothing moves (rule R3). -/
theorem step_of_noCall {s : State} (hp : s.pending = []) : step s = .next s := by
  simp [step, hp]

/-- The taking of a snapshot (rule R8). -/
theorem step_of_snapshot {s : State} {rest : List HostCall} (hp : s.pending = .snapshot :: rest) :
    step s = .next (s.afterCall rest).takeSnapshot := by
  simp [step, hp]

/-- A snapshot inside the invariants replaces the block (rules R8, R35). -/
theorem step_of_restore {s : State} {b : Block} {rest : List HostCall} (hp : s.pending = .restore b :: rest)
    (hb : b.inv = true) : step s = .next ((s.afterCall rest).restoreSnapshot b) := by
  simp [step, hp, hb]

/-- A snapshot outside the invariants is refused (treatment U2). -/
theorem step_of_restore_refused {s : State} {b : Block} {rest : List HostCall} (hp : s.pending = .restore b :: rest)
    (hb : b.inv = false) : step s = .refused .snapshotOutsideInvariants := by
  simp [step, hp, hb]

/-- An error of the State Serializer is passed on (rule R8). -/
theorem step_of_restoreError {s : State} {rest : List HostCall} (hp : s.pending = .restoreError :: rest) :
    step s = .next (s.afterCall rest).failRestore := by
  simp [step, hp]

/-- A direct `set_breakpoint_command` (rule R9). -/
theorem step_of_setBreakpoint {s : State} {args : List Text} {rest : List HostCall}
    (hp : s.pending = .setBreakpoint args :: rest) : step s = .next ((s.afterCall rest).setBreakpoint args) := by
  simp [step, hp]

/-! ## What an operation leaves of the host's side -/

/-- The parameters and the host's waiting calls stay. Unlike `CycleFrame` it asks nothing of the state it starts from. -/
structure HostFrame (s t : State) : Prop where
  cfg : t.cfg = s.cfg
  pending : t.pending = s.pending

theorem HostFrame.refl (s : State) : HostFrame s s := ⟨rfl, rfl⟩

theorem HostFrame.trans {s t u : State} (h : HostFrame s t) (g : HostFrame t u) : HostFrame s u :=
  ⟨g.cfg.trans h.cfg, g.pending.trans h.pending⟩

theorem onBlock_hostFrame (f : Block → Block) (s : State) : HostFrame s (s.onBlock f) := ⟨rfl, rfl⟩

theorem onSession_hostFrame (f : DebuggerSession → DebuggerSession) (s : State) : HostFrame s (s.onSession f) :=
  ⟨rfl, rfl⟩

theorem emit_hostFrame (e : Event) (s : State) : HostFrame s (s.emit e) := ⟨rfl, rfl⟩

theorem readOp_hostFrame (a : Addr) (s : State) : HostFrame s (s.readOp a) := ⟨readOp_cfg a s, readOp_pending a s⟩

theorem busWrite_hostFrame (a : Addr) (d : Byte) (s : State) : HostFrame s (s.busWrite a d) :=
  ⟨busWrite_cfg a d s, busWrite_pending a d s⟩

theorem readReg_hostFrame (r : Reg) (s : State) : HostFrame s (s.readReg r) := ⟨readReg_cfg r s, readReg_pending r s⟩

theorem writeReg_hostFrame (r : Reg) (d : Byte) (s : State) : HostFrame s (s.writeReg r d) :=
  ⟨writeReg_cfg r d s, writeReg_pending r d s⟩

/-- The copied byte goes over the bus, which leaves the host's side alone wherever it lands (rule R89). -/
theorem dmaAdvance_hostFrame (s : State) : HostFrame s s.dmaAdvance := by
  unfold State.dmaAdvance
  split
  · exact ⟨by simp [State.dmaCopy], by simp [State.dmaCopy]⟩
  · exact .refl s

theorem cycle_hostFrame (s : State) : HostFrame s s.cycle := by
  rw [cycle_eq]
  exact ((onBlock_hostFrame _ s).trans (onBlock_hostFrame _ _)).trans (dmaAdvance_hostFrame _)

theorem runLoop_hostFrame (n : Nat) (s : State) : HostFrame s (State.runLoop n s) := by
  induction n generalizing s with
  | zero => exact .refl s
  | succ n ih => exact (cycle_hostFrame s).trans (ih s.cycle)

theorem displayAdvance_hostFrame (m : Nat) (s : State) : HostFrame s (s.displayAdvance m) :=
  have h := displayAdvance_frame m s
  ⟨h.cfg, h.pending⟩

theorem runCycles_hostFrame (n : Nat) (s : State) : HostFrame s (s.runCycles n) :=
  ((runLoop_hostFrame n s).trans (displayAdvance_hostFrame _ _)).trans (emit_hostFrame _ _)

theorem ieuOp_hostFrame (o : IeuOp) (s : State) : HostFrame s (s.ieuOp o) := by
  cases o with
  | regRead a => exact readOp_hostFrame a s
  | regWrite a d => exact busWrite_hostFrame a d s
  | imeRequest | imeWrite _ | haltEnter | stopEnter => exact ⟨rfl, rfl⟩

theorem ieuOps_hostFrame (os : List IeuOp) (s : State) : HostFrame s (State.ieuOps os s) := by
  induction os generalizing s with
  | nil => exact .refl s
  | cons o os ih => exact (ieuOp_hostFrame o s).trans (ih (s.ieuOp o))

theorem executeOne_hostFrame (ans : IeuAnswer) (s : State) : HostFrame s (s.executeOne ans) :=
  (emit_hostFrame _ s).trans (ieuOps_hostFrame _ _)

theorem enterInterrupt_hostFrame (k : Source) (ans : IeuAnswer) (s : State) : HostFrame s (s.enterInterrupt k ans) :=
  (((emit_hostFrame _ s).trans (ieuOps_hostFrame _ _)).trans (onBlock_hostFrame _ _)).trans (ieuOps_hostFrame _ _)

/-- Whatever the Instruction Execution Unit performs, on either path (rule R111). -/
theorem dispatch_hostFrame (irq : Option Source) (s : State) : HostFrame s (s.dispatch irq).2 := by
  have ha : HostFrame s s.ieuAnswer.2 := ⟨ieuAnswer_cfg s, ieuAnswer_pending s⟩
  cases irq with
  | none => exact ha.trans (executeOne_hostFrame _ _)
  | some k => exact ha.trans (enterInterrupt_hostFrame k _ _)

theorem haltStep_hostFrame (s : State) : HostFrame s s.haltStep := by
  have hr := runCycles_hostFrame Config.wakeCycles s
  unfold State.haltStep
  split
  · exact hr.trans (onBlock_hostFrame _ _)
  · exact hr

theorem stopStep_hostFrame (s : State) : HostFrame s s.stopStep :=
  ((onBlock_hostFrame _ s).trans (onBlock_hostFrame _ _)).trans
    ((runCycles_hostFrame _ _).trans (onBlock_hostFrame _ _))

theorem executeStep_hostFrame (s : State) : HostFrame s s.executeStep :=
  ((onBlock_hostFrame _ s).trans (dispatch_hostFrame _ _)).trans (runCycles_hostFrame _ _)

theorem stepOnce_hostFrame (s : State) : HostFrame s s.stepOnce := by
  unfold State.stepOnce
  split
  · exact haltStep_hostFrame s
  · split
    · exact stopStep_hostFrame s
    · exact executeStep_hostFrame s

theorem debugStep_hostFrame (s : State) : HostFrame s s.debugStep := by
  rcases debugStep_cases s with e | e | ⟨f, e⟩ <;> rw [e]
  · exact .refl s
  · exact stepOnce_hostFrame s
  · exact onSession_hostFrame f s

theorem invoke_hostFrame (m : Method) (s : State) : HostFrame s (s.invoke m) := by
  cases m with
  | step => exact stepOnce_hostFrame s
  | dmaAdvance => exact dmaAdvance_hostFrame s
  | dbgStep => exact debugStep_hostFrame s
  | imeRequest | haltEnter | stopEnter | timerAdvance | serialAdvance | speedCommit => exact ⟨rfl, rfl⟩

theorem debugKey_hostFrame (c : Byte) (p : Bool) (s : State) : HostFrame s (s.debugKey c p) := by
  rcases debugKey_cases c p s with ⟨f, e⟩ | ⟨-, -, -, -, path, more, m, f, -, -, -, e⟩ <;> rw [e]
  · exact onSession_hostFrame f s
  · exact (onSession_hostFrame f s).trans (invoke_hostFrame m _)

/-- Every operation answers a next state with the host's side as it was (rule R4). -/
theorem exec_completes (i : Instr) (s : State) : ∃ t, exec i s = .next t ∧ HostFrame s t := by
  cases i with
  | step => exact ⟨_, rfl, stepOnce_hostFrame s⟩
  | regRead a => exact ⟨_, rfl, readOp_hostFrame a s⟩
  | regWrite a d => exact ⟨_, rfl, busWrite_hostFrame a d s⟩
  | cyclesRun n => exact ⟨_, rfl, runCycles_hostFrame n.toNat s⟩
  | irqRaise _ | irqAck _ | imeRequest | imeWrite _ | haltEnter | stopEnter | timerAdvance | serialAdvance
  | dmaStart _ | joypadUpdate _ | speedCommit => exact ⟨_, rfl, onBlock_hostFrame _ s⟩
  | dmaAdvance => exact ⟨_, rfl, dmaAdvance_hostFrame s⟩
  | speedPrepare b =>
    refine ⟨_, rfl, ?_⟩
    split
    · exact onBlock_hostFrame _ s
    · exact .refl s
  | dbgStep => exact ⟨_, rfl, debugStep_hostFrame s⟩
  | dbgKey c p => exact ⟨_, rfl, debugKey_hostFrame c p s⟩
  | rdP1 | rdSb | rdSc | rdDiv | rdTima | rdTma | rdTac | rdIf | rdDma | rdKey1 | rdIe =>
    exact ⟨_, rfl, readReg_hostFrame _ s⟩
  | wrP1 d | wrSb d | wrSc d | wrDiv d | wrTima d | wrTma d | wrTac d | wrIf d | wrDma d | wrKey1 d | wrIe d =>
    exact ⟨_, rfl, writeReg_hostFrame _ d s⟩

/-! ## Accesses the Memory Bank Controller serves -/

/-- A write inside a controller window is told to the controller and stored nowhere (rules R6, R38). -/
theorem busWrite_banked {s : State} {a : Addr} (hc : s.cfg.claimed a = none) (hb : bankedWindow a = true) (v : Byte) :
    s.busWrite a v = s.emit (.bankWrite a v) := by
  simp [State.busWrite, hc, State.externalWrite, hb]

/-- A read inside a controller window takes the controller's next answer (rules R6, R37). -/
theorem busRead_banked {s : State} {a : Addr} (hc : s.cfg.claimed a = none) (hb : bankedWindow a = true) :
    s.busRead a = (s.bankAnswer.1, s.bankAnswer.2.emit (.bankRead a s.bankAnswer.1)) := by
  simp [State.busRead, hc, State.externalRead, hb]

/-- The read as the outside hears it: the controller's call, then the byte it answered. -/
theorem readOp_banked {s : State} {a : Addr} (hc : s.cfg.claimed a = none) (hb : bankedWindow a = true) :
    s.readOp a =
      { s.bankAnswer.2 with output := .readResult a s.bankAnswer.1 :: .bankRead a s.bankAnswer.1 :: s.output } := by
  simp [State.readOp, busRead_banked hc hb, State.emit]

/-- A given answer is the one taken, and it is used up (log 8). -/
theorem bankAnswer_of_given {s : State} {v : Byte} {rest : List Byte} (h : s.bankAnswers = v :: rest) :
    s.bankAnswer = (v, { s with bankAnswers := rest }) := by
  simp [State.bankAnswer, h]

/-- With no answer given, one more free value is used up (log 8). -/
theorem bankAnswer_of_none {s : State} (h : s.bankAnswers = []) :
    s.bankAnswer = (Config.freeBankByte s.fresh, { s with fresh := s.fresh + 1 }) := by
  simp [State.bankAnswer, h]

/-! ## The obligations -/

/-- Settles O6: the step's branch on a command word, with the decoder's answer put in. -/
theorem stepPerformsTheDecodedOperation : Obligations.StepPerformsTheDecodedOperation :=
  fun _ _ _ _ hp hd => step_of_operation hp hd

/-- Settles O7: one law per kind of call; `break` touches the session alone by `setBreakpoint_cases`. -/
theorem otherHostCallsAreServedWhole : Obligations.OtherHostCallsAreServedWhole := by
  refine ⟨fun _ => step_of_noCall, fun _ _ => step_of_snapshot, fun _ _ _ => step_of_restore,
    fun _ _ _ => step_of_restore_refused, fun _ _ => step_of_restoreError, fun s args rest hp => ?_⟩
  obtain ⟨f, hf⟩ := setBreakpoint_cases args (s.afterCall rest)
  exact ⟨f s.session, by rw [step_of_setBreakpoint hp, hf]; rfl⟩

/-- Settles O8: `exec_completes` for every operation, and for a command step the two answers of the decoder. -/
theorem everyOperationCompletes : Obligations.EveryOperationCompletes := by
  refine ⟨fun i s => ?_, fun s w rest hp => ?_⟩
  · obtain ⟨t, ht, hcfg, hpending⟩ := exec_completes i s
    exact ⟨t, ht, hcfg, hpending⟩
  · cases hd : decodeWord s.cfg w with
    | operation i =>
      obtain ⟨t, ht, -⟩ := exec_completes i (s.afterCall rest)
      exact .inl ⟨i, t, rfl, (step_of_operation hp hd).trans ht⟩
    | refused e => exact .inr ⟨e, rfl, step_of_refused hp hd⟩

/-- Settles O52: the two banked accesses as exact next states, and the controller's answer given or free. -/
theorem bankedAccessGoesToTheController : Obligations.BankedAccessGoesToTheController := by
  intro s a d hc hb
  refine ⟨congrArg _ (busWrite_banked hc hb d), congrArg _ (readOp_banked hc hb), fun _ _ => bankAnswer_of_given, ?_,
    bankAnswer_toBlock s, bankAnswer_mem s⟩
  exact fun h => congrArg Prod.snd (bankAnswer_of_none h)

end Sys2Proof.Proofs
end

section
/-! The state (spec/10_state.md): its values after reset, the invariant of rule R35 under every operation and every step,
and what holds of the buttons and of the low-power modes in every state, whether or not it meets the invariant. -/

namespace Sys2Proof.Proofs

open Sys2Proof.Machine Sys2Proof.Laws

/-! ## Every operation keeps the invariant -/

/-- A change that keeps the block's invariant in every block keeps the machine's. -/
theorem onBlock_keeps_Inv {s : State} (h : s.Inv) {f : Block → Block}
    (hf : ∀ b : Block, b.inv = true → (f b).inv = true) : (s.onBlock f).Inv := by
  have ⟨_, hblock, _, _⟩ := h
  exact onBlock_Inv h (hf s.toBlock hblock)

/-- A new button state leaves the counters the invariant speaks of (rules R35, R93). -/
theorem joypadUpdate_inv (d : Byte) (b : Block) (h : b.inv = true) : (b.joypadUpdate d).inv = true := by
  unfold Block.joypadUpdate Block.raiseIf
  split <;> exact h

/-- A new transfer starts at index 0 (rules R35, R88). -/
theorem dmaStart_inv (a : Addr) (b : Block) (h : b.inv = true) : (b.dmaStart a).inv = true := by
  obtain ⟨hlag, hbits, -, -⟩ := (inv_iff b).mp h
  exact (inv_iff _).mpr ⟨hlag, hbits, Nat.zero_le _, fun _ => Nat.zero_le _⟩

/-- What every operation answers in a state that meets the invariant meets it (rule R35). -/
theorem exec_Inv (i : Instr) {s : State} (h : s.Inv) : ∃ t, exec i s = .next t ∧ t.Inv := by
  cases i with
  | step => exact ⟨_, rfl, stepOnce_Inv h⟩
  | regRead a => exact ⟨_, rfl, readOp_Inv h a⟩
  | regWrite a d => exact ⟨_, rfl, busWrite_Inv h a d⟩
  | cyclesRun n => exact ⟨_, rfl, runCycles_Inv n.toNat h⟩
  | irqRaise _ | irqAck _ | imeRequest | imeWrite _ | haltEnter | stopEnter =>
    exact ⟨_, rfl, onBlock_keeps_Inv h fun _ hb => hb⟩
  | timerAdvance => exact ⟨_, rfl, onBlock_keeps_Inv h timerAdvance_inv⟩
  | serialAdvance => exact ⟨_, rfl, onBlock_keeps_Inv h (serialAdvance_inv s.cfg)⟩
  | dmaAdvance => exact ⟨_, rfl, dmaAdvance_Inv h⟩
  | dmaStart a => exact ⟨_, rfl, onBlock_keeps_Inv h (dmaStart_inv a)⟩
  | joypadUpdate d => exact ⟨_, rfl, onBlock_keeps_Inv h (joypadUpdate_inv d)⟩
  | speedPrepare b =>
    refine ⟨_, rfl, ?_⟩
    split
    · exact onBlock_keeps_Inv h fun _ hb => hb
    · exact h
  | speedCommit => exact ⟨_, rfl, onBlock_keeps_Inv h speedCommit_inv⟩
  | dbgStep => exact ⟨_, rfl, debugStep_Inv h⟩
  | dbgKey c p => exact ⟨_, rfl, debugKey_Inv h c p⟩
  | rdP1 | rdSb | rdSc | rdDiv | rdTima | rdTma | rdTac | rdIf | rdDma | rdKey1 | rdIe =>
    exact ⟨_, rfl, readReg_Inv h _⟩
  | wrP1 d | wrSb d | wrSc d | wrDiv d | wrTima d | wrTma d | wrTac d | wrIf d | wrDma d | wrKey1 d | wrIe d =>
    exact ⟨_, rfl, writeReg_Inv h _ d⟩

/-! ## Every step keeps the invariant -/

/-- The waiting calls are no part of the invariant. -/
theorem afterCall_Inv {s : State} (h : s.Inv) (rest : List HostCall) : (s.afterCall rest).Inv := Inv_congr h rfl rfl rfl

/-- A snapshot replaces the block alone, so its own invariant is all that is asked of it (rules R8, R35). -/
theorem restoreSnapshot_Inv {s : State} (h : s.Inv) {b : Block} (hb : b.inv = true) : (s.restoreSnapshot b).Inv :=
  onBlock_Inv (f := fun _ => b) h hb

theorem setBreakpoint_Inv {s : State} (h : s.Inv) (args : List Text) : (s.setBreakpoint args).Inv := by
  obtain ⟨f, hf⟩ := setBreakpoint_cases args s
  rw [hf]
  exact onSession_Inv h f

/-! ## The buttons and the low-power modes -/

/-- The buttons stay and no low-power mode ends; HALT.ENTER and STOP.ENTER may begin one. Unlike `BlockFrame` it allows
every register write, so it holds of a DMA cycle in every state, wherever its byte lands. -/
structure ModeFrame (b c : Block) : Prop where
  btn : c.btn = b.btn
  halt : b.halt = true → c.halt = true
  stop : b.stop = true → c.stop = true

theorem ModeFrame.refl (b : Block) : ModeFrame b b := ⟨rfl, id, id⟩

theorem ModeFrame.trans {a b c : Block} (h : ModeFrame a b) (g : ModeFrame b c) : ModeFrame a c :=
  ⟨g.btn.trans h.btn, g.halt ∘ h.halt, g.stop ∘ h.stop⟩

/-- An equal block is within the frame. -/
theorem ModeFrame.of_eq {b c : Block} (h : c = b) : ModeFrame b c := h ▸ .refl b

/-- What no advance touches includes the buttons and both modes. -/
theorem ModeFrame.of_blockFrame {b c : Block} (h : BlockFrame b c) : ModeFrame b c :=
  ⟨h.btn, h.halt.trans, h.stop.trans⟩

/-- A change of the block within the frame, made to the state. -/
theorem onBlock_modeFrame {s : State} {f : Block → Block} (h : ModeFrame s.toBlock (f s.toBlock)) :
    ModeFrame s.toBlock (s.onBlock f).toBlock := h

/-- No register holds the buttons or a mode (rules R22 to R32). -/
theorem regWrite_modeFrame (d : Byte) (b : Block) (r : Reg) : ModeFrame b (b.regWrite d r) := by
  cases r <;> exact ⟨rfl, id, id⟩

theorem busWrite_modeFrame (a : Addr) (d : Byte) (s : State) : ModeFrame s.toBlock (s.busWrite a d).toBlock := by
  rcases busWrite_cases a d s with ⟨r, -, e⟩ | ⟨-, -, e⟩ | ⟨-, e⟩ <;> rw [e]
  · exact regWrite_modeFrame d s.toBlock r
  · exact .refl _
  · exact .refl _

theorem writeReg_modeFrame (r : Reg) (d : Byte) (s : State) : ModeFrame s.toBlock (s.writeReg r d).toBlock := by
  unfold State.writeReg
  split
  · exact regWrite_modeFrame d s.toBlock r
  · exact .of_eq (externalWrite_toBlock _ d s)

theorem speedCommit_modeFrame (b : Block) : ModeFrame b b.speedCommit := by
  unfold Block.speedCommit
  split <;> exact ⟨rfl, id, id⟩

theorem applyImeRequest_modeFrame (b : Block) : ModeFrame b b.applyImeRequest := by
  unfold Block.applyImeRequest
  split <;> exact ⟨rfl, id, id⟩

/-- The copied byte goes over the bus, to a register where the window overlaps one (rule R89). -/
theorem dmaAdvance_modeFrame (s : State) : ModeFrame s.toBlock s.dmaAdvance.toBlock := by
  unfold State.dmaAdvance
  split
  · have hread := ModeFrame.of_eq (busRead_toBlock s.toBlock.dmaSource s)
    have hcopy : ModeFrame s.toBlock s.dmaCopy.toBlock := hread.trans (busWrite_modeFrame _ _ _)
    exact hcopy.trans ⟨rfl, id, id⟩
  · exact .refl _

theorem cycle_modeFrame (s : State) : ModeFrame s.toBlock s.cycle.toBlock := by
  rw [cycle_eq]
  have htimer := onBlock_modeFrame (s := s) (.of_blockFrame (timerAdvance_frame _))
  have hserial := onBlock_modeFrame (s := s.onBlock Block.timerAdvance) (.of_blockFrame (serialAdvance_frame s.cfg _))
  exact (htimer.trans hserial).trans (dmaAdvance_modeFrame _)

theorem runLoop_modeFrame (n : Nat) (s : State) : ModeFrame s.toBlock (State.runLoop n s).toBlock := by
  induction n generalizing s with
  | zero => exact .refl _
  | succ n ih => exact (cycle_modeFrame s).trans (ih s.cycle)

theorem runCycles_modeFrame (n : Nat) (s : State) : ModeFrame s.toBlock (s.runCycles n).toBlock :=
  (runLoop_modeFrame n s).trans (.of_blockFrame (displayAdvance_frame _ _).block)

/-- The Instruction Execution Unit can enter a mode and cannot leave one (rule R5). -/
theorem ieuOp_modeFrame (o : IeuOp) (s : State) : ModeFrame s.toBlock (s.ieuOp o).toBlock := by
  cases o with
  | regRead a => exact .of_eq (readOp_toBlock a s)
  | regWrite a d => exact busWrite_modeFrame a d s
  | imeRequest | imeWrite _ => exact ⟨rfl, id, id⟩
  | haltEnter => exact ⟨rfl, fun _ => rfl, id⟩
  | stopEnter => exact ⟨rfl, id, fun _ => rfl⟩

theorem ieuOps_modeFrame (os : List IeuOp) (s : State) : ModeFrame s.toBlock (State.ieuOps os s).toBlock := by
  induction os generalizing s with
  | nil => exact .refl _
  | cons o os ih => exact (ieuOp_modeFrame o s).trans (ih (s.ieuOp o))

theorem enterInterrupt_modeFrame (k : Source) (ans : IeuAnswer) (s : State) :
    ModeFrame s.toBlock (s.enterInterrupt k ans).toBlock := by
  have hbefore := ieuOps_modeFrame ans.before (s.emit (.dispatchInterrupt k (s.cfg.vector k)))
  exact (hbefore.trans (onBlock_modeFrame (f := Block.ack k) ⟨rfl, id, id⟩)).trans (ieuOps_modeFrame ans.after _)

theorem dispatch_modeFrame (irq : Option Source) (s : State) : ModeFrame s.toBlock (s.dispatch irq).2.toBlock := by
  have ha := ModeFrame.of_eq (ieuAnswer_toBlock s)
  cases irq with
  | none => exact ha.trans (ieuOps_modeFrame _ (s.ieuAnswer.2.emit .dispatchOne))
  | some k => exact ha.trans (enterInterrupt_modeFrame k _ _)

theorem executeStep_modeFrame (s : State) : ModeFrame s.toBlock s.executeStep.toBlock :=
  ((onBlock_modeFrame (applyImeRequest_modeFrame _)).trans (dispatch_modeFrame _ _)).trans (runCycles_modeFrame _ _)

/-- A STEP in HALT mode leaves all but the HALT mode (rule R106). -/
theorem haltStep_btn_stop (s : State) : s.haltStep.btn = s.btn ∧ (s.stop = true → s.haltStep.stop = true) := by
  have h := runCycles_modeFrame Config.wakeCycles s
  unfold State.haltStep
  split <;> exact ⟨h.btn, h.stop⟩

/-- With no source ready a STEP leaves the HALT mode as well (rule R106). -/
theorem haltStep_halt_of_not_ready {s : State} (h : s.halt = true) (hr : s.toBlock.ready = false) :
    s.haltStep.halt = true := by
  simpa [State.haltStep, hr] using (runCycles_modeFrame Config.wakeCycles s).halt h

/-- A STEP in STOP mode leaves the buttons (rule R107). -/
theorem stopStep_btn (s : State) : s.stopStep.btn = s.btn := by
  have hdiv := onBlock_modeFrame (s := s) (f := fun b => { b with div := 0#16 }) ⟨rfl, id, id⟩
  have hcommit := hdiv.trans (onBlock_modeFrame (speedCommit_modeFrame _))
  exact (hcommit.trans (runCycles_modeFrame Config.wakeCycles _)).btn

/-- A STEP changes no button (rule R110). -/
theorem stepOnce_btn (s : State) : s.stepOnce.btn = s.btn := by
  unfold State.stepOnce
  split
  · exact (haltStep_btn_stop s).1
  · split
    · exact stopStep_btn s
    · exact (executeStep_modeFrame s).btn

/-- In HALT mode a STEP is the step of that mode, whatever the STOP bit (rule R110, decision D26). -/
theorem stepOnce_of_halt {s : State} (h : s.halt = true) : s.stepOnce = s.haltStep := by
  simp [State.stepOnce, h]

/-- HALT mode ends only in a STEP that began with a source ready (rule R106). -/
theorem ready_of_stepOnce_ends_halt {s : State} (h : s.halt = true) (ht : s.stepOnce.halt = false) :
    s.toBlock.ready = true := by
  by_contra hr
  rw [stepOnce_of_halt h, haltStep_halt_of_not_ready h (Bool.eq_false_iff.mpr hr)] at ht
  cases ht

/-- STOP mode ends only in a STEP that began outside HALT mode (rule R107, decision D26). -/
theorem not_halt_of_stepOnce_ends_stop {s : State} (h : s.stop = true) (ht : s.stepOnce.stop = false) :
    s.halt = false := by
  by_contra hh
  rw [stepOnce_of_halt (Bool.eq_true_of_not_eq_false hh), (haltStep_btn_stop s).2 h] at ht
  cases ht

/-! ## What an operation does to them -/

/-- The operations that perform a STEP: STEP, DBG.STEP, and the newline that finishes `call STEP` (rules R143, R145). -/
def PerformsStep (i : Instr) (s : State) : Prop :=
  i = .step ∨ i = .dbgStep ∨
    ∃ c path more, i = .dbgKey c true ∧ tokens s.session.buffer = "call".toList :: path :: more ∧
      methodOf (pathNames path) = some .step

/-- At the prompt DBG.STEP does nothing (rule R145). -/
theorem debugStep_of_prompt {s : State} (h : s.session.mode = .awaitingCommand) : s.debugStep = s := by
  simp [State.debugStep, h]

/-- Of the methods called at the prompt only STEP is no change within the frame (rule R143). -/
theorem invoke_step_or_modeFrame {s : State} (h : s.session.mode = .awaitingCommand) (m : Method) :
    m = .step ∨ ModeFrame s.toBlock (s.invoke m).toBlock := by
  cases m with
  | step => exact .inl rfl
  | imeRequest => exact .inr ⟨rfl, id, id⟩
  | haltEnter => exact .inr ⟨rfl, fun _ => rfl, id⟩
  | stopEnter => exact .inr ⟨rfl, id, fun _ => rfl⟩
  | timerAdvance => exact .inr (.of_blockFrame (timerAdvance_frame _))
  | serialAdvance => exact .inr (.of_blockFrame (serialAdvance_frame s.cfg _))
  | dmaAdvance => exact .inr (dmaAdvance_modeFrame s)
  | speedCommit => exact .inr (speedCommit_modeFrame _)
  | dbgStep => exact .inr (.of_eq (congrArg State.toBlock (debugStep_of_prompt h)))

/-- A key event stays within the frame, or is the newline that calls STEP (rules R143, R146). -/
theorem debugKey_modeFrame_or_step (c : Byte) (p : Bool) (s : State) :
    ModeFrame s.toBlock (s.debugKey c p).toBlock ∨
    (PerformsStep (.dbgKey c p) s ∧ ∃ f, s.debugKey c p = (s.onSession f).stepOnce) := by
  rcases debugKey_cases c p s with ⟨f, e⟩ | ⟨rfl, -, -, -, path, more, m, f, hline, hm, hmode, e⟩ <;> rw [e]
  · exact .inl (.refl _)
  · rcases invoke_step_or_modeFrame (s := s.onSession f) (hmode s.session) m with rfl | hframe
    · exact .inr ⟨.inr (.inr ⟨c, path, more, rfl, hline, hm⟩), f, rfl⟩
    · exact .inl hframe

/-- Every operation stays within the frame, is JOYPAD.UPDATE, or performs one STEP on the block as it stands. -/
theorem exec_mode_cases (i : Instr) (s : State) : ∃ t, exec i s = .next t ∧
    (ModeFrame s.toBlock t.toBlock ∨ (∃ d, i = .joypadUpdate d ∧ t = s.onBlock (Block.joypadUpdate d)) ∨
      (PerformsStep i s ∧ ∃ f, t = (s.onSession f).stepOnce)) := by
  cases i with
  | step => exact ⟨_, rfl, .inr (.inr ⟨.inl rfl, id, rfl⟩)⟩
  | regRead a => exact ⟨_, rfl, .inl (.of_eq (readOp_toBlock a s))⟩
  | regWrite a d => exact ⟨_, rfl, .inl (busWrite_modeFrame a d s)⟩
  | cyclesRun n => exact ⟨_, rfl, .inl (runCycles_modeFrame n.toNat s)⟩
  | irqRaise _ | irqAck _ | imeRequest | imeWrite _ | dmaStart _ => exact ⟨_, rfl, .inl ⟨rfl, id, id⟩⟩
  | haltEnter => exact ⟨_, rfl, .inl ⟨rfl, fun _ => rfl, id⟩⟩
  | stopEnter => exact ⟨_, rfl, .inl ⟨rfl, id, fun _ => rfl⟩⟩
  | timerAdvance => exact ⟨_, rfl, .inl (.of_blockFrame (timerAdvance_frame _))⟩
  | serialAdvance => exact ⟨_, rfl, .inl (.of_blockFrame (serialAdvance_frame s.cfg _))⟩
  | dmaAdvance => exact ⟨_, rfl, .inl (dmaAdvance_modeFrame s)⟩
  | joypadUpdate d => exact ⟨_, rfl, .inr (.inl ⟨d, rfl, rfl⟩)⟩
  | speedPrepare b =>
    refine ⟨_, rfl, .inl ?_⟩
    split
    · exact ⟨rfl, id, id⟩
    · exact .refl _
  | speedCommit => exact ⟨_, rfl, .inl (speedCommit_modeFrame _)⟩
  | dbgStep =>
    refine ⟨_, rfl, ?_⟩
    rcases debugStep_cases s with e | e | ⟨f, e⟩ <;> rw [e]
    · exact .inl (.refl _)
    · exact .inr (.inr ⟨.inr (.inl rfl), id, rfl⟩)
    · exact .inl (.refl _)
  | dbgKey c p => exact ⟨_, rfl, (debugKey_modeFrame_or_step c p s).imp_right .inr⟩
  | rdP1 | rdSb | rdSc | rdDiv | rdTima | rdTma | rdTac | rdIf | rdDma | rdKey1 | rdIe =>
    exact ⟨_, rfl, .inl (.of_eq (readReg_toBlock _ s))⟩
  | wrP1 d | wrSb d | wrSc d | wrDiv d | wrTima d | wrTma d | wrTac d | wrIf d | wrDma d | wrKey1 d | wrIe d =>
    exact ⟨_, rfl, .inl (writeReg_modeFrame _ d s)⟩

/-- After JOYPAD.UPDATE the buttons are the operand and the modes are as before: raising the flag touches neither
(rule R93). -/
theorem joypadUpdate_btn_modes (d : Byte) (b : Block) :
    (b.joypadUpdate d).btn = d ∧ (b.joypadUpdate d).halt = b.halt ∧ (b.joypadUpdate d).stop = b.stop := by
  have h := raiseIf_frame (b.nibble == 0xF#4 && decide (({ b with btn := d } : Block).nibble < b.nibble)) .joypad
    { b with btn := d }
  exact ⟨h.btn, h.halt, h.stop⟩

/-! ## The obligations -/

/-- Settles O9: each field of `Block.reset`, and the eleven bytes computed from them. -/
theorem resetPutsEveryFieldToZero : Obligations.ResetPutsEveryFieldToZero := by
  refine ⟨⟨rfl, rfl, rfl, rfl, rfl, rfl⟩, ⟨rfl, rfl, rfl, rfl, rfl, rfl⟩, ⟨rfl, rfl, rfl, rfl, rfl, rfl⟩,
    ⟨rfl, rfl, rfl⟩, ⟨rfl, rfl, rfl, rfl, rfl⟩, ?_⟩
  decide

/-- Settles O10: the default parameters meet their constraints, and memory is empty. -/
theorem resetMeetsTheInvariant : Obligations.ResetMeetsTheInvariant :=
  ⟨default_wf, by decide, reset_mem_wf, rfl⟩

/-- Settles O11: `exec_Inv`, the answer being the one next state. -/
theorem everyOperationKeepsTheInvariant : Obligations.EveryOperationKeepsTheInvariant := by
  intro i s t h ht
  obtain ⟨u, hu, hInv⟩ := exec_Inv i h
  cases hu.symm.trans ht
  exact hInv

/-- Settles O12: one case per kind of call; an operation by O11, a snapshot by the test it passed. -/
theorem everyStepKeepsTheInvariant : Obligations.EveryStepKeepsTheInvariant := by
  intro s t h ht
  match hp : s.pending with
  | [] =>
    cases (step_of_noCall hp).symm.trans ht
    exact h
  | .command w :: rest =>
    cases hd : decodeWord s.cfg w with
    | operation i =>
      exact everyOperationKeepsTheInvariant i _ t (afterCall_Inv h rest) ((step_of_operation hp hd).symm.trans ht)
    | refused e => cases (step_of_refused hp hd).symm.trans ht
  | .setBreakpoint args :: rest =>
    cases (step_of_setBreakpoint hp).symm.trans ht
    exact setBreakpoint_Inv (afterCall_Inv h rest) args
  | .snapshot :: rest =>
    cases (step_of_snapshot hp).symm.trans ht
    exact emit_Inv (afterCall_Inv h rest) _
  | .restore b :: rest =>
    cases hb : b.inv with
    | true =>
      cases (step_of_restore hp hb).symm.trans ht
      exact restoreSnapshot_Inv (afterCall_Inv h rest) hb
    | false => cases (step_of_restore_refused hp hb).symm.trans ht
  | .restoreError :: rest =>
    cases (step_of_restoreError hp).symm.trans ht
    exact emit_Inv (afterCall_Inv h rest) _

/-- Settles O13: of the cases of `exec_mode_cases` only JOYPAD.UPDATE lets the buttons differ. -/
theorem buttonsChangeOnlyByJoypadUpdate : Obligations.ButtonsChangeOnlyByJoypadUpdate := by
  intro i s t ht hne
  obtain ⟨u, hu, hcases⟩ := exec_mode_cases i s
  cases hu.symm.trans ht
  rcases hcases with hframe | ⟨d, rfl, rfl⟩ | ⟨-, f, rfl⟩
  · exact absurd hframe.btn hne
  · exact ⟨d, rfl, (joypadUpdate_btn_modes d s.toBlock).1⟩
  · exact absurd (stepOnce_btn (s.onSession f)) hne

/-- Settles O48: of the cases of `exec_mode_cases` only a STEP can end a mode, and then as `stepOnce` decides. -/
theorem lowPowerModesEndOnlyInAStep : Obligations.LowPowerModesEndOnlyInAStep := by
  intro i s t ht
  obtain ⟨u, hu, hcases⟩ := exec_mode_cases i s
  cases hu.symm.trans ht
  rcases hcases with hframe | ⟨d, rfl, rfl⟩ | ⟨hstep, f, rfl⟩
  · exact ⟨fun h h' => Bool.noConfusion ((hframe.halt h).symm.trans h'),
      fun h h' => Bool.noConfusion ((hframe.stop h).symm.trans h')⟩
  · obtain ⟨-, hhalt, hstop⟩ := joypadUpdate_btn_modes d s.toBlock
    exact ⟨fun h h' => Bool.noConfusion ((hhalt.trans h).symm.trans h'),
      fun h h' => Bool.noConfusion ((hstop.trans h).symm.trans h')⟩
  · exact ⟨fun h h' => ⟨ready_of_stepOnce_ends_halt (s := s.onSession f) h h', hstep⟩,
      fun h h' => ⟨not_halt_of_stepOnce_ends_stop (s := s.onSession f) h h', hstep⟩⟩

end Sys2Proof.Proofs
end

section
/-! The memory (spec/20_memory.md): what a read on the bus answers and leaves alone, and a byte of plain external memory
written and read back. -/

namespace Sys2Proof.Proofs

open Sys2Proof.Machine Sys2Proof.Laws

/-! ## The bus read -/

/-- Outside the Memory Bank Controller's windows, where no answer is used up, a read leaves the state (rule R42). -/
theorem busRead_state_of_unbanked {s : State} {a : Addr} (hb : bankedWindow a = false) : (s.busRead a).2 = s := by
  rcases busRead_cases a s with ⟨r, -, e⟩ | ⟨-, hbanked, -⟩ | ⟨-, e⟩
  · rw [e]
  · exact Bool.noConfusion (hb.symm.trans hbanked)
  · rw [e]

/-- What is left of such a read is the byte said to the caller (rule R37). -/
theorem readOp_of_unbanked {s : State} {a : Addr} (hb : bankedWindow a = false) :
    s.readOp a = s.emit (.readResult a (s.busRead a).1) := by
  rw [State.readOp, busRead_state_of_unbanked hb]

/-- The byte on the bus does not depend on what has been said to the outside. -/
theorem busRead_value_emit (e : Event) (s : State) (a : Addr) (hb : bankedWindow a = false) :
    ((s.emit e).busRead a).1 = (s.busRead a).1 := by
  rcases busRead_cases a s with ⟨r, hc, h⟩ | ⟨-, hbanked, -⟩ | ⟨hx, h⟩
  · rw [h, busRead_claimed (s := s.emit e) hc, emit_toBlock]
  · exact Bool.noConfusion (hb.symm.trans hbanked)
  · rw [h, busRead_external (s := s.emit e) hx, peek_emit]

/-- A second read answers what the first did (rule R42). -/
theorem readOp_readOp_output {s : State} {a : Addr} (hb : bankedWindow a = false) :
    ((s.readOp a).readOp a).output =
      .readResult a (s.busRead a).1 :: .readResult a (s.busRead a).1 :: s.output := by
  simp only [readOp_of_unbanked hb, busRead_value_emit _ _ _ hb, emit_output]

/-- A read of plain external memory answers its byte and does nothing else (rule R37). -/
theorem readOp_external {s : State} {a : Addr} (h : s.cfg.isExternal a = true) :
    s.readOp a = s.emit (.readResult a (s.peek a)) := by
  rw [State.readOp, busRead_external h]

/-! ## The obligations -/

/-- Settles O50: the fields by the read's frame, the byte by who owns the address, the second read by
`readOp_readOp_output`. -/
theorem readsChangeNothing : Obligations.ReadsChangeNothing := by
  intro s a
  refine ⟨⟨s.readOp a, (s.busRead a).1, rfl, readOp_toBlock a s, readOp_mem a s, readOp_cfg a s, readOp_session a s,
    rfl, fun hx => ?_, fun r hr => ?_⟩, fun hb => ?_⟩
  · rw [busRead_external hx]
  · rw [busRead_claimed hr]
  · exact ⟨s.readOp a, (s.readOp a).readOp a, (s.busRead a).1, rfl, rfl, readOp_readOp_output hb⟩

/-- Settles O51: the write is `State.poke`, so the memory laws answer for every byte and the read finds the one
written. -/
theorem externalWriteIsReadBack : Obligations.ExternalWriteIsReadBack := by
  intro s a d hx
  have hread : (s.poke a d).readOp a = (s.poke a d).emit (.readResult a d) := by
    rw [readOp_external (s := s.poke a d) hx, peek_poke_same]
  exact ⟨congrArg _ (busWrite_external hx d), peek_poke_same s a d, fun b hb => peek_poke_other s a b d hb,
    congrArg _ hread⟩

end Sys2Proof.Proofs
end

section
/-! Command words (spec/30_encoding.md): what each part of the decoder answers, the two round trips between words and
operations, the rows of the opcode map, and the named register accesses as words and as operations. -/

namespace Sys2Proof.Proofs

open Sys2Proof.Machine Sys2Proof.Laws

/-! ## The decoder on the words the encoder makes -/

/-- REG.READ of an address that register `r` claims decodes to the named read (rule R50). -/
theorem decodeWord_named_read {c : Config} (hc : c.wf = true) (r : Reg) (hr : c.claims r = true) :
    decodeWord c (packWord 0x01#8 (c.addr r) 0#8) = .operation (readInstr r) := by
  simp [decodeWord, decodeRead, ifUnusedZero, claimed_addr hc hr]

/-- REG.WRITE to an address that register `r` claims decodes to the named write, whatever the byte (rules R50, R52). -/
theorem decodeWord_named_write {c : Config} (hc : c.wf = true) (r : Reg) (hr : c.claims r = true) (d : Byte) :
    decodeWord c (packWord 0x02#8 (c.addr r) d) = .operation (writeInstr d r) := by
  simp [decodeWord, decodeWrite, claimed_addr hc hr]

/-- The operand k is read back as its source (rule R48). -/
@[simp] theorem decodeSource_index (mk : Source → Instr) (k : Source) :
    decodeSource mk 0#16 (BitVec.ofNat 8 k.index) = .operation (mk k) := by
  cases k <;> rfl

/-- The operand b is read back as its bit (rule R48). -/
@[simp] theorem decodeBit_bit (mk : Bool → Instr) (b : Bool) :
    decodeBit mk 0#16 (if b then 1#8 else 0#8) = .operation (mk b) := by
  cases b <;> rfl

/-- A key code in `a` has its high byte zero and is read back from its low byte (rule R48). -/
theorem keyField_halves (k : Byte) :
    (k.setWidth 16).extractLsb' 8 8 = 0#8 ∧ (k.setWidth 16).extractLsb' 0 8 = k := by
  revert k; decide

/-- Settles O2: an operation with operands of its own has them read back from its fields, and a named access is decoded
from its register's address, which distinct addresses make that register's alone. -/
theorem encodedOperationDecodesToItself : Obligations.EncodedOperationDecodesToItself := by
  intro c i hc hi
  have read := decodeWord_named_read hc
  have write := fun r hr d => decodeWord_named_write hc r hr d
  cases i with
  | step | imeRequest | haltEnter | stopEnter | timerAdvance | serialAdvance | dmaAdvance | speedCommit | dbgStep
  | cyclesRun _ | dmaStart _ | joypadUpdate _ => simp [encode, decodeWord, ifUnusedZero]
  | irqRaise k | irqAck k => simp [encode, decodeWord]
  | imeWrite b | speedPrepare b => simp [encode, decodeWord]
  | dbgKey k p =>
    obtain ⟨hhigh, hlow⟩ := keyField_halves k
    cases p <;> simp [encode, decodeWord, ifUnusedZero, hhigh, hlow]
  | regRead a =>
    simp [encode, decodeWord, decodeRead, ifUnusedZero, Option.isNone_iff_eq_none.mp hi]
  | regWrite a d => simp [encode, decodeWord, decodeWrite, Option.isNone_iff_eq_none.mp hi]
  | rdP1 => exact read .p1 hi
  | rdSb => exact read .sb hi
  | rdSc => exact read .sc hi
  | rdDiv => exact read .div hi
  | rdTima => exact read .tima hi
  | rdTma => exact read .tma hi
  | rdTac => exact read .tac hi
  | rdIf => exact read .ifReg hi
  | rdDma => exact read .dma hi
  | rdKey1 => exact read .key1 hi
  | rdIe => exact read .ieReg hi
  | wrP1 d => exact write .p1 hi d
  | wrSb d => exact write .sb hi d
  | wrSc d => exact write .sc hi d
  | wrDiv d => exact write .div hi d
  | wrTima d => exact write .tima hi d
  | wrTma d => exact write .tma hi d
  | wrTac d => exact write .tac hi d
  | wrIf d => exact write .ifReg hi d
  | wrDma d => exact write .dma hi d
  | wrKey1 d => exact write .key1 hi d
  | wrIe d => exact write .ieReg hi d

/-! ## The words an operation is decoded from -/

/-- What a word's decoding says of the word: the operation is well formed and this is its word. -/
def SpelledBy (c : Config) (i : Instr) (w : Word) : Prop := i.wf c = true ∧ encode c i = w

/-- The test of the unused bits accepts no operation but its own, and only when it holds (rule R52). -/
theorem of_ifUnusedZero {b : Bool} {i j : Instr} (h : ifUnusedZero b j = .operation i) : b = true ∧ j = i := by
  unfold ifUnusedZero at h
  split at h
  · exact ⟨‹_›, Decoded.operation.inj h⟩
  · cases h

/-- A word decoded as an operation without operands is that operation's, both fields being zero (rule R48). -/
theorem spelledBy_of_plain {c : Config} {op : Byte} {a : Addr} {d : Byte} {i j : Instr}
    (hj : SpelledBy c j (packWord op 0#16 0#8)) (h : ifUnusedZero (a == 0#16 && d == 0#8) j = .operation i) :
    SpelledBy c i (packWord op a d) := by
  obtain ⟨hz, rfl⟩ := of_ifUnusedZero h
  simp only [Bool.and_eq_true, beq_iff_eq] at hz
  obtain ⟨rfl, rfl⟩ := hz
  exact hj

/-- A word decoded as REG.READ is the word of the read it gives, named or generic (rule R50). -/
theorem spelledBy_of_read {c : Config} {a : Addr} {d : Byte} {i : Instr} (h : decodeRead c a d = .operation i) :
    SpelledBy c i (packWord 0x01#8 a d) := by
  obtain ⟨hd, rfl⟩ := of_ifUnusedZero h
  obtain rfl := beq_iff_eq.mp hd
  cases hc : c.claimed a with
  | none => exact ⟨Option.isNone_iff_eq_none.mpr hc, rfl⟩
  | some r =>
    obtain ⟨hr, rfl⟩ := addr_of_claimed hc
    exact ⟨(readInstr_wf c r).trans hr, encode_readInstr c r⟩

/-- A word decoded as REG.WRITE is the word of the write it gives, named or generic (rule R50). -/
theorem spelledBy_of_write {c : Config} {a : Addr} {d : Byte} {i : Instr} (h : decodeWrite c a d = .operation i) :
    SpelledBy c i (packWord 0x02#8 a d) := by
  obtain rfl := Decoded.operation.inj h
  cases hc : c.claimed a with
  | none => exact ⟨Option.isNone_iff_eq_none.mpr hc, rfl⟩
  | some r =>
    obtain ⟨hr, rfl⟩ := addr_of_claimed hc
    exact ⟨(writeInstr_wf c r d).trans hr, encode_writeInstr c r d⟩

/-- A byte whose upper five bits are zero is its lower three. -/
theorem byte_of_low3 : ∀ d : Byte, d.extractLsb' 3 5 = 0#5 → BitVec.ofNat 8 (d.extractLsb' 0 3).toNat = d := by decide

/-- A byte whose upper seven bits are zero is its lowest. -/
theorem byte_of_low1 : ∀ d : Byte, d.extractLsb' 1 7 = 0#7 → (if d.getLsbD 0 then 1#8 else 0#8) = d := by decide

/-- A word decoded with an operand k is the word of its source's operation (rule R48). -/
theorem spelledBy_of_source {c : Config} {op : Byte} {a : Addr} {d : Byte} {i : Instr} {mk : Source → Instr}
    (hmk : ∀ k, SpelledBy c (mk k) (packWord op 0#16 (BitVec.ofNat 8 k.index)))
    (h : decodeSource mk a d = .operation i) : SpelledBy c i (packWord op a d) := by
  unfold decodeSource at h
  split at h
  case isFalse => cases h
  case isTrue hz =>
    simp only [Bool.and_eq_true, beq_iff_eq] at hz
    obtain ⟨rfl, hd⟩ := hz
    split at h
    next k hk =>
      obtain rfl := Decoded.operation.inj h
      have hs := hmk k
      rwa [index_of_sourceOf hk, byte_of_low3 d hd] at hs
    next => cases h

/-- A word decoded with an operand b is the word of its bit's operation (rule R48). -/
theorem spelledBy_of_bit {c : Config} {op : Byte} {a : Addr} {d : Byte} {i : Instr} {mk : Bool → Instr}
    (hmk : ∀ b : Bool, SpelledBy c (mk b) (packWord op 0#16 (if b then 1#8 else 0#8)))
    (h : decodeBit mk a d = .operation i) : SpelledBy c i (packWord op a d) := by
  obtain ⟨hz, rfl⟩ := of_ifUnusedZero h
  simp only [Bool.and_eq_true, beq_iff_eq] at hz
  obtain ⟨rfl, hd⟩ := hz
  have hs := hmk (d.getLsbD 0)
  rwa [byte_of_low1 d hd] at hs

/-- A word decoded as DBG.KEY is the word of its key code and its bit (rule R49). -/
theorem spelledBy_of_key {c : Config} {a : Addr} {d : Byte} {i : Instr}
    (h : ifUnusedZero (a.extractLsb' 8 8 == 0#8 && d.extractLsb' 1 7 == 0#7)
      (.dbgKey (a.extractLsb' 0 8) (d.getLsbD 0)) = .operation i) : SpelledBy c i (packWord 0x31#8 a d) := by
  obtain ⟨hz, rfl⟩ := of_ifUnusedZero h
  simp only [Bool.and_eq_true, beq_iff_eq] at hz
  obtain ⟨ha, hd⟩ := hz
  have haddr : (a.extractLsb' 0 8).setWidth 16 = a := by simpa [ha] using addr_of_halves a
  refine ⟨rfl, ?_⟩
  rw [encode, haddr, byte_of_low1 d hd]

/-- An opcode may be replaced by the one of the same number, by which the decoder tells opcodes apart. -/
theorem spelledBy_of_opcode {c : Config} {op : Byte} {a : Addr} {d : Byte} {i : Instr} (code : Byte)
    (hop : op.toNat = code.toNat) (h : SpelledBy c i (packWord code a d)) : SpelledBy c i (packWord op a d) :=
  BitVec.eq_of_toNat_eq hop ▸ h

/-- Settles O3: one case per opcode, each by the law of its operand form; a reserved opcode decodes to nothing. -/
theorem decodedWordIsTheEncodingOfItsOperation : Obligations.DecodedWordIsTheEncodingOfItsOperation := by
  intro c w i h
  change SpelledBy c i w
  rw [← packWord_fields w]
  unfold decodeWord at h
  split at h
  next hop => exact spelledBy_of_opcode 0x00#8 hop (spelledBy_of_plain ⟨rfl, rfl⟩ h)
  next hop => exact spelledBy_of_opcode 0x01#8 hop (spelledBy_of_read h)
  next hop => exact spelledBy_of_opcode 0x02#8 hop (spelledBy_of_write h)
  next hop =>
    obtain ⟨hd, rfl⟩ := of_ifUnusedZero h
    exact spelledBy_of_opcode 0x03#8 hop (beq_iff_eq.mp hd ▸ ⟨rfl, rfl⟩)
  next hop => exact spelledBy_of_opcode 0x10#8 hop (spelledBy_of_source (fun _ => ⟨rfl, rfl⟩) h)
  next hop => exact spelledBy_of_opcode 0x11#8 hop (spelledBy_of_source (fun _ => ⟨rfl, rfl⟩) h)
  next hop => exact spelledBy_of_opcode 0x12#8 hop (spelledBy_of_plain ⟨rfl, rfl⟩ h)
  next hop => exact spelledBy_of_opcode 0x13#8 hop (spelledBy_of_bit (fun _ => ⟨rfl, rfl⟩) h)
  next hop => exact spelledBy_of_opcode 0x14#8 hop (spelledBy_of_plain ⟨rfl, rfl⟩ h)
  next hop => exact spelledBy_of_opcode 0x15#8 hop (spelledBy_of_plain ⟨rfl, rfl⟩ h)
  next hop => exact spelledBy_of_opcode 0x20#8 hop (spelledBy_of_plain ⟨rfl, rfl⟩ h)
  next hop => exact spelledBy_of_opcode 0x21#8 hop (spelledBy_of_plain ⟨rfl, rfl⟩ h)
  next hop => exact spelledBy_of_opcode 0x22#8 hop (spelledBy_of_plain ⟨rfl, rfl⟩ h)
  next hop =>
    obtain ⟨hd, rfl⟩ := of_ifUnusedZero h
    exact spelledBy_of_opcode 0x23#8 hop (beq_iff_eq.mp hd ▸ ⟨rfl, rfl⟩)
  next hop =>
    obtain ⟨ha, rfl⟩ := of_ifUnusedZero h
    exact spelledBy_of_opcode 0x24#8 hop (beq_iff_eq.mp ha ▸ ⟨rfl, rfl⟩)
  next hop => exact spelledBy_of_opcode 0x25#8 hop (spelledBy_of_bit (fun _ => ⟨rfl, rfl⟩) h)
  next hop => exact spelledBy_of_opcode 0x26#8 hop (spelledBy_of_plain ⟨rfl, rfl⟩ h)
  next hop => exact spelledBy_of_opcode 0x30#8 hop (spelledBy_of_plain ⟨rfl, rfl⟩ h)
  next hop => exact spelledBy_of_opcode 0x31#8 hop (spelledBy_of_key h)
  next => cases h

/-! ## The rows of the opcode map -/

/-- The word of every operation spells the operation's row, the constructors' laws put together (rules R49, R50). -/
theorem encode_spells_row (i : Instr) : RowSpelling.Statement i := by
  cases i with
  | step => exact RowSpelling.step
  | regRead a => exact RowSpelling.regRead a
  | regWrite a d => exact RowSpelling.regWrite a d
  | cyclesRun n => exact RowSpelling.cyclesRun n
  | irqRaise k => exact RowSpelling.irqRaise k
  | irqAck k => exact RowSpelling.irqAck k
  | imeRequest => exact RowSpelling.imeRequest
  | imeWrite b => exact RowSpelling.imeWrite b
  | haltEnter => exact RowSpelling.haltEnter
  | stopEnter => exact RowSpelling.stopEnter
  | timerAdvance => exact RowSpelling.timerAdvance
  | serialAdvance => exact RowSpelling.serialAdvance
  | dmaAdvance => exact RowSpelling.dmaAdvance
  | dmaStart a => exact RowSpelling.dmaStart a
  | joypadUpdate d => exact RowSpelling.joypadUpdate d
  | speedPrepare b => exact RowSpelling.speedPrepare b
  | speedCommit => exact RowSpelling.speedCommit
  | dbgStep => exact RowSpelling.dbgStep
  | dbgKey k p => exact RowSpelling.dbgKey k p
  | rdP1 | rdSb | rdSc | rdDiv | rdTima | rdTma | rdTac | rdIf | rdDma | rdKey1 | rdIe => exact fun _ => read_spells _
  | wrP1 d | wrSb d | wrSc d | wrDiv d | wrTima d | wrTma d | wrTac d | wrIf d | wrDma d | wrKey1 d | wrIe d =>
    exact fun _ => write_spells _ d

/-- A word spells an operation whose row has this mnemonic. -/
def DecodesToRow (c : Config) (w : Word) (mnemonic : String) : Prop :=
  ∃ i, decodeWord c w = .operation i ∧ i.rowMnemonic = mnemonic

/-- A row without operands has one word, its pattern (rule R49). -/
theorem plainRow_decodes {c : Config} {w p : Word} {mnemonic : String} {i : Instr}
    (hi : decodeWord c p = .operation i) (hm : i.rowMnemonic = mnemonic)
    (h : OpcodeRow.spells ⟨mnemonic, p, 0xFFFFFFFF#32, false⟩ w = true) : DecodesToRow c w mnemonic := by
  obtain rfl : w = p := by
    have hw : w &&& 0xFFFFFFFF#32 = w := BitVec.and_allOnes
    simpa [OpcodeRow.spells, hw] using h
  exact ⟨i, hi, hm⟩

/-- The fields of a word that spells a row meet the row's masks (rules R47, R49). -/
theorem fields_of_spells {r : OpcodeRow} {w : Word} {code : Byte} (h : r.spells w = true)
    (hmask : opField r.mask = 0xFF#8) (hcode : opField r.pattern = code) :
    ∃ a d, w = packWord code a d ∧ a &&& aField r.mask = aField r.pattern ∧ d &&& dField r.mask = dField r.pattern ∧
      (r.sources = true → (d.extractLsb' 0 3).toNat ≤ 4) := by
  simp only [OpcodeRow.spells, Bool.and_eq_true, beq_iff_eq] at h
  obtain ⟨hw, hk⟩ := h
  rw [← packWord_fields w, ← packWord_fields r.mask, packWord_and, hmask, byte_and_ones] at hw
  refine ⟨aField w, dField w, eq_packWord ?_ rfl rfl, ?_, ?_, fun hs => ?_⟩
  · rw [← hcode, ← hw, opField_packWord]
  · rw [← hw, aField_packWord]
  · rw [← hw, dField_packWord]
  · have : (dField w).extractLsb' 0 3 = w.extractLsb' 0 3 := by
      unfold dField; ext i hi; simp
    simpa [this, hs] using hk

/-- Each k up to 4 is a source (rule R13). -/
theorem sourceOf_of_le {n : Nat} (hn : n ≤ 4) : ∃ k, sourceOf n = some k := by
  interval_cases n <;> exact ⟨_, rfl⟩

/-- The mask of IRQ.RAISE and IRQ.ACK holds the bits above k to zero. -/
theorem high5_of_mask : ∀ d : Byte, d &&& 0xF8#8 = 0#8 → d.extractLsb' 3 5 = 0#5 := by decide

/-- The mask of IME.WRITE, SPEED.PREPARE and DBG.KEY holds the bits above b to zero. -/
theorem high7_of_mask : ∀ d : Byte, d &&& 0xFE#8 = 0#8 → d.extractLsb' 1 7 = 0#7 := by decide

/-- The mask of DBG.KEY holds the byte above the key code to zero. -/
theorem highByte_of_mask {a : Addr} (h : a &&& 0xFF00#16 = 0#16) : a.extractLsb' 8 8 = 0#8 := by
  have hbyte : (a &&& 0xFF00#16).extractLsb' 8 8 = 0#8 := by rw [h]; rfl
  rwa [BitVec.extractLsb'_and, show BitVec.extractLsb' 8 8 0xFF00#16 = 0xFF#8 from rfl, byte_and_ones] at hbyte

/-- k up to 4 with nothing above it is a source's operand (rules R48, R49). -/
theorem decodeSource_of_masks (mk : Source → Instr) {a : Addr} {d : Byte} (ha : a &&& 0xFFFF#16 = 0#16)
    (hd : d &&& 0xF8#8 = 0#8) (hk : (d.extractLsb' 0 3).toNat ≤ 4) :
    ∃ k, decodeSource mk a d = .operation (mk k) := by
  obtain ⟨k, hs⟩ := sourceOf_of_le hk
  rw [addr_and_ones] at ha
  exact ⟨k, by simp only [decodeSource, ha, high5_of_mask d hd, hs, beq_self_eq_true, Bool.and_self, if_true]⟩

/-- One bit with nothing above it is a bit's operand (rules R48, R49). -/
theorem decodeBit_of_masks (mk : Bool → Instr) {a : Addr} {d : Byte} (ha : a &&& 0xFFFF#16 = 0#16)
    (hd : d &&& 0xFE#8 = 0#8) : ∃ b, decodeBit mk a d = .operation (mk b) := by
  rw [addr_and_ones] at ha
  exact ⟨d.getLsbD 0, by simp [decodeBit, ifUnusedZero, ha, high7_of_mask d hd]⟩

/-- Every REG.READ decodes, to a named or a generic read (rules R49, R50). -/
theorem decodeRead_row (c : Config) (a : Addr) :
    ∃ i, decodeRead c a 0#8 = .operation i ∧ i.rowMnemonic = "REG.READ" := by
  cases hc : c.claimed a with
  | none => exact ⟨.regRead a, by simp [decodeRead, ifUnusedZero, hc], rfl⟩
  | some r => exact ⟨readInstr r, by simp [decodeRead, ifUnusedZero, hc], by cases r <;> rfl⟩

/-- Every REG.WRITE decodes, to a named or a generic write (rules R49, R50). -/
theorem decodeWrite_row (c : Config) (a : Addr) (d : Byte) :
    ∃ i, decodeWrite c a d = .operation i ∧ i.rowMnemonic = "REG.WRITE" := by
  cases hc : c.claimed a with
  | none => exact ⟨.regWrite a d, by simp [decodeWrite, hc], rfl⟩
  | some r => exact ⟨writeInstr d r, by simp [decodeWrite, hc], by cases r <;> rfl⟩

/-- A word that spells a row decodes to that row (rule R49). -/
theorem row_decodes {c : Config} {w : Word} {r : OpcodeRow} (hr : r ∈ opcodeTable) (h : r.spells w = true) :
    DecodesToRow c w r.mnemonic := by
  simp only [opcodeTable, List.mem_cons, List.not_mem_nil, or_false] at hr
  rcases hr with rfl | rfl | rfl | rfl | rfl | rfl | rfl | rfl | rfl | rfl | rfl | rfl | rfl | rfl | rfl | rfl | rfl |
    rfl | rfl
  · exact plainRow_decodes (i := .step) rfl rfl h
  · obtain ⟨a, d, rfl, -, hd, -⟩ := fields_of_spells (code := 0x01#8) h rfl rfl
    obtain rfl : d = 0#8 := (byte_and_ones d).symm.trans hd
    obtain ⟨i, hi, hm⟩ := decodeRead_row c a
    exact ⟨i, by simpa [decodeWord] using hi, hm⟩
  · obtain ⟨a, d, rfl, -⟩ := fields_of_spells (code := 0x02#8) h rfl rfl
    obtain ⟨i, hi, hm⟩ := decodeWrite_row c a d
    exact ⟨i, by simpa [decodeWord] using hi, hm⟩
  · obtain ⟨a, d, rfl, -, hd, -⟩ := fields_of_spells (code := 0x03#8) h rfl rfl
    obtain rfl : d = 0#8 := (byte_and_ones d).symm.trans hd
    exact ⟨.cyclesRun a, by simp [decodeWord, ifUnusedZero], rfl⟩
  · obtain ⟨a, d, rfl, ha, hd, hk⟩ := fields_of_spells (code := 0x10#8) h rfl rfl
    obtain ⟨k, hi⟩ := decodeSource_of_masks .irqRaise ha hd (hk rfl)
    exact ⟨.irqRaise k, by simpa [decodeWord] using hi, rfl⟩
  · obtain ⟨a, d, rfl, ha, hd, hk⟩ := fields_of_spells (code := 0x11#8) h rfl rfl
    obtain ⟨k, hi⟩ := decodeSource_of_masks .irqAck ha hd (hk rfl)
    exact ⟨.irqAck k, by simpa [decodeWord] using hi, rfl⟩
  · exact plainRow_decodes (i := .imeRequest) rfl rfl h
  · obtain ⟨a, d, rfl, ha, hd, -⟩ := fields_of_spells (code := 0x13#8) h rfl rfl
    obtain ⟨b, hi⟩ := decodeBit_of_masks .imeWrite ha hd
    exact ⟨.imeWrite b, by simpa [decodeWord] using hi, rfl⟩
  · exact plainRow_decodes (i := .haltEnter) rfl rfl h
  · exact plainRow_decodes (i := .stopEnter) rfl rfl h
  · exact plainRow_decodes (i := .timerAdvance) rfl rfl h
  · exact plainRow_decodes (i := .serialAdvance) rfl rfl h
  · exact plainRow_decodes (i := .dmaAdvance) rfl rfl h
  · obtain ⟨a, d, rfl, -, hd, -⟩ := fields_of_spells (code := 0x23#8) h rfl rfl
    obtain rfl : d = 0#8 := (byte_and_ones d).symm.trans hd
    exact ⟨.dmaStart a, by simp [decodeWord, ifUnusedZero], rfl⟩
  · obtain ⟨a, d, rfl, ha, -⟩ := fields_of_spells (code := 0x24#8) h rfl rfl
    obtain rfl : a = 0#16 := (addr_and_ones a).symm.trans ha
    exact ⟨.joypadUpdate d, by simp [decodeWord, ifUnusedZero], rfl⟩
  · obtain ⟨a, d, rfl, ha, hd, -⟩ := fields_of_spells (code := 0x25#8) h rfl rfl
    obtain ⟨b, hi⟩ := decodeBit_of_masks .speedPrepare ha hd
    exact ⟨.speedPrepare b, by simpa [decodeWord] using hi, rfl⟩
  · exact plainRow_decodes (i := .speedCommit) rfl rfl h
  · exact plainRow_decodes (i := .dbgStep) rfl rfl h
  · obtain ⟨a, d, rfl, ha, hd, -⟩ := fields_of_spells (code := 0x31#8) h rfl rfl
    exact ⟨.dbgKey (a.extractLsb' 0 8) (d.getLsbD 0),
      by simp [decodeWord, ifUnusedZero, highByte_of_mask ha, high7_of_mask d hd], rfl⟩

/-- Settles O4: a word that decodes is its operation's word (O3), which spells that operation's row; and each row's
words decode to the row by `row_decodes`. -/
theorem wordDecodesExactlyWhenItSpellsARow : Obligations.WordDecodesExactlyWhenItSpellsARow := by
  intro c w
  refine ⟨⟨?_, ?_⟩, fun r hr h => row_decodes hr h⟩
  · rintro ⟨i, hi⟩
    obtain ⟨-, rfl⟩ := decodedWordIsTheEncodingOfItsOperation c w i hi
    obtain ⟨r, hr, -, hs⟩ := encode_spells_row i c
    exact ⟨r, hr, hs⟩
  · rintro ⟨r, hr, h⟩
    obtain ⟨i, hi, -⟩ := row_decodes (c := c) hr h
    exact ⟨i, hi⟩

/-- Settles O5: by O4 a word that spells no row decodes to no operation, so the decoder has a reason and the step passes
it on; the write of every byte to a claimed address is the named write. -/
theorem wordWithoutRowIsRefusedByName : Obligations.WordWithoutRowIsRefusedByName := by
  refine ⟨fun s w rest hno hp => ?_, fun c r d hc hr => decodeWord_named_write hc r hr d⟩
  cases hd : decodeWord s.cfg w with
  | refused e => exact ⟨e, rfl, step_of_refused hp hd⟩
  | operation i =>
    obtain ⟨r, hr, hs⟩ := (wordDecodesExactlyWhenItSpellsARow s.cfg w).1.mp ⟨i, hd⟩
    exact absurd hs (by simp [hno r hr])

/-- Settles O1: each word is evaluated. -/
theorem sampleWordsDecodeToTheirOperations : Obligations.SampleWordsDecodeToTheirOperations := by
  unfold Obligations.SampleWordsDecodeToTheirOperations
  decide

/-! ## The named accesses as operations -/

/-- A bus read at a register's address is the register's named read, on either variant (rules R50, R99). -/
theorem readOp_addr {s : State} (hc : s.cfg.wf = true) (r : Reg) : s.readOp (s.cfg.addr r) = s.readReg r := by
  cases hr : s.cfg.claims r with
  | true => rw [readReg_claimed hr, State.readOp, busRead_claimed (claimed_addr hc hr)]
  | false => simp [State.readOp, State.busRead, State.readReg, unclaimed_addr hc hr, hr]

/-- A bus write at a register's address is the register's named write, on either variant (rules R50, R99). -/
theorem busWrite_addr {s : State} (hc : s.cfg.wf = true) (r : Reg) (d : Byte) :
    s.busWrite (s.cfg.addr r) d = s.writeReg r d := by
  cases hr : s.cfg.claims r with
  | true => rw [writeReg_claimed hr, busWrite_claimed (claimed_addr hc hr)]
  | false => simp [State.busWrite, State.writeReg, unclaimed_addr hc hr, hr]

/-- The named read of register `r` is its `readReg` (rule R50). -/
theorem exec_readInstr (r : Reg) (s : State) : exec (readInstr r) s = .next (s.readReg r) := by
  cases r <;> rfl

/-- The named write to register `r` is its `writeReg` (rule R50). -/
theorem exec_writeInstr (r : Reg) (d : Byte) (s : State) : exec (writeInstr d r) s = .next (s.writeReg r d) := by
  cases r <;> rfl

/-- Settles O49: both sides of each equation are the same bus access, by `readOp_addr` and `busWrite_addr`. -/
theorem namedAccessIsTheGenericAccess : Obligations.NamedAccessIsTheGenericAccess := by
  intro s r d hc
  rw [exec_readInstr, exec_writeInstr, ← readOp_addr hc, ← busWrite_addr hc]
  exact ⟨rfl, rfl⟩

end Sys2Proof.Proofs
end

section
/-! The interrupt lines (spec/40_interrupt_lines.md): the sources' bits in the interrupt registers, the ready condition
and the source it chooses, and which operations can clear a pending flag. -/

namespace Sys2Proof.Proofs

open Sys2Proof.Machine Sys2Proof.Laws

/-! ## The sources and their bits -/

/-- The sources fill the five bits of the interrupt registers (rule R13). -/
theorem index_lt (k : Source) : k.index < 5 := by cases k <;> decide

theorem index_injective : Function.Injective Source.index := by
  intro j k h
  have hs := congrArg sourceOf h
  rw [sourceOf_index, sourceOf_index] at hs
  exact Option.some.inj hs

/-- Each of the five bits is a source's (rule R13). -/
theorem exists_index_eq {n : Nat} (h : n < 5) : ∃ k : Source, k.index = n := by
  obtain ⟨k, hk⟩ := sourceOf_of_le (Nat.le_of_lt_succ h)
  exact ⟨k, index_of_sourceOf hk⟩

/-- A source's mask is its own bit alone. -/
@[simp] theorem mask_getLsbD (k j : Source) : k.mask.getLsbD j.index = decide (j = k) := by
  have h : k.mask = BitVec.twoPow 5 k.index := by simp [Source.mask, BitVec.twoPow_eq]
  rw [h, BitVec.getLsbD_twoPow, decide_eq_true (index_lt k), Bool.true_and]
  exact decide_eq_decide.mpr ⟨fun e => (index_injective e).symm, fun e => e ▸ rfl⟩

/-- IRQ.RAISE sets the flag of its source and no other (rule R60). -/
theorem raise_getLsbD (f : BitVec 5) (k j : Source) :
    (f ||| k.mask).getLsbD j.index = (decide (j = k) || f.getLsbD j.index) := by
  rw [BitVec.getLsbD_or, mask_getLsbD, Bool.or_comm]

/-- IRQ.ACK clears the flag of its source and no other (rule R62). -/
theorem ack_getLsbD (f : BitVec 5) (k j : Source) :
    (f &&& ~~~k.mask).getLsbD j.index = (!decide (j = k) && f.getLsbD j.index) := by
  rw [BitVec.getLsbD_and, BitVec.getLsbD_not, mask_getLsbD, decide_eq_true (index_lt j), Bool.true_and, Bool.and_comm]

/-- The register byte holds a source's flag at the source's own bit (rules R29, R32). -/
theorem flags_of_byte_getLsbD (d : Byte) (k : Source) : (d.extractLsb' 0 5).getLsbD k.index = d.getLsbD k.index := by
  simp [index_lt]

/-! ## The ready condition and the source it chooses -/

/-- A source is ready exactly when it is enabled and pending (rule R58). -/
theorem readyFor_iff (b : Block) (k : Source) :
    b.readyFor k = true ↔ b.ie.getLsbD k.index = true ∧ b.if_.getLsbD k.index = true :=
  Bool.and_eq_true_iff

/-- The word-wide test of rule R58 finds a bit set exactly when some source is ready: there is no sixth bit. -/
theorem ready_iff (b : Block) : b.ready = true ↔ ∃ k, b.readyFor k = true := by
  constructor
  · intro h
    by_contra hnone
    have hzero : b.ie &&& b.if_ = 0#5 := by
      refine BitVec.eq_of_getLsbD_eq fun n hn => ?_
      obtain ⟨k, rfl⟩ := exists_index_eq hn
      rw [BitVec.getLsbD_and, BitVec.getLsbD_zero]
      exact Bool.eq_false_iff.mpr fun hk => hnone ⟨k, hk⟩
    simp [Block.ready, hzero] at h
  · rintro ⟨k, hk⟩
    refine bne_iff_ne.mpr fun hzero => ?_
    have hbit := congrArg (BitVec.getLsbD · k.index) hzero
    rw [BitVec.getLsbD_and, BitVec.getLsbD_zero] at hbit
    exact Bool.noConfusion (hk.symm.trans hbit)

theorem ready_congr {b c : Block} (hie : b.ie = c.ie) (hif : b.if_ = c.if_) : b.ready = c.ready := by
  rw [Block.ready, Block.ready, hie, hif]

theorem mem_source_all (k : Source) : k ∈ Source.all := by cases k <;> decide

/-- No source is chosen exactly when none is ready (rules R58, R59). -/
theorem highest_eq_none_iff (b : Block) : b.highest = none ↔ b.ready = false := by
  rw [Block.highest, List.find?_eq_none, ← Bool.not_eq_true, ready_iff, not_exists]
  exact ⟨fun h k => h k (mem_source_all k), fun h k _ => h k⟩

/-- The source chosen is ready, and none before it is: the sources stand in the order of their index (rule R122). -/
theorem highest_spec {b : Block} {k : Source} (h : b.highest = some k) :
    b.readyFor k = true ∧ ∀ j : Source, j.index < k.index → ¬b.readyFor j = true := by
  obtain ⟨hk, as, bs, hall, has⟩ := List.find?_eq_some_iff_append.mp h
  refine ⟨hk, fun j hj => ?_⟩
  have hsorted : (as ++ k :: bs).Pairwise (·.index < ·.index) := hall ▸ by decide
  have hmem : j ∈ as ++ k :: bs := hall ▸ mem_source_all j
  rcases List.mem_append.mp hmem with hja | hjb
  · simpa using has j hja
  · exfalso
    rcases List.mem_cons.mp hjb with rfl | hjb
    · exact Nat.lt_irrefl _ hj
    · have hkj := (List.pairwise_cons.mp (List.pairwise_append.mp hsorted).2.1).1 j hjb
      exact Nat.lt_asymm hj hkj

/-- The source chosen is the ready one of least index (rule R59): there is only one such, since indices are distinct. -/
theorem highest_eq_some_iff (b : Block) (k : Source) : b.highest = some k ↔
    b.readyFor k = true ∧ ∀ j : Source, j.index < k.index → ¬b.readyFor j = true := by
  refine ⟨highest_spec, fun ⟨hk, hleast⟩ => ?_⟩
  cases hh : b.highest with
  | none =>
    have hnot := (highest_eq_none_iff b).mp hh
    exact Bool.noConfusion (((ready_iff b).mpr ⟨k, hk⟩).symm.trans hnot)
  | some j =>
    obtain ⟨hj, hjleast⟩ := highest_spec hh
    have hjk : j.index = k.index :=
      Nat.le_antisymm (Nat.le_of_not_lt fun hlt => hjleast k hlt hk) (Nat.le_of_not_lt fun hlt => hleast j hlt hj)
    rw [index_injective hjk]

/-! ## Which operations clear a pending flag -/

/-- The pending flag of source k is not cleared. -/
def KeepsFlag (k : Source) (b c : Block) : Prop := b.if_.getLsbD k.index = true → c.if_.getLsbD k.index = true

theorem KeepsFlag.refl (k : Source) (b : Block) : KeepsFlag k b b := id

theorem KeepsFlag.trans {k : Source} {a b c : Block} (h : KeepsFlag k a b) (g : KeepsFlag k b c) : KeepsFlag k a c :=
  g ∘ h

theorem KeepsFlag.of_eq {k : Source} {b c : Block} (h : c = b) : KeepsFlag k b c := h ▸ .refl k b

/-- No advance of a peripheral clears a flag (rule R61). -/
theorem KeepsFlag.of_blockFrame {k : Source} {b c : Block} (h : BlockFrame b c) : KeepsFlag k b c := h.flags k.index

/-- IRQ.ACK clears no other source's flag (rule R62). -/
theorem ack_keepsFlag {j k : Source} (h : j ≠ k) (b : Block) : KeepsFlag k b (b.ack j) := by
  intro hb
  rw [ack_if_, ack_getLsbD, hb, decide_eq_false h.symm]
  rfl

theorem applyImeRequest_keepsFlag (k : Source) (b : Block) : KeepsFlag k b b.applyImeRequest := by
  unfold Block.applyImeRequest
  split <;> exact id

theorem speedCommit_keepsFlag (k : Source) (b : Block) : KeepsFlag k b b.speedCommit := by
  unfold Block.speedCommit
  split <;> exact id

/-- The buttons are no flag, and raising the Joypad flag clears none (rule R93). -/
theorem joypadUpdate_keepsFlag (k : Source) (d : Byte) (b : Block) : KeepsFlag k b (b.joypadUpdate d) :=
  (raiseIf_frame (b.nibble == 0xF#4 && decide (({ b with btn := d } : Block).nibble < b.nibble)) .joypad
    { b with btn := d }).flags k.index

/-- Of the registers only IF holds the pending flags, and a write to it clears those whose bit is clear (rule R65). -/
theorem regWrite_keepsFlag_or_clears (k : Source) (d : Byte) (b : Block) (r : Reg) :
    KeepsFlag k b (b.regWrite d r) ∨ (r = .ifReg ∧ d.getLsbD k.index = false) := by
  cases r with
  | ifReg =>
    cases hd : d.getLsbD k.index with
    | true => exact .inl fun _ => (flags_of_byte_getLsbD d k).trans hd
    | false => exact .inr ⟨rfl, rfl⟩
  | p1 | sb | sc | div | tima | tma | tac | dma | key1 | ieReg => exact .inl id

/-- A write of d to address a reaches IF with the bit of source k clear. -/
def ClearsIf (k : Source) (c : Config) (a : Addr) (d : Byte) : Prop :=
  c.claimed a = some .ifReg ∧ d.getLsbD k.index = false

theorem busWrite_keepsFlag_or_clears (k : Source) (a : Addr) (d : Byte) (s : State) :
    KeepsFlag k s.toBlock (s.busWrite a d).toBlock ∨ ClearsIf k s.cfg a d := by
  rcases busWrite_cases a d s with ⟨r, hr, e⟩ | ⟨-, -, e⟩ | ⟨-, e⟩ <;> rw [e]
  · exact (regWrite_keepsFlag_or_clears k d s.toBlock r).imp_right fun ⟨hIf, hd⟩ => ⟨hIf ▸ hr, hd⟩
  · exact .inl id
  · exact .inl id

theorem writeReg_keepsFlag_or_clears (k : Source) (r : Reg) (d : Byte) (s : State) :
    KeepsFlag k s.toBlock (s.writeReg r d).toBlock ∨ (r = .ifReg ∧ d.getLsbD k.index = false) := by
  unfold State.writeReg
  split
  · exact regWrite_keepsFlag_or_clears k d s.toBlock r
  · exact .inl (.of_eq (externalWrite_toBlock _ d s))

/-- Some operation of a list of the Instruction Execution Unit writes IF with the bit of source k clear. -/
def UnitClearsIf (k : Source) (c : Config) (os : List IeuOp) : Prop :=
  ∃ a d, IeuOp.regWrite a d ∈ os ∧ ClearsIf k c a d

theorem UnitClearsIf.mono {k : Source} {c : Config} {os ps : List IeuOp} (h : UnitClearsIf k c os) (hsub : os ⊆ ps) :
    UnitClearsIf k c ps := by
  obtain ⟨a, d, hmem, hclears⟩ := h
  exact ⟨a, d, hsub hmem, hclears⟩

theorem ieuOp_keepsFlag_or_clears (k : Source) (o : IeuOp) (s : State) :
    KeepsFlag k s.toBlock (s.ieuOp o).toBlock ∨ UnitClearsIf k s.cfg [o] := by
  cases o with
  | regRead a => exact .inl (.of_eq (readOp_toBlock a s))
  | regWrite a d =>
    exact (busWrite_keepsFlag_or_clears k a d s).imp_right fun hc => ⟨a, d, List.mem_singleton_self _, hc⟩
  | imeRequest | imeWrite _ | haltEnter | stopEnter => exact .inl id

/-- The unit's operations clear a flag only by a write to IF: nothing else of theirs reaches the flags (rule R5). -/
theorem ieuOps_keepsFlag_or_clears (k : Source) (os : List IeuOp) (s : State) :
    KeepsFlag k s.toBlock (State.ieuOps os s).toBlock ∨ UnitClearsIf k s.cfg os := by
  induction os generalizing s with
  | nil => exact .inl id
  | cons o os ih =>
    rcases ieuOp_keepsFlag_or_clears k o s with hkeep | hclears
    · have hrest := ih (s.ieuOp o)
      rw [(ieuOp_hostFrame o s).cfg] at hrest
      exact hrest.imp hkeep.trans fun h => h.mono (List.subset_cons_self o os)
    · exact .inr (hclears.mono (List.cons_subset_cons o (List.nil_subset os)))

/-- The entry of interrupt j clears the flag of j, and any other only by a write to IF (rules R62, R124). -/
theorem enterInterrupt_keepsFlag_or_clears {j k : Source} (h : j ≠ k) (ans : IeuAnswer) (s : State) :
    KeepsFlag k s.toBlock (s.enterInterrupt j ans).toBlock ∨ UnitClearsIf k s.cfg (ans.before ++ ans.after) := by
  let told := s.emit (.dispatchInterrupt j (s.cfg.vector j))
  rcases ieuOps_keepsFlag_or_clears k ans.before told with hbefore | hclears
  · have hafter := ieuOps_keepsFlag_or_clears k ans.after ((State.ieuOps ans.before told).onBlock (Block.ack j))
    rw [onBlock_cfg, (ieuOps_hostFrame ans.before told).cfg] at hafter
    exact hafter.imp (hbefore.trans (ack_keepsFlag h _)).trans fun hc => hc.mono (List.subset_append_right _ _)
  · exact .inr (hclears.mono (List.subset_append_left _ _))

/-- An invocation of the unit clears the flag of the interrupt it enters, and any other only by a write to IF
(rules R61, R111). -/
theorem dispatch_keepsFlag_or_clears (k : Source) (irq : Option Source) (s : State) :
    KeepsFlag k s.toBlock (s.dispatch irq).2.toBlock ∨ irq = some k ∨
      UnitClearsIf k s.cfg (s.ieuAnswer.1.before ++ s.ieuAnswer.1.after) := by
  rw [← ieuAnswer_toBlock s, ← ieuAnswer_cfg s]
  cases irq with
  | none => exact (ieuOps_keepsFlag_or_clears k _ (s.ieuAnswer.2.emit .dispatchOne)).imp_right .inr
  | some j =>
    by_cases hjk : j = k
    · exact .inr (.inl (congrArg some hjk))
    · exact (enterInterrupt_keepsFlag_or_clears hjk s.ieuAnswer.1 s.ieuAnswer.2).imp_right .inr

/-- A step enters an interrupt only with the master enable set at its start (rules R105, R123). -/
theorem take_eq_some {b : Block} {k : Source} (h : b.take = some k) : b.ime = true ∧ b.highest = some k := by
  unfold Block.take at h
  split at h
  · rename_i hb
    exact ⟨(Bool.and_eq_true_iff.mp hb).2, h⟩
  · cases h

theorem runCycles_keepsFlag (k : Source) (n : Nat) {s : State} (h : s.Inv) :
    KeepsFlag k s.toBlock (s.runCycles n).toBlock := .of_blockFrame (runCycles_frame n h).block

/-- A STEP from s, in neither mode, that enters the interrupt of source k or whose instruction writes IF with the bit of
k clear (rules R61, R111). -/
def StepClears (k : Source) (s : State) : Prop :=
  s.halt = false ∧ s.stop = false ∧
    ((s.ime = true ∧ s.toBlock.highest = some k) ∨
      UnitClearsIf k s.cfg (s.ieuAnswer.1.before ++ s.ieuAnswer.1.after))

theorem haltStep_keepsFlag (k : Source) {s : State} (h : s.Inv) : KeepsFlag k s.toBlock s.haltStep.toBlock := by
  have hrun := runCycles_keepsFlag k Config.wakeCycles h
  unfold State.haltStep
  split <;> exact hrun

theorem stopStep_keepsFlag (k : Source) {s : State} (h : s.Inv) : KeepsFlag k s.toBlock s.stopStep.toBlock := by
  have hdiv : (s.onBlock fun b => { b with div := 0#16 }).Inv := onBlock_keeps_Inv h fun _ hb => hb
  have hcommit := onBlock_keeps_Inv hdiv speedCommit_inv
  exact (speedCommit_keepsFlag k { s.toBlock with div := 0#16 }).trans (runCycles_keepsFlag k Config.wakeCycles hcommit)

/-- Outside the low-power modes the cycles clear no flag, so what does is the unit's invocation (rules R61, R110). -/
theorem executeStep_keepsFlag_or_clears (k : Source) {s : State} (h : s.Inv) :
    KeepsFlag k s.toBlock s.executeStep.toBlock ∨ (s.ime = true ∧ s.toBlock.highest = some k) ∨
      UnitClearsIf k s.cfg (s.ieuAnswer.1.before ++ s.ieuAnswer.1.after) := by
  have hIme : (s.onBlock Block.applyImeRequest).Inv := onBlock_keeps_Inv h applyImeRequest_inv
  have hd := dispatch_keepsFlag_or_clears k s.toBlock.take (s.onBlock Block.applyImeRequest)
  rw [ieuAnswer_onBlock] at hd
  rcases hd with hkeep | htake | hclears
  · exact .inl (((applyImeRequest_keepsFlag k s.toBlock).trans hkeep).trans
      (runCycles_keepsFlag k _ (dispatch_Inv _ hIme)))
  · exact .inr (.inl (take_eq_some htake))
  · exact .inr (.inr hclears)

/-- Only a STEP outside the low-power modes can clear a flag (rules R61, R106, R107). -/
theorem stepOnce_keepsFlag_or_clears (k : Source) {s : State} (h : s.Inv) :
    KeepsFlag k s.toBlock s.stepOnce.toBlock ∨ StepClears k s := by
  unfold State.stepOnce
  split
  · exact .inl (haltStep_keepsFlag k h)
  · split
    · exact .inl (stopStep_keepsFlag k h)
    · rename_i hhalt hstop
      exact (executeStep_keepsFlag_or_clears k h).imp_right fun hc =>
        ⟨Bool.eq_false_iff.mpr hhalt, Bool.eq_false_iff.mpr hstop, hc⟩

/-! ## What an operation does to a pending flag -/

/-- The operations that clear the flag of source k in state s (rules R61, R62, R65). -/
inductive ClearsFlag (k : Source) (s : State) : Instr → Prop
  | ack : ClearsFlag k s (.irqAck k)
  | wrIf (d : Byte) (hd : d.getLsbD k.index = false) : ClearsFlag k s (.wrIf d)
  | regWrite (a : Addr) (d : Byte) (h : ClearsIf k s.cfg a d) : ClearsFlag k s (.regWrite a d)
  | step (i : Instr) (hi : PerformsStep i s) (h : StepClears k s) : ClearsFlag k s i

/-- Of the methods called at the prompt only STEP can clear a flag (rules R61, R143). -/
theorem invoke_step_or_keepsFlag (k : Source) {s : State} (h : s.Inv) (hmode : s.session.mode = .awaitingCommand)
    (m : Method) : m = .step ∨ KeepsFlag k s.toBlock (s.invoke m).toBlock := by
  cases m with
  | step => exact .inl rfl
  | imeRequest | haltEnter | stopEnter => exact .inr id
  | timerAdvance => exact .inr (.of_blockFrame (timerAdvance_frame _))
  | serialAdvance => exact .inr (.of_blockFrame (serialAdvance_frame s.cfg _))
  | dmaAdvance => exact .inr (.of_blockFrame (dmaAdvance_frame h).block)
  | speedCommit => exact .inr (speedCommit_keepsFlag k _)
  | dbgStep => exact .inr (.of_eq (congrArg State.toBlock (debugStep_of_prompt hmode)))

/-- The session is no part of what the unit answers. -/
@[simp] theorem ieuAnswer_onSession (f : DebuggerSession → DebuggerSession) (s : State) :
    (s.onSession f).ieuAnswer.1 = s.ieuAnswer.1 := by
  simp only [State.ieuAnswer, onSession_ieuAnswers, onSession_fresh]
  split <;> rfl

theorem stepClears_onSession (k : Source) (f : DebuggerSession → DebuggerSession) (s : State) :
    StepClears k (s.onSession f) ↔ StepClears k s := by
  simp only [StepClears, ieuAnswer_onSession, onSession_toBlock, onSession_cfg]

/-- A key event clears a flag only as the newline that calls STEP (rules R143, R146). -/
theorem debugKey_keepsFlag_or_clears (k : Source) {s : State} (h : s.Inv) (c : Byte) (p : Bool) :
    KeepsFlag k s.toBlock (s.debugKey c p).toBlock ∨ ClearsFlag k s (.dbgKey c p) := by
  rcases debugKey_cases c p s with ⟨f, e⟩ | ⟨rfl, -, -, -, path, more, m, f, hline, hm, hmode, e⟩ <;> rw [e]
  · exact .inl id
  · rcases invoke_step_or_keepsFlag k (onSession_Inv h f) (hmode s.session) m with rfl | hkeep
    · refine (stepOnce_keepsFlag_or_clears k (onSession_Inv h f)).imp_right fun hc => ?_
      exact .step _ (.inr (.inr ⟨c, path, more, rfl, hline, hm⟩)) ((stepClears_onSession k f s).mp hc)
    · exact .inl hkeep

theorem debugStep_keepsFlag_or_clears (k : Source) {s : State} (h : s.Inv) :
    KeepsFlag k s.toBlock s.debugStep.toBlock ∨ StepClears k s := by
  rcases debugStep_cases s with e | e | ⟨f, e⟩ <;> rw [e]
  · exact .inl id
  · exact stepOnce_keepsFlag_or_clears k h
  · exact .inl id

/-- Every operation keeps the flag of source k or is one of those that clear it (rules R61, R62). -/
theorem exec_keepsFlag_or_clears (k : Source) (i : Instr) {s : State} (h : s.Inv) :
    ∃ t, exec i s = .next t ∧ (KeepsFlag k s.toBlock t.toBlock ∨ ClearsFlag k s i) := by
  cases i with
  | step => exact ⟨_, rfl, (stepOnce_keepsFlag_or_clears k h).imp_right (.step _ (.inl rfl))⟩
  | dbgStep => exact ⟨_, rfl, (debugStep_keepsFlag_or_clears k h).imp_right (.step _ (.inr (.inl rfl)))⟩
  | dbgKey c p => exact ⟨_, rfl, debugKey_keepsFlag_or_clears k h c p⟩
  | irqAck j =>
    refine ⟨_, rfl, ?_⟩
    by_cases hjk : j = k
    · exact .inr (hjk ▸ .ack)
    · exact .inl (ack_keepsFlag hjk s.toBlock)
  | regWrite a d => exact ⟨_, rfl, (busWrite_keepsFlag_or_clears k a d s).imp_right (.regWrite a d)⟩
  | wrIf d => exact ⟨_, rfl, (writeReg_keepsFlag_or_clears k .ifReg d s).imp_right fun hc => .wrIf d hc.2⟩
  | wrP1 d | wrSb d | wrSc d | wrDiv d | wrTima d | wrTma d | wrTac d | wrDma d | wrKey1 d | wrIe d =>
    exact ⟨_, rfl, (writeReg_keepsFlag_or_clears k _ d s).imp_right fun hc => nomatch hc.1⟩
  | irqRaise j => exact ⟨_, rfl, .inl (.of_blockFrame (raise_frame j _))⟩
  | joypadUpdate d => exact ⟨_, rfl, .inl (joypadUpdate_keepsFlag k d s.toBlock)⟩
  | cyclesRun n => exact ⟨_, rfl, .inl (runCycles_keepsFlag k n.toNat h)⟩
  | timerAdvance => exact ⟨_, rfl, .inl (.of_blockFrame (timerAdvance_frame _))⟩
  | serialAdvance => exact ⟨_, rfl, .inl (.of_blockFrame (serialAdvance_frame s.cfg _))⟩
  | dmaAdvance => exact ⟨_, rfl, .inl (.of_blockFrame (dmaAdvance_frame h).block)⟩
  | speedCommit => exact ⟨_, rfl, .inl (speedCommit_keepsFlag k _)⟩
  | speedPrepare b =>
    refine ⟨_, rfl, .inl ?_⟩
    split <;> exact id
  | imeRequest | imeWrite _ | haltEnter | stopEnter | dmaStart _ => exact ⟨_, rfl, .inl id⟩
  | regRead a => exact ⟨_, rfl, .inl (.of_eq (readOp_toBlock a s))⟩
  | rdP1 | rdSb | rdSc | rdDiv | rdTima | rdTma | rdTac | rdIf | rdDma | rdKey1 | rdIe =>
    exact ⟨_, rfl, .inl (.of_eq (readReg_toBlock _ s))⟩

/-! ## The obligations -/

/-- Settles O18: a flag that is set before and clear after was not kept, so by `exec_keepsFlag_or_clears` the operation
is one of those that clear it. -/
theorem pendingFlagsAreConsumedOnlyAtADispatchBoundary :
    Obligations.PendingFlagsAreConsumedOnlyAtADispatchBoundary := by
  intro i s t k hInv ht hbefore hafter
  obtain ⟨u, hu, hcases⟩ := exec_keepsFlag_or_clears k i hInv
  cases hu.symm.trans ht
  rcases hcases with hkeep | hclears
  · exact Bool.noConfusion ((hkeep hbefore).symm.trans hafter)
  · cases hclears with
    | ack => exact .inl rfl
    | wrIf d hd => exact .inr (.inl ⟨d, rfl, hd⟩)
    | regWrite a d hwrite => exact .inr (.inr (.inl ⟨a, d, rfl, hwrite⟩))
    | step _ hi hstep =>
      rcases hi with rfl | rfl | hkey
      · exact .inr (.inr (.inr (.inl ⟨rfl, hstep⟩)))
      · exact .inr (.inr (.inr (.inr (.inl ⟨rfl, hstep⟩))))
      · exact .inr (.inr (.inr (.inr (.inr ⟨hstep, hkey⟩))))

/-- Settles O14: `ready_iff`, with each source's readiness taken apart, and `ready_congr`. -/
theorem readyMeansAnEnabledSourceIsPending : Obligations.ReadyMeansAnEnabledSourceIsPending :=
  ⟨fun b => (ready_iff b).trans (exists_congr (readyFor_iff b)), fun _ _ => ready_congr⟩

/-- Settles O15: `highest_eq_some_iff` and `highest_eq_none_iff`, with each source's readiness taken apart. -/
theorem highestIsTheReadySourceOfLeastIndex : Obligations.HighestIsTheReadySourceOfLeastIndex := by
  refine ⟨fun b k => ?_, highest_eq_none_iff⟩
  simp only [highest_eq_some_iff, readyFor_iff, and_assoc]

/-- Settles O16: the four next states are the flag operations themselves; the bits are `raise_getLsbD` and
`ack_getLsbD`. -/
theorem interruptLineOperationsWriteTheirFlags : Obligations.InterruptLineOperationsWriteTheirFlags :=
  fun s k _ => ⟨rfl, rfl, rfl, rfl, raise_getLsbD s.if_ k, ack_getLsbD s.if_ k⟩

/-- Settles O17: both registers are on every variant, so the named accesses are the register's own; by address they are
the same by `namedAccessIsTheGenericAccess`. -/
theorem interruptRegisterAccesses : Obligations.InterruptRegisterAccesses := by
  intro s d
  refine ⟨congrArg Host.Outcome.next (writeReg_claimed (r := .ifReg) rfl d),
    congrArg Host.Outcome.next (readReg_claimed (r := .ifReg) rfl),
    congrArg Host.Outcome.next (writeReg_claimed (r := .ieReg) rfl d),
    congrArg Host.Outcome.next (readReg_claimed (r := .ieReg) rfl), fun hc => ?_⟩
  obtain ⟨hReadIf, hWriteIf⟩ := namedAccessIsTheGenericAccess s .ifReg d hc
  obtain ⟨hReadIe, hWriteIe⟩ := namedAccessIsTheGenericAccess s .ieReg d hc
  exact ⟨hWriteIf, hReadIf, hWriteIe, hReadIe⟩

end Sys2Proof.Proofs
end

section
/-! The timer (spec/41_timer.md): one advance field by field, the lag window between an overflow and its interrupt, the
timer inside a batch of cycles, and the accesses to DIV, TIMA, TMA and TAC. -/

namespace Sys2Proof.Proofs

open Sys2Proof.Machine Sys2Proof.Laws

/-! ## One advance, field by field -/

/-- The lag runs out with the counter still zero: this T2 reloads and interrupts (rule R71). -/
def lagExpires (b : Block) : Bool := decide (b.lag = 1#3 ∧ b.tima = 0#8)

/-- The counter after T2. -/
def reloadedCounter (b : Block) : Byte := if lagExpires b then b.tma else b.tima

/-- T2, field by field (rule R71). -/
theorem timerLag_eq (b : Block) :
    b.timerLag = { b with
      lag := if b.lag = 0#3 then 0#3 else b.lag - 1#3
      tima := reloadedCounter b
      if_ := if lagExpires b then b.if_ ||| 0b00100#5 else b.if_ } := by
  by_cases hzero : b.lag = 0#3
  · have hexpires : lagExpires b = false := by simp [lagExpires, hzero]
    rw [Block.timerLag, if_pos hzero, if_pos hzero]
    simp [reloadedCounter, hexpires, ← hzero]
  · have hone : b.lag - 1#3 = 0#3 ↔ b.lag = 1#3 := sub_eq_zero
    by_cases hexpires : b.lag = 1#3 ∧ b.tima = 0#8
    · simp [Block.timerLag, reloadedCounter, lagExpires, hexpires, Block.raise, Source.mask, Source.index]
    · simp [Block.timerLag, reloadedCounter, lagExpires, hzero, hone, hexpires]

/-- T3, field by field (rule R71). -/
theorem timerCount_eq (b : Block) :
    b.timerCount = { b with
      tima := if timerBoundary b.tmr_sel b.div then b.tima + 1#8 else b.tima
      lag := if timerBoundary b.tmr_sel b.div && b.tima + 1#8 == 0#8 then 4#3 else b.lag } := by
  cases hboundary : timerBoundary b.tmr_sel b.div with
  | false => simp [Block.timerCount, hboundary]
  | true => by_cases hwrap : b.tima + 1#8 = 0#8 <;> simp [Block.timerCount, hboundary, hwrap]

/-- Off, only the divider counts (rule R71, decision D8). -/
theorem timerAdvance_off {b : Block} (h : b.tmr_on = false) : b.timerAdvance = { b with div := b.div + 1#16 } := by
  simp [Block.timerAdvance, h, Block.timerDivider]

/-- On, T1, T2 and T3 together (rule R71, decisions D8 to D10). -/
theorem timerAdvance_on {b : Block} (h : b.tmr_on = true) :
    b.timerAdvance = { b with
      div := b.div + 1#16
      tima := if timerBoundary b.tmr_sel (b.div + 1#16) then reloadedCounter b + 1#8 else reloadedCounter b
      lag := if timerBoundary b.tmr_sel (b.div + 1#16) && reloadedCounter b + 1#8 == 0#8 then 4#3
        else if b.lag = 0#3 then 0#3 else b.lag - 1#3
      if_ := if lagExpires b then b.if_ ||| 0b00100#5 else b.if_ } := by
  rw [Block.timerAdvance, if_pos h, timerCount_eq, timerLag_eq]
  rfl

/-- On, away from a period boundary: the counter does not count (rule R71). -/
theorem timerAdvance_quiet {b : Block} (h : b.tmr_on = true) (hq : timerBoundary b.tmr_sel (b.div + 1#16) = false) :
    b.timerAdvance = { b with
      div := b.div + 1#16
      tima := reloadedCounter b
      lag := if b.lag = 0#3 then 0#3 else b.lag - 1#3
      if_ := if lagExpires b then b.if_ ||| 0b00100#5 else b.if_ } := by
  simp [timerAdvance_on h, hq]

/-! ## The lag window -/

/-- The next advance overflows the counter, with no earlier overflow under way. -/
structure AboutToOverflow (b : Block) : Prop where
  on : b.tmr_on = true
  unarmed : b.lag = 0#3
  full : b.tima = 0xFF#8
  boundary : (b.div + 1#16).toNat % period b.tmr_sel = 0

/-- The divider meets no period boundary in the next k cycles. -/
def QuietFor (k : Nat) (sel : BitVec 2) (d : BitVec 16) : Prop :=
  ∀ j, 0 < j → j ≤ k → timerBoundary sel (d + BitVec.ofNat 16 j) = false

/-- The divider after one cycle and j more. -/
theorem add_one_add_ofNat (d : BitVec 16) (j : Nat) : d + 1#16 + BitVec.ofNat 16 j = d + BitVec.ofNat 16 (j + 1) := by
  rw [BitVec.add_assoc, ← BitVec.ofNat_add, Nat.add_comm]

theorem QuietFor.next {k : Nat} {sel : BitVec 2} {d : BitVec 16} (h : QuietFor (k + 1) sel d) :
    timerBoundary sel (d + 1#16) = false := h 1 (by omega) (by omega)

theorem QuietFor.rest {k : Nat} {sel : BitVec 2} {d : BitVec 16} (h : QuietFor (k + 1) sel d) :
    QuietFor k sel (d + 1#16) := by
  intro j hpos hj
  rw [add_one_add_ofNat]
  exact h (j + 1) (by omega) (by omega)

/-- Two boundaries are at least 16 cycles apart, the shortest period (rule R70). -/
theorem quietFor_after_boundary {sel : BitVec 2} {d : BitVec 16} (h : d.toNat % period sel = 0) :
    QuietFor 15 sel d := by
  intro j hpos hj
  rw [timerBoundary_eq, decide_eq_false_iff_not, BitVec.toNat_add, BitVec.toNat_ofNat]
  rcases selector_cases sel with rfl | rfl | rfl | rfl <;> simp [period] at h ⊢ <;> omega

/-- The advance that overflows (rule R71). -/
theorem timerAdvance_overflow {b : Block} (h : AboutToOverflow b) :
    b.timerAdvance = { b with div := b.div + 1#16, tima := 0#8, lag := 4#3 } := by
  have hboundary : timerBoundary b.tmr_sel (b.div + 1#16) = true := by
    rw [timerBoundary_eq, decide_eq_true h.boundary]
  simp [timerAdvance_on h.on, hboundary, reloadedCounter, lagExpires, h.unarmed, h.full]

/-- The timer is on, k of an armed lag are left, and no boundary comes before it runs out. -/
structure LagArmed (k : Nat) (b : Block) : Prop where
  on : b.tmr_on = true
  lag : b.lag = BitVec.ofNat 3 k
  le_four : k ≤ 4
  quiet : QuietFor k b.tmr_sel b.div

/-- The overflow arms the whole lag (rules R71, R72). -/
theorem AboutToOverflow.armed {b : Block} (h : AboutToOverflow b) : LagArmed 4 b.timerAdvance := by
  rw [timerAdvance_overflow h]
  exact ⟨h.on, rfl, le_rfl, fun j hpos hj => quietFor_after_boundary h.boundary j hpos (by omega)⟩

/-- A lag of 2 to 4 does not run out at the next T2 (rules R16, R71). -/
theorem lag_counts_down {r : Nat} (hr : r ≤ 2) :
    BitVec.ofNat 3 (r + 2) ≠ 0#3 ∧ BitVec.ofNat 3 (r + 2) ≠ 1#3 ∧
      BitVec.ofNat 3 (r + 2) - 1#3 = BitVec.ofNat 3 (r + 1) := by
  interval_cases r <;> decide

/-- A lag that does not run out yet counts down, and nothing else moves but the divider. -/
theorem LagArmed.timerAdvance_eq {b : Block} {r : Nat} (h : LagArmed (r + 2) b) :
    b.timerAdvance = { b with div := b.div + 1#16, lag := BitVec.ofNat 3 (r + 1) } := by
  obtain ⟨hon, hlag, hle, hquiet⟩ := h
  obtain ⟨hzero, hone, hsub⟩ := lag_counts_down (r := r) (by omega)
  simp [timerAdvance_quiet hon hquiet.next, reloadedCounter, lagExpires, hlag, hzero, hone, hsub]

theorem LagArmed.timerAdvance {b : Block} {r : Nat} (h : LagArmed (r + 2) b) : LagArmed (r + 1) b.timerAdvance := by
  rw [h.timerAdvance_eq]
  exact ⟨h.on, rfl, Nat.le_of_succ_le h.le_four, h.quiet.rest⟩

/-- m advances that do not use the lag up. -/
theorem LagArmed.iterate {b : Block} {m r : Nat} (h : LagArmed (m + r + 1) b) :
    Block.timerAdvance^[m] b = { b with div := b.div + BitVec.ofNat 16 m, lag := BitVec.ofNat 3 (r + 1) } ∧
      LagArmed (r + 1) (Block.timerAdvance^[m] b) := by
  induction m generalizing b with
  | zero =>
    rw [Nat.zero_add] at h
    exact ⟨by simp [← h.lag], h⟩
  | succ m ih =>
    have hfirst : LagArmed (m + r + 2) b := by convert h using 1; omega
    obtain ⟨heq, harmed⟩ := ih hfirst.timerAdvance
    rw [Function.iterate_succ_apply]
    refine ⟨?_, harmed⟩
    rw [heq, hfirst.timerAdvance_eq, add_one_add_ofNat]

/-- The advances that use the lag up: a counter still zero is reloaded and the Timer flag raised (rules R71, R72). -/
theorem LagArmed.iterate_expires {b : Block} {r : Nat} (h : LagArmed (r + 1) b) :
    Block.timerAdvance^[r + 1] b = { b with
      div := b.div + BitVec.ofNat 16 (r + 1)
      lag := 0#3
      tima := if b.tima = 0#8 then b.tma else b.tima
      if_ := if b.tima = 0#8 then b.if_ ||| 0b00100#5 else b.if_ } := by
  induction r generalizing b with
  | zero =>
    have hlag : b.lag = 1#3 := h.lag
    simp [timerAdvance_quiet h.on h.quiet.next, reloadedCounter, lagExpires, hlag]
  | succ r ih =>
    rw [Function.iterate_succ_apply, ih h.timerAdvance, h.timerAdvance_eq, add_one_add_ofNat]

/-- Inside the window the counter reads 0, and what is left of the lag is armed (rule R72). -/
theorem AboutToOverflow.iterate {b : Block} {n r : Nat} (h : AboutToOverflow b) (hnr : n + r = 3) :
    Block.timerAdvance^[n + 1] b =
        { b with div := b.div + BitVec.ofNat 16 (n + 1), tima := 0#8, lag := BitVec.ofNat 3 (r + 1) } ∧
      LagArmed (r + 1) (Block.timerAdvance^[n + 1] b) := by
  have harmed : LagArmed (n + r + 1) b.timerAdvance := by rw [hnr]; exact h.armed
  obtain ⟨heq, hleft⟩ := harmed.iterate
  rw [Function.iterate_succ_apply]
  refine ⟨?_, hleft⟩
  rw [heq, timerAdvance_overflow h, add_one_add_ofNat]

/-- The fourth advance after the overflow reloads the counter and raises the Timer flag (rule R72). -/
theorem AboutToOverflow.iterate_reloads {b : Block} (h : AboutToOverflow b) :
    Block.timerAdvance^[5] b =
      { b with div := b.div + 5#16, tima := b.tma, lag := 0#3, if_ := b.if_ ||| 0b00100#5 } := by
  rw [Function.iterate_succ_apply, h.armed.iterate_expires, timerAdvance_overflow h, add_one_add_ofNat]
  rfl

/-! ## Sequences of operations on the timer -/

/-- Advances alone move the block alone. -/
theorem execTimes_timerAdvance (n : Nat) (s : State) :
    execTimes n .timerAdvance s = .next (s.onBlock Block.timerAdvance^[n]) := by
  induction n generalizing s with
  | zero => rfl
  | succ n ih => rw [execTimes_succ rfl, ih]; rfl

/-- One change of the block among advances: it finds the block the advances before it leave. -/
theorem execAll_among_advances {i : Instr} {f : Block → Block} (hi : ∀ s, exec i s = .next (s.onBlock f))
    (n m : Nat) (s : State) :
    execAll (List.replicate n .timerAdvance ++ i :: List.replicate m .timerAdvance) s =
      .next (s.onBlock fun b => Block.timerAdvance^[m] (f (Block.timerAdvance^[n] b))) := by
  rw [execAll_append (execTimes_timerAdvance n s), execAll_cons (hi _)]
  exact execTimes_timerAdvance m _

/-! ## The writes to the counter and the modulo, which every variant has (rules R77, R79) -/

theorem exec_wrTima (v : Byte) (s : State) : exec (.wrTima v) s = .next (s.onBlock fun b => { b with tima := v }) :=
  congrArg Host.Outcome.next (writeReg_claimed (r := .tima) rfl v)

theorem exec_wrTma (v : Byte) (s : State) : exec (.wrTma v) s = .next (s.onBlock fun b => { b with tma := v }) :=
  congrArg Host.Outcome.next (writeReg_claimed (r := .tma) rfl v)

/-! ## The timer in a batch of cycles -/

/-- The timer of two blocks is in one state, its pending flag included. -/
structure SameTimer (b c : Block) : Prop where
  div : b.div = c.div
  tima : b.tima = c.tima
  lag : b.lag = c.lag
  tma : b.tma = c.tma
  tmr_on : b.tmr_on = c.tmr_on
  tmr_sel : b.tmr_sel = c.tmr_sel
  flag : b.if_.getLsbD Source.timer.index = c.if_.getLsbD Source.timer.index

theorem SameTimer.refl (b : Block) : SameTimer b b := ⟨rfl, rfl, rfl, rfl, rfl, rfl, rfl⟩

theorem SameTimer.trans {a b c : Block} (h : SameTimer a b) (g : SameTimer b c) : SameTimer a c :=
  ⟨h.div.trans g.div, h.tima.trans g.tima, h.lag.trans g.lag, h.tma.trans g.tma, h.tmr_on.trans g.tmr_on,
    h.tmr_sel.trans g.tmr_sel, h.flag.trans g.flag⟩

/-- The timer's next state is its own affair: it depends on nothing else of the block (rule R71). -/
theorem SameTimer.timerAdvance {b c : Block} (h : SameTimer b c) : SameTimer b.timerAdvance c.timerAdvance := by
  obtain ⟨hdiv, htima, hlag, htma, hon, hsel, hflag⟩ := h
  cases hc : c.tmr_on with
  | false =>
    rw [timerAdvance_off hc, timerAdvance_off (hon.trans hc)]
    exact ⟨by rw [hdiv], htima, hlag, htma, hon, hsel, hflag⟩
  | true =>
    have hexpires : lagExpires b = lagExpires c := by rw [lagExpires, lagExpires, hlag, htima]
    have hreloaded : reloadedCounter b = reloadedCounter c := by
      rw [reloadedCounter, reloadedCounter, hexpires, htima, htma]
    rw [timerAdvance_on hc, timerAdvance_on (hon.trans hc)]
    refine ⟨by rw [hdiv], ?_, ?_, htma, hon, hsel, ?_⟩
    · simp only [hdiv, hsel, hreloaded]
    · simp only [hdiv, hsel, hreloaded, hlag]
    · rw [hexpires]
      cases lagExpires c with
      | false => exact hflag
      | true => simp [Source.index]

/-- The serial port's cycle leaves the timer alone (rule R82). -/
theorem serialAdvance_sameTimer (c : Config) (b : Block) : SameTimer (b.serialAdvance c) b := by
  have hframe := serialAdvance_frame c b
  exact ⟨serialAdvance_div c b, serialAdvance_tima c b, serialAdvance_lag c b, hframe.tma, hframe.tmr_on,
    hframe.tmr_sel, serialAdvance_flag c b _ (by decide)⟩

/-- One consumed cycle is one advance of the timer (rules R73, R108). -/
theorem cycle_sameTimer {s : State} (h : s.Inv) : SameTimer s.cycle.toBlock s.toBlock.timerAdvance := by
  have hserial := serialAdvance_sameTimer s.cfg s.toBlock.timerAdvance
  rw [cycle_block h]
  split
  · exact ⟨hserial.div, hserial.tima, hserial.lag, hserial.tma, hserial.tmr_on, hserial.tmr_sel, hserial.flag⟩
  · exact hserial

/-- n consumed cycles are n advances of the timer, from any block whose timer is in the same state (rule R73). -/
theorem runLoop_sameTimer (n : Nat) {s : State} {b : Block} (hInv : s.Inv) (h : SameTimer s.toBlock b) :
    SameTimer (State.runLoop n s).toBlock (Block.timerAdvance^[n] b) := by
  induction n generalizing s b with
  | zero => exact h
  | succ n ih => exact ih (cycle_Inv hInv) ((cycle_sameTimer hInv).trans h.timerAdvance)

/-- The Display and Audio Units leave the timer as the cycles did (rules R7, R108). -/
theorem runCycles_sameTimer (n : Nat) (s : State) :
    SameTimer (State.runCycles n s).toBlock (State.runLoop n s).toBlock := by
  have hflag : (State.runCycles n s).if_.getLsbD Source.timer.index =
      (State.runLoop n s).if_.getLsbD Source.timer.index := displayAdvance_flag _ _ _ (by decide)
  rw [runCycles_block]
  exact ⟨rfl, rfl, rfl, rfl, rfl, rfl, hflag⟩

/-! ## The obligations -/

/-- Settles O20: off, `timerAdvance_off`; on, `timerAdvance_on`, the boundary test read as divisibility. -/
theorem timerAdvanceMovesTheTimerByItsRule : Obligations.TimerAdvanceMovesTheTimerByItsRule := by
  intro s
  refine congrArg Host.Outcome.next ?_
  split
  · rename_i hon
    rw [State.onBlock, timerAdvance_on hon, timerBoundary_eq]
    cases decide ((s.div + 1#16).toNat % period s.tmr_sel = 0) with
    | false => rfl
    | true => rfl
  · rename_i hoff
    rw [State.onBlock, timerAdvance_off (by simpa using hoff)]

/-- Settles O21: up to 3 advances after the overflow by `AboutToOverflow.iterate`, the fourth by `iterate_reloads`. -/
theorem timerFlagComesFourCyclesAfterTheOverflow : Obligations.TimerFlagComesFourCyclesAfterTheOverflow := by
  intro s n hon hunarmed hfull hboundary hn
  have h : AboutToOverflow s.toBlock := ⟨hon, hunarmed, hfull, hboundary⟩
  rw [execTimes_timerAdvance, State.onBlock]
  by_cases hlast : n = 4
  · subst hlast
    rw [h.iterate_reloads]
    rfl
  · rw [(h.iterate (r := 3 - n) (by omega)).1, if_neg hlast, if_neg hlast, show 3 - n + 1 = 4 - n by omega]

/-- Settles O22: the write finds the window's block and leaves its lag armed, so the rest of the window ends by
`LagArmed.iterate_expires`, on a nonzero counter or on a new modulo. -/
theorem writesInsideTheLagWindow : Obligations.WritesInsideTheLagWindow := by
  intro s n v hon hunarmed hfull hboundary hn
  have h : AboutToOverflow s.toBlock := ⟨hon, hunarmed, hfull, hboundary⟩
  obtain ⟨r, hnr⟩ : ∃ r, n + r = 3 := ⟨3 - n, by omega⟩
  obtain ⟨hwindow, harmed⟩ := h.iterate hnr
  have hrest : 4 - n = r + 1 := by omega
  have hdiv : s.div + BitVec.ofNat 16 (n + 1) + BitVec.ofNat 16 (r + 1) = s.div + 5#16 := by
    rw [BitVec.add_assoc, ← BitVec.ofNat_add, show n + 1 + (r + 1) = 5 by omega]
  rw [hrest]
  refine ⟨fun hv => ?_, ?_⟩
  · have hwritten : LagArmed (r + 1) { Block.timerAdvance^[n + 1] s.toBlock with tima := v } :=
      ⟨harmed.on, harmed.lag, harmed.le_four, harmed.quiet⟩
    rw [execAll_among_advances (exec_wrTima v), State.onBlock, hwritten.iterate_expires, hwindow]
    simp [hv, hdiv]
  · have hwritten : LagArmed (r + 1) { Block.timerAdvance^[n + 1] s.toBlock with tma := v } :=
      ⟨harmed.on, harmed.lag, harmed.le_four, harmed.quiet⟩
    rw [execAll_among_advances (exec_wrTma v), State.onBlock, hwritten.iterate_expires, hwindow]
    simp [hdiv]

/-- Settles O23: `runLoop_sameTimer` for the cycles and `runCycles_sameTimer` for the two units after them. -/
theorem runningCyclesBatchesTheTimer : Obligations.RunningCyclesBatchesTheTimer := by
  refine ⟨fun n s hInv => ⟨_, execTimes_timerAdvance n s, ?_⟩, fun _ _ => rfl⟩
  have h := (runCycles_sameTimer n s).trans (runLoop_sameTimer n hInv (.refl s.toBlock))
  exact ⟨h.div, h.tima, h.lag, h.tma, h.tmr_on, h.tmr_sel, h.flag⟩

/-- Settles O19: the boundary test is `timerBoundary_eq`, the exponents are 10, 4, 6 and 8. -/
theorem timerPeriods : Obligations.TimerPeriods := by
  refine ⟨rfl, rfl, rfl, rfl, fun sel => ?_, fun sel d => by rw [timerBoundary_eq, decide_eq_true_iff]⟩
  rcases selector_cases sel with rfl | rfl | rfl | rfl
  · exact ⟨10, rfl⟩
  · exact ⟨4, rfl⟩
  · exact ⟨6, rfl⟩
  · exact ⟨8, rfl⟩

/-- Settles O24: the four registers are on every variant, so the named reads are the register's own; by address they are
the same by `namedAccessIsTheGenericAccess`. -/
theorem timerRegisterReads : Obligations.TimerRegisterReads := by
  intro s
  refine ⟨congrArg Host.Outcome.next (readReg_claimed (r := .div) rfl),
    congrArg Host.Outcome.next (readReg_claimed (r := .tima) rfl),
    congrArg Host.Outcome.next (readReg_claimed (r := .tma) rfl),
    congrArg Host.Outcome.next (readReg_claimed (r := .tac) rfl), fun hc => ?_⟩
  have hread (r : Reg) := (namedAccessIsTheGenericAccess s r 0#8 hc).1
  exact ⟨hread .div, hread .tima, hread .tma, hread .tac⟩

/-- Settles O25: as O24, with the register's own write. -/
theorem timerRegisterWrites : Obligations.TimerRegisterWrites := by
  intro s d
  refine ⟨congrArg Host.Outcome.next (writeReg_claimed (r := .div) rfl d), exec_wrTima d s, exec_wrTma d s,
    congrArg Host.Outcome.next (writeReg_claimed (r := .tac) rfl d), fun hc => ?_⟩
  have hwrite (r : Reg) := (namedAccessIsTheGenericAccess s r d hc).2
  exact ⟨hwrite .div, hwrite .tima, hwrite .tma, hwrite .tac⟩

end Sys2Proof.Proofs
end

section
/-! The serial port (spec/42_serial.md): one advance field by field, a byte at standard speed on the internal clock, and
the accesses to SB and SC. -/

namespace Sys2Proof.Proofs

open Sys2Proof.Machine Sys2Proof.Laws

/-! ## One advance, field by field -/

/-- Idle: both counters are held at zero (rule R82). -/
theorem serialAdvance_idle (c : Config) {b : Block} (h : b.ser_start = false) :
    b.serialAdvance c = { b with ser_clk := 0#9, ser_bits := 0#4 } := by
  simp [Block.serialAdvance, h]

/-- On the external clock a started transfer does not move (rule R83). -/
theorem serialAdvance_external (c : Config) {b : Block} (hstart : b.ser_start = true)
    (hclock : b.ser_internal = false) : b.serialAdvance c = b := by
  simp [Block.serialAdvance, hstart, hclock]

/-- The next advance of a transfer ends a bit (rule R82). -/
def bitEnds (c : Config) (b : Block) : Bool := serialBoundary c b.ser_fast (b.ser_clk + 1#9)

/-- The next advance of a transfer ends its eighth bit (rule R82). -/
def byteEnds (c : Config) (b : Block) : Bool := bitEnds c b && decide (b.ser_bits + 1#4 = 8#4)

/-- On the internal clock a started transfer counts, shifts and completes (rule R82). -/
theorem serialAdvance_internal (c : Config) {b : Block} (hstart : b.ser_start = true)
    (hclock : b.ser_internal = true) :
    b.serialAdvance c = { b with
      sb := if bitEnds c b then b.sb <<< 1 ||| 1#8 else b.sb
      ser_clk := if byteEnds c b then 0#9 else b.ser_clk + 1#9
      ser_bits := if byteEnds c b then 0#4 else if bitEnds c b then b.ser_bits + 1#4 else b.ser_bits
      ser_start := if byteEnds c b && c.serialDoneClearsStart then false else b.ser_start
      if_ := if byteEnds c b then b.if_ ||| 0b01000#5 else b.if_ } := by
  rw [Block.serialAdvance, byteEnds, bitEnds]
  cases serialBoundary c b.ser_fast (b.ser_clk + 1#9) with
  | false => simp [hstart, hclock]
  | true =>
    by_cases heighth : b.ser_bits + 1#4 = 8#4
    · simp [hstart, hclock, Block.serialShift, heighth, Block.raise, Source.mask, Source.index]
    · simp [hstart, hclock, Block.serialShift, heighth]

/-! ## A byte at standard speed -/

/-- A transfer at standard speed on the internal clock is about to begin. -/
structure ReadyToSend (b : Block) : Prop where
  start : b.ser_start = true
  internal : b.ser_internal = true
  standard : b.ser_fast = false
  clock : b.ser_clk = 0#9
  bits : b.ser_bits = 0#4

/-- The block n advances into a byte at standard speed: a 1 shifted in for each 512 of them (rule R82). -/
def sentFor (n : Nat) (b : Block) : Block :=
  { b with
    sb := b.sb <<< (n / 512) ||| BitVec.ofNat 8 (2 ^ (n / 512) - 1)
    ser_clk := BitVec.ofNat 9 n
    ser_bits := BitVec.ofNat 4 (n / 512) }

theorem ReadyToSend.sentFor_zero {b : Block} (h : ReadyToSend b) : sentFor 0 b = b := by
  simp [sentFor, ← h.clock, ← h.bits]

/-- One more 1 shifted in behind k of them (rule R82). -/
theorem shiftIn_one {k : Nat} (hk : k < 8) (v : Byte) :
    (v <<< k ||| BitVec.ofNat 8 (2 ^ k - 1)) <<< 1 ||| 1#8 =
      v <<< (k + 1) ||| BitVec.ofNat 8 (2 ^ (k + 1) - 1) := by
  have hones : BitVec.ofNat 8 (2 ^ k - 1) <<< 1 ||| 1#8 = BitVec.ofNat 8 (2 ^ (k + 1) - 1) := by
    interval_cases k <;> decide
  rw [BitVec.shiftLeft_or_distrib, ← BitVec.shiftLeft_add, BitVec.or_assoc, hones]

/-- At standard speed the bit ends at every 512th advance (rule R82). -/
theorem bitEnds_sentFor {b : Block} (h : ReadyToSend b) (c : Config) (n : Nat) :
    bitEnds c (sentFor n b) = decide (512 ∣ n + 1) := by
  have hmask : bitEnds c (sentFor n b) = decide ((BitVec.ofNat 9 (n + 1)).toNat % 2 ^ 9 = 0) := by
    rw [bitEnds, sentFor, h.standard, ← BitVec.ofNat_add]
    exact mask_eq_zero_iff _ 9 le_rfl
  rw [hmask, BitVec.toNat_ofNat, Nat.mod_mod]
  exact decide_eq_decide.mpr Nat.dvd_iff_mod_eq_zero.symm

/-- At standard speed the byte ends at the 4096th advance and not before (rule R82). -/
theorem byteEnds_sentFor {b : Block} (h : ReadyToSend b) (c : Config) {n : Nat} (hn : n < 4096) :
    byteEnds c (sentFor n b) = decide (n + 1 = 4096) := by
  have hbits : BitVec.ofNat 4 (n / 512) + 1#4 = 8#4 ↔ n / 512 = 7 := by
    rw [← BitVec.toNat_inj, BitVec.toNat_add, BitVec.toNat_ofNat, BitVec.toNat_ofNat, BitVec.toNat_ofNat]; omega
  rw [byteEnds, bitEnds_sentFor h, ← Bool.decide_and, decide_eq_decide, sentFor, hbits]
  omega

/-- An advance before the last takes the transfer one advance further (rule R82). -/
theorem ReadyToSend.serialAdvance_sentFor {b : Block} (h : ReadyToSend b) (c : Config) {n : Nat} (hn : n + 1 < 4096) :
    (sentFor n b).serialAdvance c = sentFor (n + 1) b := by
  rw [serialAdvance_internal c (b := sentFor n b) h.start h.internal, byteEnds_sentFor h c (by omega),
    bitEnds_sentFor h, decide_eq_false hn.ne]
  by_cases hbit : 512 ∣ n + 1
  · have hcount : (n + 1) / 512 = n / 512 + 1 := Nat.succ_div_of_dvd hbit
    simp [hbit, sentFor, hcount, shiftIn_one (k := n / 512) (by omega), BitVec.ofNat_add]
  · have hcount : (n + 1) / 512 = n / 512 := Nat.succ_div_of_not_dvd hbit
    simp [hbit, sentFor, hcount, BitVec.ofNat_add]

/-- The last advance shifts the eighth 1 in, raises the Serial flag and zeroes the counters (rule R82, decision D14). -/
theorem ReadyToSend.serialAdvance_last {b : Block} (h : ReadyToSend b) (c : Config) :
    (sentFor 4095 b).serialAdvance c = { b with
      sb := 0xFF#8
      if_ := b.if_ ||| 0b01000#5
      ser_start := if c.serialDoneClearsStart then false else b.ser_start } := by
  rw [serialAdvance_internal c (b := sentFor 4095 b) h.start h.internal, byteEnds_sentFor h c (by decide),
    bitEnds_sentFor h]
  have hbyte : (b.sb <<< 7 ||| 127#8) <<< 1 ||| 1#8 = 0xFF#8 :=
    (shiftIn_one (k := 7) (by decide) b.sb).trans (by simp)
  simp [sentFor, hbyte, ← h.clock, ← h.bits]

/-- Before the last advance the transfer is as far as the advances made (rule R82). -/
theorem ReadyToSend.iterate {b : Block} (h : ReadyToSend b) (c : Config) {n : Nat} (hn : n < 4096) :
    (Block.serialAdvance c)^[n] b = sentFor n b := by
  induction n with
  | zero => exact h.sentFor_zero.symm
  | succ n ih => rw [Function.iterate_succ_apply', ih (by omega), h.serialAdvance_sentFor c hn]

/-- An operation that moves the block alone, under the machine's own parameters, performed n times. -/
theorem execTimes_of_onBlock {i : Instr} {f : Config → Block → Block}
    (hi : ∀ s, exec i s = .next (s.onBlock (f s.cfg))) (n : Nat) (s : State) :
    execTimes n i s = .next (s.onBlock (f s.cfg)^[n]) := by
  induction n generalizing s with
  | zero => rfl
  | succ n ih => rw [execTimes_succ (hi s), ih]; rfl

theorem execTimes_serialAdvance (n : Nat) (s : State) :
    execTimes n .serialAdvance s = .next (s.onBlock (Block.serialAdvance s.cfg)^[n]) :=
  execTimes_of_onBlock (fun _ => rfl) n s

/-! ## The obligations -/

/-- Settles O26: idle, on the external clock, or counting, the boundary test read as divisibility. -/
theorem serialAdvanceMovesThePortByItsRule : Obligations.SerialAdvanceMovesThePortByItsRule := by
  intro s hc
  refine congrArg Host.Outcome.next ?_
  rw [State.serialAdvance, State.onBlock]
  split
  case isTrue hidle => rw [serialAdvance_idle s.cfg hidle]
  case isFalse hstarted =>
    have hstart : s.ser_start = true := by simpa using hstarted
    split
    case isTrue hexternal => rw [serialAdvance_external s.cfg hstart hexternal]
    case isFalse hinternal =>
      rw [serialAdvance_internal s.cfg hstart (by simpa using hinternal), byteEnds, bitEnds, serialBoundary_eq hc]
      rfl

/-- Settles O27: before the last advance the block is `sentFor n`, and the last is `serialAdvance_last`. -/
theorem standardTransferTakes4096Advances : Obligations.StandardTransferTakes4096Advances := by
  intro s hstart hinternal hstandard hclock hbits
  have h : ReadyToSend s.toBlock := ⟨hstart, hinternal, hstandard, hclock, hbits⟩
  refine ⟨fun n hn => ?_, ?_⟩
  · rw [execTimes_serialAdvance, State.onBlock, h.iterate s.cfg hn]
    rfl
  · rw [execTimes_serialAdvance, State.onBlock, Function.iterate_succ_apply', h.iterate s.cfg (by decide),
      h.serialAdvance_last]

/-- Settles O28: both registers are on every variant, so the named accesses are the register's own; by address they are
the same by `namedAccessIsTheGenericAccess`. -/
theorem serialRegisterAccesses : Obligations.SerialRegisterAccesses := by
  intro s d
  refine ⟨congrArg Host.Outcome.next (readReg_claimed (r := .sb) rfl),
    congrArg Host.Outcome.next (writeReg_claimed (r := .sb) rfl d),
    congrArg Host.Outcome.next (readReg_claimed (r := .sc) rfl),
    congrArg Host.Outcome.next (writeReg_claimed (r := .sc) rfl d), fun hc => ?_⟩
  obtain ⟨hReadSb, hWriteSb⟩ := namedAccessIsTheGenericAccess s .sb d hc
  obtain ⟨hReadSc, hWriteSc⟩ := namedAccessIsTheGenericAccess s .sc d hc
  exact ⟨hReadSb, hWriteSb, hReadSc, hWriteSc⟩

end Sys2Proof.Proofs
end

section
/-! The DMA byte scheduler (spec/43_dma.md): one advance as a byte stored and a count, the whole transfer by induction on
its advances, and the accesses to DMA. -/

namespace Sys2Proof.Proofs

open Sys2Proof.Machine Sys2Proof.Laws

/-! ## One advance -/

/-- The count of a running transfer, up to its last byte (rule R89). -/
theorem dmaCount_eq {b : Block} (hactive : b.dma_active = true) (hidx : b.dma_idx.toNat ≤ 0x9F) :
    b.dmaCount = { b with dma_idx := b.dma_idx + 1#8, dma_active := decide (b.dma_idx.toNat ≠ 0x9F) } := by
  have hlast : b.dma_idx + 1#8 = Config.dmaLength ↔ b.dma_idx.toNat = 0x9F := by
    rw [← BitVec.toNat_inj, BitVec.toNat_add, BitVec.toNat_ofNat, BitVec.toNat_ofNat]; omega
  by_cases h : b.dma_idx.toNat = 0x9F <;> simp [Block.dmaCount, hlast, hactive, h]

/-- An active advance stores the byte read and counts: `dmaAdvance_active` without the invariant of memory (rule R89). -/
theorem dmaAdvance_eq {s : State} (hc : s.cfg.wf = true) (hactive : s.dma_active = true)
    (hidx : s.dma_idx.toNat ≤ 0x9F) :
    s.dmaAdvance = ((s.busRead s.toBlock.dmaSource).2.poke (s.cfg.oamAddr s.dma_idx)
      (s.busRead s.toBlock.dmaSource).1).onBlock Block.dmaCount := by
  have hwindow : (s.busRead s.toBlock.dmaSource).2.cfg.isExternal (s.cfg.oamAddr s.dma_idx) = true := by
    rw [busRead_cfg]; exact oam_external hc (by omega)
  rw [State.dmaAdvance, if_pos hactive, State.dmaCopy, busWrite_external hwindow]

/-! ## The whole transfer -/

/-- `t` is what a transfer from `src`, started in `s`, has come to after `n` of its advances (rules R18, R89). -/
structure TransferredTo (n : Nat) (src : Addr) (s t : State) : Prop where
  block : t.toBlock = { s.toBlock with
    dma_src := src, dma_idx := BitVec.ofNat 8 n, dma_active := decide (n < 160) }
  rest : t = { s with mem := t.mem, toBlock := t.toBlock }
  copied : ∀ i : Nat, i < n → t.peek (s.cfg.oamBase + BitVec.ofNat 16 i) = s.peek (src + BitVec.ofNat 16 i)
  others : ∀ a, (∀ i : Nat, i < n → a ≠ s.cfg.oamBase + BitVec.ofNat 16 i) → t.peek a = s.peek a

/-- The start has copied nothing yet (rule R88). -/
theorem transferredTo_start (src : Addr) (s : State) : TransferredTo 0 src s (s.onBlock (Block.dmaStart src)) :=
  ⟨rfl, rfl, fun _ hi => absurd hi (Nat.not_lt_zero _), fun _ _ => rfl⟩

/-- The places of the window are apart (rule R89). -/
theorem add_ofNat_ne (a : Addr) {i j : Nat} (hi : i < 160) (hj : j < 160) (hij : i ≠ j) :
    a + BitVec.ofNat 16 i ≠ a + BitVec.ofNat 16 j := by
  intro h
  have hsame : i % 65536 = j % 65536 := by simpa using congrArg BitVec.toNat ((BitVec.add_right_inj a).mp h)
  omega

/-- An index of the transfer, widened to an address. -/
theorem setWidth_index {n : Nat} (hn : n < 160) : (BitVec.ofNat 8 n).setWidth 16 = BitVec.ofNat 16 n := by
  apply BitVec.eq_of_toNat_eq
  simp only [BitVec.toNat_setWidth, BitVec.toNat_ofNat]
  omega

section Transfer

variable {n : Nat} {src : Addr} {s t : State}

theorem TransferredTo.cfg (h : TransferredTo n src s t) : t.cfg = s.cfg := by rw [h.rest]

/-- An advance within the transfer stores the byte the source held at the start, where the source is plain external
memory outside the window (rule R89). -/
theorem TransferredTo.dmaAdvance_eq (h : TransferredTo n src s t) (hn : n < 160) (hc : s.cfg.wf = true)
    (hsource : s.cfg.isExternal (src + BitVec.ofNat 16 n) = true)
    (hapart : ∀ j : Nat, j < 160 → src + BitVec.ofNat 16 n ≠ s.cfg.oamBase + BitVec.ofNat 16 j) :
    t.dmaAdvance = (t.poke (s.cfg.oamBase + BitVec.ofNat 16 n) (s.peek (src + BitVec.ofNat 16 n))).onBlock
      Block.dmaCount := by
  have hactive : t.dma_active = true := (congrArg Block.dma_active h.block).trans (decide_eq_true hn)
  have hidx : t.dma_idx = BitVec.ofNat 8 n := congrArg Block.dma_idx h.block
  have hplace : t.cfg.oamAddr t.dma_idx = s.cfg.oamBase + BitVec.ofNat 16 n := by
    rw [Config.oamAddr, h.cfg, hidx, setWidth_index hn]
  have hfrom : t.toBlock.dmaSource = src + BitVec.ofNat 16 n := by
    rw [Block.dmaSource, hidx, setWidth_index hn, h.block]
  have hbyte : t.peek (src + BitVec.ofNat 16 n) = s.peek (src + BitVec.ofNat 16 n) :=
    h.others _ fun j hj => hapart j (by omega)
  have hle : t.dma_idx.toNat ≤ 0x9F := by rw [hidx, BitVec.toNat_ofNat]; omega
  rw [Proofs.dmaAdvance_eq (h.cfg ▸ hc) hactive hle, hplace, hfrom, busRead_external (h.cfg.symm ▸ hsource), hbyte]

/-- The count takes the transfer's block one byte further, and ends the transfer at the 160th (rule R89). -/
theorem TransferredTo.dmaCount_block (h : TransferredTo n src s t) (hn : n < 160) :
    t.toBlock.dmaCount = { s.toBlock with
      dma_src := src, dma_idx := BitVec.ofNat 8 (n + 1), dma_active := decide (n + 1 < 160) } := by
  have hidx : (BitVec.ofNat 8 n).toNat = n := Nat.mod_eq_of_lt (by omega)
  have hgoes : (n ≠ 0x9F) = (n + 1 < 160) := propext (by omega)
  rw [h.block, dmaCount_eq (decide_eq_true hn) (by rw [hidx]; omega)]
  simp only [hidx, hgoes, BitVec.ofNat_add]

/-- One more advance takes the transfer one byte further (rule R89). -/
theorem TransferredTo.succ (h : TransferredTo n src s t) (hn : n < 160) (hc : s.cfg.wf = true)
    (hsource : s.cfg.isExternal (src + BitVec.ofNat 16 n) = true)
    (hapart : ∀ j : Nat, j < 160 → src + BitVec.ofNat 16 n ≠ s.cfg.oamBase + BitVec.ofNat 16 j) :
    TransferredTo (n + 1) src s t.dmaAdvance := by
  rw [h.dmaAdvance_eq hn hc hsource hapart]
  refine ⟨h.dmaCount_block hn, ?_, fun i hi => ?_, fun a ha => ?_⟩
  · rw [h.rest]; rfl
  · rw [peek_onBlock]
    obtain hi | rfl : i < n ∨ i = n := by omega
    · rw [peek_poke_other _ _ _ _ (add_ofNat_ne _ (by omega) hn hi.ne), h.copied i hi]
    · rw [peek_poke_same]
  · rw [peek_onBlock, peek_poke_other _ _ _ _ (ha n (Nat.lt_succ_self n))]
    exact h.others a fun i hi => ha i (by omega)

end Transfer

/-- A transfer from plain external memory outside the window, after any number of its advances (rules R88, R89). -/
theorem transferredTo_iterate {s : State} {src : Addr} (hc : s.cfg.wf = true)
    (hsource : ∀ i : Nat, i < 160 → s.cfg.isExternal (src + BitVec.ofNat 16 i) = true)
    (hapart : ∀ i j : Nat, i < 160 → j < 160 → src + BitVec.ofNat 16 i ≠ s.cfg.oamBase + BitVec.ofNat 16 j)
    {n : Nat} (hn : n ≤ 160) :
    TransferredTo n src s (State.dmaAdvance^[n] (s.onBlock (Block.dmaStart src))) := by
  induction n with
  | zero => exact transferredTo_start src s
  | succ n ih =>
    rw [Function.iterate_succ_apply']
    exact (ih (by omega)).succ hn hc (hsource n hn) fun j => hapart n j hn

theorem execTimes_dmaAdvance (n : Nat) (s : State) :
    execTimes n .dmaAdvance s = .next (State.dmaAdvance^[n] s) := by
  induction n generalizing s with
  | zero => rfl
  | succ n ih => exact (execTimes_succ rfl n).trans (ih s.dmaAdvance)

/-! ## The obligations -/

/-- Settles O30: the advance is `dmaAdvance_eq`, its count `dmaCount_eq`; the bytes are the memory laws of
`State.poke`, and the rest is what the bus read leaves alone. -/
theorem dmaAdvanceCopiesOneByte : Obligations.DmaAdvanceCopiesOneByte := by
  refine ⟨fun s hinactive => congrArg Host.Outcome.next (dmaAdvance_inactive hinactive), ?_⟩
  intro s hc hactive hidx source target
  refine ⟨_, congrArg Host.Outcome.next (dmaAdvance_eq hc hactive hidx), peek_poke_same _ _ _, fun a ha => ?_, ?_, rfl,
    busRead_cfg _ _, busRead_session _ _, busRead_pending _ _, busRead_ieuAnswers _ _, busRead_displayAnswers _ _⟩
  · exact (peek_poke_other _ _ _ _ ha).trans (peek_congr (busRead_mem _ _) a)
  · rw [onBlock_toBlock, poke_toBlock, busRead_toBlock, dmaCount_eq hactive hidx]

/-- Settles O31: the start, then 160 advances by `transferredTo_iterate`. -/
theorem dmaTransferCopiesTheWholeWindow : Obligations.DmaTransferCopiesTheWholeWindow := by
  intro s src hc hsource hapart
  have h := transferredTo_iterate hc hsource hapart (n := 160) le_rfl
  refine ⟨_, (execAll_cons rfl _).trans (execTimes_dmaAdvance 160 _), h.rest.trans ?_, h.copied, h.others⟩
  rw [h.block]
  rfl

/-- Settles O29: DMA is on every variant, so the named accesses are the register's own, whose write is DMA.START; by
address they are the same by `namedAccessIsTheGenericAccess`. -/
theorem dmaStartAndRegisterAccesses : Obligations.DmaStartAndRegisterAccesses := by
  intro s a d
  refine ⟨rfl, congrArg Host.Outcome.next (writeReg_claimed (r := .dma) rfl d),
    congrArg Host.Outcome.next (readReg_claimed (r := .dma) rfl), fun hc => ?_⟩
  exact (namedAccessIsTheGenericAccess s .dma d hc).symm

end Sys2Proof.Proofs
end

section
/-! The joypad edge latch (spec/44_joypad.md): the nibble bit by bit, one update as a falling edge, any sequence of
updates, and the accesses to P1. -/

namespace Sys2Proof.Proofs

open Sys2Proof.Machine Sys2Proof.Laws

/-! ## The nibble and its falling edge -/

/-- A bit of the nibble is up unless a selected group has the button of that position pressed (rule R92). -/
theorem joyNibble_getLsbD (btn : Byte) (sd sa : Bool) {i : Nat} (hi : i < 4) :
    (joyNibble btn sd sa).getLsbD i = !(sd && btn.getLsbD i || sa && btn.getLsbD (i + 4)) := by
  have hall : (0xF#4)[i] = true := BitVec.getElem_allOnes i hi
  cases sd <;> cases sa <;> simp [joyNibble, hall, hi, Nat.add_comm]

/-- Between two button states, under one selection, the nibble leaves 0xF (rule R93). -/
abbrev FallingEdge (sd sa : Bool) (old new : Byte) : Prop :=
  joyNibble old sd sa = 0xF#4 ∧ joyNibble new sd sa ≠ 0xF#4

/-- The strict comparison of rule R93: from 0xF the nibble leaves exactly downwards. -/
theorem fallingEdge_iff_lt (sd sa : Bool) (old new : Byte) :
    FallingEdge sd sa old new ↔ joyNibble old sd sa = 0xF#4 ∧ joyNibble new sd sa < 0xF#4 :=
  and_congr_right fun _ => BitVec.lt_allOnes_iff.symm

/-! ## One update -/

/-- The latch's test is the falling edge from the old buttons to the new ones (rule R93). -/
theorem joypad_test_iff (d : Byte) (b : Block) :
    (b.nibble == 0xF#4 && decide (({ b with btn := d } : Block).nibble < b.nibble)) = true ↔
      FallingEdge b.sel_dir b.sel_act b.btn d := by
  rw [fallingEdge_iff_lt, Bool.and_eq_true, beq_iff_eq, decide_eq_true_eq]
  exact and_congr_right fun (h : b.nibble = 0xF#4) => by rw [h]; rfl

/-- The buttons are the operand, the Joypad flag is raised at a falling edge, and nothing else changes (rule R93). -/
theorem joypadUpdate_eq (d : Byte) (b : Block) :
    b.joypadUpdate d = { b with
      btn := d
      if_ := if FallingEdge b.sel_dir b.sel_act b.btn d then b.if_ ||| Source.joypad.mask else b.if_ } := by
  unfold Block.joypadUpdate Block.raiseIf
  by_cases h : FallingEdge b.sel_dir b.sel_act b.btn d
  · rw [if_pos ((joypad_test_iff d b).mpr h), if_pos h]; rfl
  · rw [if_neg (mt (joypad_test_iff d b).mp h), if_neg h]

/-- After an update the Joypad flag is set exactly when it was before or the update is a falling edge (rule R93). -/
theorem joypadUpdate_flag (d : Byte) (b : Block) :
    (b.joypadUpdate d).if_.getLsbD Source.joypad.index = true ↔
      b.if_.getLsbD Source.joypad.index = true ∨ FallingEdge b.sel_dir b.sel_act b.btn d := by
  rw [joypadUpdate_eq]
  dsimp only
  split
  case isTrue h => exact iff_of_true (by rw [raise_getLsbD, decide_eq_true rfl, Bool.true_or]) (.inr h)
  case isFalse h => simp only [h, or_false]

/-! ## Any sequence of updates -/

/-- The sequences of button states with a falling edge somewhere between neighbours are those that are not a chain of
steps without one; the chain's recursion then serves the induction over the updates (rule R96). -/
theorem exists_fallingEdge_iff (sd sa : Bool) (bs : List Byte) :
    (∃ before after old new, bs = before ++ old :: new :: after ∧
      joyNibble old sd sa = 0xF#4 ∧ joyNibble new sd sa < 0xF#4) ↔
    ¬ bs.IsChain fun old new => ¬ FallingEdge sd sa old new := by
  rw [List.isChain_iff_forall_rel_of_append_cons_cons]
  simp only [fallingEdge_iff_lt]
  push Not
  constructor
  · rintro ⟨before, after, old, new, hbs, hedge⟩
    exact ⟨old, new, before, after, hbs, hedge⟩
  · rintro ⟨old, new, before, after, hbs, hedge⟩
    exact ⟨before, after, old, new, hbs, hedge⟩

/-- Updates one after the other: the last one's buttons stand, and the Joypad flag is set afterwards exactly when it was
before or the button states passed through are not a chain of steps without a falling edge (rule R96). -/
theorem execAll_joypadUpdates (ds : List Byte) (s : State) :
    ∃ t, execAll (ds.map .joypadUpdate) s = .next t ∧ t.btn = ds.getLastD s.btn ∧
      (t.if_.getLsbD Source.joypad.index = true ↔ s.if_.getLsbD Source.joypad.index = true ∨
        ¬ (s.btn :: ds).IsChain fun old new => ¬ FallingEdge s.sel_dir s.sel_act old new) := by
  induction ds generalizing s with
  | nil => exact ⟨s, rfl, rfl, by simp⟩
  | cons d ds ih =>
    obtain ⟨t, hrun, hbtn, hflag⟩ := ih (s.onBlock (Block.joypadUpdate d))
    rw [onBlock_toBlock, joypadUpdate_flag, joypadUpdate_eq] at hflag
    rw [onBlock_toBlock, joypadUpdate_eq] at hbtn
    refine ⟨t, (execAll_cons rfl _).trans hrun, hbtn.trans (List.getLastD_cons ..).symm, ?_⟩
    rw [hflag, List.isChain_cons_cons, not_and_or, not_not, or_assoc]

/-! ## The obligations -/

/-- Settles O32: the bit is `joyNibble_getLsbD`. -/
theorem joypadNibbleBits : Obligations.JoypadNibbleBits := by
  intro btn sd sa i hi
  rw [joyNibble_getLsbD btn sd sa hi]
  simp only [Bool.not_eq_false', Bool.or_eq_true, Bool.and_eq_true]

/-- Settles O33: the update of the block is `joypadUpdate_eq`. -/
theorem joypadUpdateRaisesOnlyOnTheFallingEdge : Obligations.JoypadUpdateRaisesOnlyOnTheFallingEdge := by
  intro s d
  refine congrArg Host.Outcome.next ?_
  rw [State.onBlock, joypadUpdate_eq]
  rfl

/-- Settles O34: the run is `execAll_joypadUpdates`, and its edges are those `exists_fallingEdge_iff` finds. -/
theorem joypadFlagFollowsTheFallingEdges : Obligations.JoypadFlagFollowsTheFallingEdges := by
  intro ds s
  obtain ⟨t, hrun, hbtn, hflag⟩ := execAll_joypadUpdates ds s
  refine ⟨t, hrun, hbtn, hflag.trans ?_⟩
  rw [exists_fallingEdge_iff]
  rfl

/-- Settles O35: P1 is on every variant, so the named accesses are the register's own; by address they are the same by
`namedAccessIsTheGenericAccess`. -/
theorem joypadRegisterAccesses : Obligations.JoypadRegisterAccesses := by
  intro s d
  refine ⟨congrArg Host.Outcome.next (writeReg_claimed (r := .p1) rfl d),
    congrArg Host.Outcome.next (readReg_claimed (r := .p1) rfl), fun hc => ?_⟩
  exact (namedAccessIsTheGenericAccess s .p1 d hc).symm

end Sys2Proof.Proofs
end

section
/-! The speed switch (spec/45_speed_switch.md): the commit, the mode under every operation in every state, a step in STOP
mode, and the accesses to KEY1 on both variants. -/

namespace Sys2Proof.Proofs

open Sys2Proof.Machine Sys2Proof.Laws

/-! ## The commit -/

/-- A prepared switch toggles the mode, and none is prepared afterwards (rule R98). -/
theorem speedCommit_eq (b : Block) :
    b.speedCommit = { b with fast := b.fast ^^ b.prepared, prepared := false } := by
  cases hp : b.prepared with
  | true => simp [Block.speedCommit, hp]
  | false =>
    rw [Block.speedCommit, if_neg (Bool.eq_false_iff.mp hp), Bool.xor_false]
    exact congrArg (fun p => { b with prepared := p }) hp

/-- The toggle happens once: a second commit finds no switch prepared (rule R98). -/
theorem speedCommit_speedCommit (b : Block) : b.speedCommit.speedCommit = b.speedCommit := by
  simp only [speedCommit_eq, Bool.xor_false]

/-! ## What leaves the speed mode alone, in every state -/

/-- KEY1 can be written in its prepare bit only, and no other register holds the mode (rules R22 to R32, R99). -/
theorem regWrite_fast (d : Byte) (b : Block) (r : Reg) : (b.regWrite d r).fast = b.fast := by
  cases r <;> rfl

theorem busWrite_fast (a : Addr) (d : Byte) (s : State) : (s.busWrite a d).fast = s.fast := by
  rcases busWrite_cases a d s with ⟨r, -, e⟩ | ⟨-, -, e⟩ | ⟨-, e⟩ <;> rw [e]
  · exact regWrite_fast d s.toBlock r
  · rfl
  · rfl

theorem writeReg_fast (r : Reg) (d : Byte) (s : State) : (s.writeReg r d).fast = s.fast := by
  unfold State.writeReg
  split
  · exact regWrite_fast d s.toBlock r
  · exact congrArg Block.fast (externalWrite_toBlock _ d s)

/-- The copied byte goes over the bus, and even at KEY1 it is a register write (rule R89). -/
theorem dmaAdvance_fast (s : State) : s.dmaAdvance.fast = s.fast := by
  unfold State.dmaAdvance
  split
  · exact (busWrite_fast _ _ _).trans (congrArg Block.fast (busRead_toBlock _ s))
  · rfl

theorem cycle_fast (s : State) : s.cycle.fast = s.fast := by
  rw [cycle_eq, dmaAdvance_fast]
  exact (serialAdvance_frame s.cfg _).fast.trans (timerAdvance_frame s.toBlock).fast

theorem runLoop_fast (n : Nat) (s : State) : (State.runLoop n s).fast = s.fast := by
  induction n generalizing s with
  | zero => rfl
  | succ n ih => exact (ih s.cycle).trans (cycle_fast s)

theorem runCycles_fast (n : Nat) (s : State) : (s.runCycles n).fast = s.fast := by
  rw [runCycles_block]
  exact runLoop_fast n s

theorem ieuOp_fast (o : IeuOp) (s : State) : (s.ieuOp o).fast = s.fast := by
  cases o with
  | regRead a => exact congrArg Block.fast (readOp_toBlock a s)
  | regWrite a d => exact busWrite_fast a d s
  | imeRequest | imeWrite _ | haltEnter | stopEnter => rfl

/-- The Instruction Execution Unit performs no SPEED.COMMIT (rule R5). -/
theorem ieuOps_fast (os : List IeuOp) (s : State) : (State.ieuOps os s).fast = s.fast := by
  induction os generalizing s with
  | nil => rfl
  | cons o os ih => exact (ih (s.ieuOp o)).trans (ieuOp_fast o s)

theorem enterInterrupt_fast (k : Source) (ans : IeuAnswer) (s : State) : (s.enterInterrupt k ans).fast = s.fast :=
  (ieuOps_fast ans.after _).trans (ieuOps_fast ans.before (s.emit (.dispatchInterrupt k (s.cfg.vector k))))

theorem dispatch_fast (irq : Option Source) (s : State) : (s.dispatch irq).2.fast = s.fast := by
  have hasked : s.ieuAnswer.2.fast = s.fast := congrArg Block.fast (ieuAnswer_toBlock s)
  cases irq with
  | none => exact (ieuOps_fast _ _).trans hasked
  | some k => exact (enterInterrupt_fast k _ _).trans hasked

theorem applyImeRequest_fast (b : Block) : b.applyImeRequest.fast = b.fast := by
  unfold Block.applyImeRequest
  split <;> rfl

theorem joypadUpdate_fast (d : Byte) (b : Block) : (b.joypadUpdate d).fast = b.fast := by
  rw [joypadUpdate_eq]

/-! ## A STEP and the mode -/

theorem haltStep_fast (s : State) : s.haltStep.fast = s.fast := by
  unfold State.haltStep
  split <;> exact runCycles_fast _ s

theorem executeStep_fast (s : State) : s.executeStep.fast = s.fast :=
  ((runCycles_fast _ _).trans (dispatch_fast _ _)).trans (applyImeRequest_fast s.toBlock)

/-- The step of STOP mode commits the switch prepared at its start, before its cycles (rules R101, R107). -/
theorem stopStep_fast (s : State) : s.stopStep.fast = (s.fast ^^ s.prepared) :=
  (runCycles_fast _ _).trans (congrArg Block.fast (speedCommit_eq _))

/-- A STEP from s is the step of STOP mode: HALT mode is served first (rule R110, decision D26). -/
abbrev ServesStop (s : State) : Prop := s.halt = false ∧ s.stop = true

theorem stepOnce_of_servesStop {s : State} (h : ServesStop s) : s.stepOnce = s.stopStep := by
  simp [State.stepOnce, h.1, h.2]

/-- A STEP that is not the step of STOP mode leaves the speed mode (rules R106, R111). -/
theorem stepOnce_fast_of_not_servesStop {s : State} (h : ¬ ServesStop s) : s.stepOnce.fast = s.fast := by
  unfold State.stepOnce
  split
  · exact haltStep_fast s
  · rename_i hhalt
    split
    · rename_i hstop
      exact absurd ⟨Bool.eq_false_iff.mpr hhalt, hstop⟩ h
    · exact executeStep_fast s

/-- The mode changes by a commit only where a switch is prepared (rule R98). -/
theorem fast_or_prepared {s : State} {v : Bool} (h : v = (s.fast ^^ s.prepared)) : v = s.fast ∨ s.prepared = true := by
  cases hp : s.prepared with
  | true => exact .inr rfl
  | false => exact .inl (by rw [h, hp, Bool.xor_false])

theorem stepOnce_fast_or_commits (s : State) :
    s.stepOnce.fast = s.fast ∨ (s.prepared = true ∧ ServesStop s) := by
  by_cases h : ServesStop s
  · rw [stepOnce_of_servesStop h]
    exact (fast_or_prepared (stopStep_fast s)).imp_right fun hp => ⟨hp, h⟩
  · exact .inl (stepOnce_fast_of_not_servesStop h)

/-- In a state that meets the invariant the four cycles of a step in STOP mode keep what the commit left, and count the
zeroed divider to 4 (rule R107, decisions D23 and D24). -/
theorem stopStep_switches {s : State} (h : s.Inv) :
    s.stopStep.fast = (s.fast ^^ s.prepared) ∧ s.stopStep.prepared = false ∧ s.stopStep.div = 4#16 ∧
      s.stopStep.stop = false := by
  have hdiv : (s.onBlock fun b => { b with div := 0#16 }).Inv := onBlock_keeps_Inv h fun _ hb => hb
  have hcommit := onBlock_keeps_Inv hdiv speedCommit_inv
  refine ⟨stopStep_fast s, ?_, ?_, rfl⟩
  · exact (runCycles_frame Config.wakeCycles hcommit).block.prepared.trans (congrArg Block.prepared (speedCommit_eq _))
  · refine (runCycles_div Config.wakeCycles hcommit).trans ?_
    rw [onBlock_toBlock, speedCommit_eq]
    rfl

/-- STOP.ENTER and the STEP after it: the sequence that commits a switch (rules R101, R103). -/
theorem execAll_stopEnter_step {s : State} (h : s.Inv) (hhalt : s.halt = false) :
    ∃ t, execAll [.stopEnter, .step] s = .next t ∧ t.fast = (s.fast ^^ s.prepared) ∧ t.prepared = false ∧
      t.div = 4#16 ∧ t.stop = false := by
  let stopped := s.onBlock fun b => { b with stop := true }
  have hstopped : stopped.Inv := onBlock_keeps_Inv h fun _ hb => hb
  refine ⟨stopped.stopStep, ?_, stopStep_switches hstopped⟩
  have hstep : exec .step stopped = .next stopped.stopStep :=
    congrArg Host.Outcome.next (stepOnce_of_servesStop ⟨hhalt, rfl⟩)
  rw [execAll_cons rfl, execAll_cons hstep]
  rfl

/-! ## What an operation does to the mode -/

/-- The operations that commit the speed switch in state s: SPEED.COMMIT, the operations that perform a STEP where that
is the step of STOP mode, and the newline that finishes a `call` of SPEED.COMMIT (rules R98, R101, R143, R145). -/
def CommitsSwitch (i : Instr) (s : State) : Prop :=
  i = .speedCommit ∨ (i = .step ∧ ServesStop s) ∨ (i = .dbgStep ∧ ServesStop s) ∨
    ∃ c path more m, i = .dbgKey c true ∧ tokens s.session.buffer = "call".toList :: path :: more ∧
      methodOf (pathNames path) = some m ∧ (m = .speedCommit ∨ (m = .step ∧ ServesStop s))

/-- A method called at the prompt changes the mode as SPEED.COMMIT or as a STEP does (rule R143). -/
theorem invoke_fast_or_commits {s : State} (hmode : s.session.mode = .awaitingCommand) (m : Method) :
    (s.invoke m).fast = s.fast ∨
      (s.prepared = true ∧ (m = .speedCommit ∨ (m = .step ∧ ServesStop s))) := by
  cases m with
  | step => exact (stepOnce_fast_or_commits s).imp_right fun ⟨hp, hs⟩ => ⟨hp, .inr ⟨rfl, hs⟩⟩
  | speedCommit =>
    exact (fast_or_prepared (congrArg Block.fast (speedCommit_eq s.toBlock))).imp_right fun hp => ⟨hp, .inl rfl⟩
  | imeRequest | haltEnter | stopEnter => exact .inl rfl
  | timerAdvance => exact .inl (timerAdvance_frame s.toBlock).fast
  | serialAdvance => exact .inl (serialAdvance_frame s.cfg s.toBlock).fast
  | dmaAdvance => exact .inl (dmaAdvance_fast s)
  | dbgStep => exact .inl (congrArg (fun u : State => u.fast) (debugStep_of_prompt hmode))

/-- A key event changes the mode only as the newline that calls such a method (rules R143, R146). -/
theorem debugKey_fast_or_commits (c : Byte) (p : Bool) (s : State) :
    (s.debugKey c p).fast = s.fast ∨ (s.prepared = true ∧ CommitsSwitch (.dbgKey c p) s) := by
  rcases debugKey_cases c p s with ⟨f, e⟩ | ⟨rfl, -, -, -, path, more, m, f, hline, hm, hmode, e⟩ <;> rw [e]
  · exact .inl rfl
  · exact (invoke_fast_or_commits (s := s.onSession f) (hmode s.session) m).imp_right fun ⟨hp, hcommit⟩ =>
      ⟨hp, .inr (.inr (.inr ⟨c, path, more, m, rfl, hline, hm, hcommit⟩))⟩

theorem debugStep_fast_or_commits (s : State) :
    s.debugStep.fast = s.fast ∨ (s.prepared = true ∧ ServesStop s) := by
  rcases debugStep_cases s with e | e | ⟨f, e⟩ <;> rw [e]
  · exact .inl rfl
  · exact stepOnce_fast_or_commits s
  · exact .inl rfl

/-- Every operation leaves the speed mode or commits a prepared switch (rule R98). -/
theorem exec_fast_or_commits (i : Instr) (s : State) :
    ∃ t, exec i s = .next t ∧ (t.fast = s.fast ∨ (s.prepared = true ∧ CommitsSwitch i s)) := by
  cases i with
  | step =>
    exact ⟨_, rfl, (stepOnce_fast_or_commits s).imp_right fun ⟨hp, hs⟩ => ⟨hp, .inr (.inl ⟨rfl, hs⟩)⟩⟩
  | speedCommit =>
    exact ⟨_, rfl, (fast_or_prepared (congrArg Block.fast (speedCommit_eq s.toBlock))).imp_right fun hp =>
      ⟨hp, .inl rfl⟩⟩
  | dbgStep =>
    exact ⟨_, rfl, (debugStep_fast_or_commits s).imp_right fun ⟨hp, hs⟩ => ⟨hp, .inr (.inr (.inl ⟨rfl, hs⟩))⟩⟩
  | dbgKey c p => exact ⟨_, rfl, debugKey_fast_or_commits c p s⟩
  | regRead a => exact ⟨_, rfl, .inl (congrArg Block.fast (readOp_toBlock a s))⟩
  | regWrite a d => exact ⟨_, rfl, .inl (busWrite_fast a d s)⟩
  | cyclesRun n => exact ⟨_, rfl, .inl (runCycles_fast n.toNat s)⟩
  | irqRaise _ | irqAck _ | imeRequest | imeWrite _ | haltEnter | stopEnter | dmaStart _ => exact ⟨_, rfl, .inl rfl⟩
  | timerAdvance => exact ⟨_, rfl, .inl (timerAdvance_frame s.toBlock).fast⟩
  | serialAdvance => exact ⟨_, rfl, .inl (serialAdvance_frame s.cfg s.toBlock).fast⟩
  | dmaAdvance => exact ⟨_, rfl, .inl (dmaAdvance_fast s)⟩
  | joypadUpdate d => exact ⟨_, rfl, .inl (joypadUpdate_fast d s.toBlock)⟩
  | speedPrepare b =>
    refine ⟨_, rfl, .inl ?_⟩
    split <;> rfl
  | rdP1 | rdSb | rdSc | rdDiv | rdTima | rdTma | rdTac | rdIf | rdDma | rdKey1 | rdIe =>
    exact ⟨_, rfl, .inl (congrArg Block.fast (readReg_toBlock _ s))⟩
  | wrP1 d | wrSb d | wrSc d | wrDiv d | wrTima d | wrTma d | wrTac d | wrIf d | wrDma d | wrKey1 d | wrIe d =>
    exact ⟨_, rfl, .inl (writeReg_fast _ d s)⟩

/-! ## The accesses to KEY1, by the variant -/

/-- On the extended variant WR.KEY1 stores the prepare bit (rule R99). -/
theorem exec_wrKey1_extended {s : State} (h : s.cfg.extended = true) (d : Byte) :
    exec (.wrKey1 d) s = .next (s.onBlock (Block.speedPrepare (d.getLsbD 0))) :=
  congrArg Host.Outcome.next (writeReg_claimed (r := .key1) h d)

/-- A named write to a register the block has not, outside the Memory Bank Controller's windows, is a byte stored
(rules R38, R50). -/
theorem writeReg_unclaimed {s : State} {r : Reg} (h : s.cfg.claims r = false)
    (hb : bankedWindow (s.cfg.addr r) = false) (d : Byte) : s.writeReg r d = s.poke (s.cfg.addr r) d := by
  simp [State.writeReg, h, State.externalWrite, hb]

/-- A named read of such a register answers the memory's byte (rules R37, R50). -/
theorem readReg_unclaimed {s : State} {r : Reg} (h : s.cfg.claims r = false)
    (hb : bankedWindow (s.cfg.addr r) = false) :
    s.readReg r = s.emit (.readResult (s.cfg.addr r) (s.peek (s.cfg.addr r))) := by
  simp [State.readReg, h, State.externalRead, hb]

/-! ## The obligations -/

/-- Settles O37: the commit is `speedCommit_eq`; of the cases of `exec_fast_or_commits` only a commit lets the mode
differ; the program's sequence is `execAll_stopEnter_step`, begun with the prepare bit written or with none. -/
theorem fastModeChangesOnlyAtACommit : Obligations.FastModeChangesOnlyAtACommit := by
  refine ⟨fun s => ⟨?_, ?_⟩, fun i s t ht hne => ?_, fun s hInv hhalt => ⟨fun hext => ?_, fun hprep => ?_⟩⟩
  · exact congrArg (fun b => Host.Outcome.next { s with toBlock := b }) (speedCommit_eq s.toBlock)
  · rw [execTimes_succ rfl, execTimes_one rfl]
    exact congrArg (fun b => Host.Outcome.next { s with toBlock := b }) (speedCommit_speedCommit s.toBlock)
  · obtain ⟨u, hu, hcases⟩ := exec_fast_or_commits i s
    cases hu.symm.trans ht
    exact hcases.resolve_left hne
  · have hprepared : (s.onBlock (Block.speedPrepare true)).Inv := onBlock_keeps_Inv hInv fun _ hb => hb
    obtain ⟨t, hrun, hfast, hrest⟩ := execAll_stopEnter_step hprepared hhalt
    exact ⟨t, (execAll_cons (exec_wrKey1_extended hext _) _).trans hrun, hfast.trans (Bool.xor_true _), hrest⟩
  · obtain ⟨t, hrun, hfast, -, hrest⟩ := execAll_stopEnter_step hInv hhalt
    exact ⟨t, hrun, by rw [hfast, hprep, Bool.xor_false], hrest⟩

/-- Settles O36: KEY1 is the block's register exactly on the extended variant, so the named accesses are the register's
own there and external on the base variant; by address they are the same by `namedAccessIsTheGenericAccess`. -/
theorem speedRegisterAccesses : Obligations.SpeedRegisterAccesses := by
  intro s v d
  refine ⟨congrArg Host.Outcome.next ?_, fun hext => ⟨exec_wrKey1_extended hext d, ?_⟩, fun hc => ?_,
    fun hbase hb => ⟨?_, ?_⟩⟩
  · split <;> rfl
  · exact congrArg Host.Outcome.next (readReg_claimed (r := .key1) hext)
  · exact (namedAccessIsTheGenericAccess s .key1 d hc).symm
  · exact congrArg Host.Outcome.next (writeReg_unclaimed (r := .key1) hbase hb d)
  · exact congrArg Host.Outcome.next (readReg_unclaimed (r := .key1) hbase hb)

end Sys2Proof.Proofs
end

section
/-! The step sequencer (spec/46_step.md): CYCLES.RUN with what it hands over, each kind of STEP as an exact next state,
and which parts of a STEP invoke the Instruction Execution Unit. -/

namespace Sys2Proof.Proofs

open Sys2Proof.Machine Sys2Proof.Laws

/-! ## CYCLES.RUN -/

/-- The frame's flags as one word: what was pending stays pending. -/
theorem and_flags_of_blockFrame {b c : Block} (h : BlockFrame b c) : b.if_ &&& c.if_ = b.if_ := by
  refine BitVec.eq_of_getLsbD_eq fun i _ => ?_
  rw [BitVec.getLsbD_and]
  cases hb : b.if_.getLsbD i with
  | true => exact h.flags i hb
  | false => rfl

/-- CYCLES.RUN tells the outside of the two calls after its cycles, the count halved by the mode at its start: no cycle
changes the mode (rules R108, R112). -/
theorem runCycles_output (n : Nat) (s : State) : (s.runCycles n).output =
    .audioAdvance (s.realTimeCycles n) :: .displayAdvance (s.realTimeCycles n) :: (State.runLoop n s).output := by
  have hcount : (State.runLoop n s).realTimeCycles n = s.realTimeCycles n := by
    simp only [State.realTimeCycles, runLoop_fast]
  rw [State.runCycles, audioAdvance_output, displayAdvance_output, hcount]

theorem displayAnswer_of_given {s : State} {a : DisplayAnswer} {rest : List DisplayAnswer}
    (h : s.displayAnswers = a :: rest) : s.displayAnswer = (a, { s with displayAnswers := rest }) := by
  simp [State.displayAnswer, h]

theorem displayAnswer_of_none {s : State} (h : s.displayAnswers = []) :
    s.displayAnswer.2 = { s with fresh := s.fresh + 1 } := by
  simp [State.displayAnswer, h]

/-! ## A step in HALT mode -/

/-- A step in HALT mode is CYCLES.RUN 4, and the mode stays exactly when no source was ready at the start (rule R106). -/
theorem haltStep_eq {s : State} (hInv : s.Inv) (hhalt : s.halt = true) :
    s.haltStep = { s.runCycles Config.wakeCycles with halt := !s.toBlock.ready } := by
  unfold State.haltStep
  cases hr : s.toBlock.ready with
  | true => rfl
  | false =>
    have hstays : (s.runCycles Config.wakeCycles).halt = true := (runCycles_frame _ hInv).block.halt.trans hhalt
    exact congrArg (fun h => { s.runCycles Config.wakeCycles with halt := h }) hstays

/-! ## A step in STOP mode -/

/-- The state the four cycles of a step in STOP mode start from: the divider zeroed, a prepared switch committed (rule
R107). -/
def resumed (s : State) : State := { s with div := 0#16, fast := s.fast ^^ s.prepared, prepared := false }

theorem resumed_Inv {s : State} (h : s.Inv) : (resumed s).Inv := h

/-- A step in STOP mode is CYCLES.RUN 4 from there, the mode then ended (rule R107). -/
theorem stopStep_eq (s : State) : s.stopStep = { (resumed s).runCycles Config.wakeCycles with stop := false } := by
  have hcommit : (s.onBlock fun b => { b with div := 0#16 }).onBlock Block.speedCommit = resumed s :=
    congrArg (fun b => { s with toBlock := b }) (speedCommit_eq { s.toBlock with div := 0#16 })
  rw [State.stopStep, hcommit]
  rfl

/-! ## A step outside both modes -/

theorem stepOnce_of_executes {s : State} (hhalt : s.halt = false) (hstop : s.stop = false) :
    s.stepOnce = s.executeStep := by
  simp [State.stepOnce, hhalt, hstop]

/-- A requested enable is applied, and none is requested afterwards (rule R109). -/
theorem applyImeRequest_eq (b : Block) :
    b.applyImeRequest = { b with ime := b.ime || b.ime_req, ime_req := false } := by
  cases hr : b.ime_req with
  | true => simp [Block.applyImeRequest, hr]
  | false =>
    rw [Block.applyImeRequest, if_neg (Bool.eq_false_iff.mp hr), Bool.or_false]
    exact congrArg (fun r => { b with ime_req := r }) hr

/-- A step enters an interrupt when the master enable is set and a source ready (rules R105, R123). -/
theorem take_of_highest {b : Block} {k : Source} (hime : b.ime = true) (h : b.highest = some k) : b.take = some k := by
  have hready : b.ready = true := by
    by_contra hr
    rw [(highest_eq_none_iff b).mpr (Bool.eq_false_iff.mpr hr)] at h
    cases h
  simp [Block.take, hime, hready, h]

/-- Without the master enable, or with no source ready, it enters none (rules R105, R123). -/
theorem take_eq_none {b : Block} (h : b.ime = false ∨ b.ready = false) : b.take = none := by
  rcases h with h | h <;> simp [Block.take, h]

/-- The count a step runs is the one the unit returns, whichever way it is invoked (rule R111). -/
theorem dispatch_cycles (irq : Option Source) (s : State) : (s.dispatch irq).1 = s.ieuAnswer.1.cycles := by
  cases irq <;> rfl

/-- A unit that performs nothing leaves the divider: neither the invocation nor an acknowledgement touches it (rules
R62, R111). -/
theorem dispatch_div_of_idle {s : State} (hbefore : s.ieuAnswer.1.before = []) (hafter : s.ieuAnswer.1.after = [])
    (irq : Option Source) : (s.dispatch irq).2.div = s.div := by
  have hasked : s.ieuAnswer.2.div = s.div := congrArg Block.div (ieuAnswer_toBlock s)
  cases irq with
  | none =>
    rw [State.dispatch, State.executeOne, hbefore, hafter]
    exact hasked
  | some k =>
    rw [State.dispatch, State.enterInterrupt, hbefore, hafter]
    exact hasked

/-- So a step of such a unit counts the divider by the cycles returned (rule R116). -/
theorem executeStep_div_of_idle {s : State} (hInv : s.Inv) (hbefore : s.ieuAnswer.1.before = [])
    (hafter : s.ieuAnswer.1.after = []) : s.executeStep.div = s.div + BitVec.ofNat 16 s.ieuAnswer.1.cycles := by
  let enabled := s.onBlock Block.applyImeRequest
  have hEnabled : enabled.Inv := onBlock_keeps_Inv hInv applyImeRequest_inv
  have hanswer : enabled.ieuAnswer.1 = s.ieuAnswer.1 := ieuAnswer_onBlock Block.applyImeRequest s
  have hkept : enabled.div = s.div := by rw [onBlock_toBlock, applyImeRequest_eq]
  have hidle : (enabled.dispatch s.toBlock.take).2.div = enabled.div :=
    dispatch_div_of_idle (hanswer ▸ hbefore) (hanswer ▸ hafter) s.toBlock.take
  rw [State.executeStep, runCycles_div _ (dispatch_Inv _ hEnabled), hidle, hkept, dispatch_cycles, hanswer]

/-- The operations of the unit, performed one after the other (rules R5, R43, R46). -/
theorem execAll_operations (os : List IeuOp) (s : State) :
    execAll (os.map IeuOp.operation) s = .next (State.ieuOps os s) := by
  induction os generalizing s with
  | nil => rfl
  | cons o os ih =>
    rw [List.map_cons, execAll_cons (exec_operation o s)]
    exact ih (s.ieuOp o)

theorem ieuAnswer_of_given {s : State} {a : IeuAnswer} {rest : List IeuAnswer} (h : s.ieuAnswers = a :: rest) :
    s.ieuAnswer = (a, { s with ieuAnswers := rest }) := by
  simp [State.ieuAnswer, h]

theorem ieuAnswer_of_none {s : State} (h : s.ieuAnswers = []) : s.ieuAnswer.2 = { s with fresh := s.fresh + 1 } := by
  simp [State.ieuAnswer, h]

/-! ## What invokes the Instruction Execution Unit -/

/-- The outside is told of an invocation of the unit: an instruction or an interrupt entry (rule R111). -/
def Invokes (e : Event) : Prop := e = .dispatchOne ∨ ∃ k v, e = .dispatchInterrupt k v

/-- From s to t the outside is told things, but of no invocation of the unit. -/
def SaysNoInvocation (s t : State) : Prop := ∃ es, t.output = es ++ s.output ∧ ∀ e ∈ es, ¬ Invokes e

theorem SaysNoInvocation.of_output_eq {s t : State} (h : t.output = s.output) : SaysNoInvocation s t :=
  ⟨[], h, List.forall_mem_nil _⟩

theorem SaysNoInvocation.refl (s : State) : SaysNoInvocation s s := .of_output_eq rfl

theorem SaysNoInvocation.trans {s t u : State} (h : SaysNoInvocation s t) (g : SaysNoInvocation t u) :
    SaysNoInvocation s u := by
  obtain ⟨es, hes, hnone⟩ := h
  obtain ⟨fs, hfs, hfnone⟩ := g
  refine ⟨fs ++ es, by rw [hfs, hes, List.append_assoc], fun e he => ?_⟩
  exact (List.mem_append.mp he).elim (hfnone e) (hnone e)

theorem emit_saysNoInvocation {e : Event} (he : ¬ Invokes e) (s : State) : SaysNoInvocation s (s.emit e) :=
  ⟨[e], rfl, fun _ hx => List.mem_singleton.mp hx ▸ he⟩

theorem busRead_saysNoInvocation (a : Addr) (s : State) : SaysNoInvocation s (s.busRead a).2 := by
  rcases busRead_cases a s with ⟨r, -, e⟩ | ⟨-, -, e⟩ | ⟨-, e⟩ <;> rw [e]
  · exact .refl s
  · exact (SaysNoInvocation.of_output_eq (bankAnswer_output s)).trans (emit_saysNoInvocation (by simp [Invokes]) _)
  · exact .refl s

theorem busWrite_saysNoInvocation (a : Addr) (v : Byte) (s : State) : SaysNoInvocation s (s.busWrite a v) := by
  rcases busWrite_cases a v s with ⟨r, -, e⟩ | ⟨-, -, e⟩ | ⟨-, e⟩ <;> rw [e]
  · exact .of_output_eq rfl
  · exact emit_saysNoInvocation (by simp [Invokes]) s
  · exact .of_output_eq rfl

theorem dmaAdvance_saysNoInvocation (s : State) : SaysNoInvocation s s.dmaAdvance := by
  unfold State.dmaAdvance
  split
  · exact (busRead_saysNoInvocation _ s).trans (busWrite_saysNoInvocation _ _ _)
  · exact .refl s

theorem cycle_saysNoInvocation (s : State) : SaysNoInvocation s s.cycle := by
  rw [cycle_eq]
  exact dmaAdvance_saysNoInvocation (s.onBlock Block.timerAdvance).serialAdvance

theorem runLoop_saysNoInvocation (n : Nat) (s : State) : SaysNoInvocation s (State.runLoop n s) := by
  induction n generalizing s with
  | zero => exact .refl s
  | succ n ih => exact (cycle_saysNoInvocation s).trans (ih s.cycle)

theorem runCycles_saysNoInvocation (n : Nat) (s : State) : SaysNoInvocation s (s.runCycles n) :=
  (runLoop_saysNoInvocation n s).trans ⟨[_, _], runCycles_output n s, by simp [Invokes]⟩

theorem ieuOp_saysNoInvocation (o : IeuOp) (s : State) : SaysNoInvocation s (s.ieuOp o) := by
  cases o with
  | regRead a => exact (busRead_saysNoInvocation a s).trans (emit_saysNoInvocation (by simp [Invokes]) _)
  | regWrite a d => exact busWrite_saysNoInvocation a d s
  | imeRequest | imeWrite _ | haltEnter | stopEnter => exact .of_output_eq rfl

theorem ieuOps_saysNoInvocation (os : List IeuOp) (s : State) : SaysNoInvocation s (State.ieuOps os s) := by
  induction os generalizing s with
  | nil => exact .refl s
  | cons o os ih => exact (ieuOp_saysNoInvocation o s).trans (ih (s.ieuOp o))

/-! ## A step that enters no interrupt -/

/-- The exact next state: the enable applied, one instruction, its cycles (rules R109 to R111). -/
theorem executeStep_of_no_take {s : State} (h : s.toBlock.take = none) :
    s.executeStep = ((s.onBlock Block.applyImeRequest).ieuAnswer.2.executeOne s.ieuAnswer.1).runCycles
      s.ieuAnswer.1.cycles := by
  simp only [State.executeStep, h, State.dispatch, ieuAnswer_onBlock]

/-- The step tells the outside of one invocation, that of an instruction (rule R111). -/
theorem executeStep_output_of_no_take {s : State} (h : s.toBlock.take = none) :
    ∃ es, s.executeStep.output = es ++ .dispatchOne :: s.output ∧ ∀ e ∈ es, ¬ Invokes e := by
  let asked := (s.onBlock Block.applyImeRequest).ieuAnswer.2
  have hasked : (asked.emit .dispatchOne).output = .dispatchOne :: s.output :=
    congrArg (List.cons Event.dispatchOne) (ieuAnswer_output (s.onBlock Block.applyImeRequest))
  rw [executeStep_of_no_take h, ← hasked]
  exact (ieuOps_saysNoInvocation _ _).trans (runCycles_saysNoInvocation _ _)

/-- Where the instruction touches neither latch, the step ends with the enable as it was applied (rules R109, R113). -/
theorem executeStep_latches_of_no_take {s : State} (hInv : s.Inv) (h : s.toBlock.take = none)
    (hops : ∀ o ∈ s.ieuAnswer.1.before ++ s.ieuAnswer.1.after, o ≠ .imeRequest ∧ ∀ v, o ≠ .imeWrite v) :
    s.executeStep.ime = (s.ime || s.ime_req) ∧ s.executeStep.ime_req = false := by
  let enabled := s.onBlock Block.applyImeRequest
  have henabled : enabled.ieuAnswer.2.toBlock = { s.toBlock with ime := s.ime || s.ime_req, ime_req := false } :=
    (ieuAnswer_toBlock enabled).trans (applyImeRequest_eq s.toBlock)
  have hunit := ieuOps_latches _ (enabled.ieuAnswer.2.emit .dispatchOne) hops
  have hexecuted : (enabled.dispatch none).2.Inv := dispatch_Inv none (onBlock_keeps_Inv hInv applyImeRequest_inv)
  rw [State.dispatch, ieuAnswer_onBlock] at hexecuted
  have hrun := (runCycles_frame s.ieuAnswer.1.cycles hexecuted).block
  rw [executeStep_of_no_take h]
  exact ⟨(hrun.ime.trans hunit.1).trans (congrArg Block.ime henabled),
    (hrun.ime_req.trans hunit.2).trans (congrArg Block.ime_req henabled)⟩

/-! ## The obligations -/

/-- Settles O39: the next state is `haltStep_eq`, the rest the frame and the divider of CYCLES.RUN. -/
theorem haltStepWaitsForAReadySource : Obligations.HaltStepWaitsForAReadySource := by
  intro s hInv hhalt
  have hrun := runCycles_frame Config.wakeCycles hInv
  have hflags : s.if_ &&& (s.runCycles Config.wakeCycles).if_ = s.if_ := and_flags_of_blockFrame hrun.block
  exact ⟨_, congrArg Host.Outcome.next ((stepOnce_of_halt hhalt).trans (haltStep_eq hInv hhalt)), rfl,
    runCycles_div Config.wakeCycles hInv, hrun.block.ime, hrun.block.ime_req, hrun.block.stop, hrun.block.ie,
    hrun.block.fast, hrun.block.prepared, hrun.ieuAnswers, hflags, _, rfl, rfl⟩

/-- Settles O40: the next state is `stopStep_eq`, the rest the frame and the divider of CYCLES.RUN from `resumed`. -/
theorem stopStepAlwaysResumes : Obligations.StopStepAlwaysResumes := by
  intro s hInv hhalt hstop
  have hrun := runCycles_frame Config.wakeCycles (resumed_Inv hInv)
  have hflags : (resumed s).if_ &&& ((resumed s).runCycles Config.wakeCycles).if_ = (resumed s).if_ :=
    and_flags_of_blockFrame hrun.block
  exact ⟨_, congrArg Host.Outcome.next ((stepOnce_of_servesStop ⟨hhalt, hstop⟩).trans (stopStep_eq s)), rfl,
    runCycles_div Config.wakeCycles (resumed_Inv hInv), hrun.block.fast, hrun.block.prepared,
    hrun.block.halt.trans hhalt, hrun.block.ime, hrun.block.ime_req, hrun.block.ie, hrun.ieuAnswers, hflags,
    _, rfl, rfl⟩

/-- Settles O41: the decision is `take_of_highest` or `take_eq_none`, the enable `applyImeRequest_eq`; the unit's
operations are `execAll_operations`. -/
theorem executingStepInvokesTheUnitOnce : Obligations.ExecutingStepInvokesTheUnitOnce := by
  refine ⟨fun s hhalt hstop => ?_, execAll_operations, fun _ _ => rfl,
    fun s => ⟨fun a rest => ieuAnswer_of_given, ieuAnswer_of_none⟩⟩
  have henabled : s.onBlock Block.applyImeRequest = { s with ime := s.ime || s.ime_req, ime_req := false } :=
    congrArg (fun b => { s with toBlock := b }) (applyImeRequest_eq s.toBlock)
  have hstep : exec .step s = .next s.executeStep := congrArg Host.Outcome.next (stepOnce_of_executes hhalt hstop)
  refine ⟨fun k hime hk => ?_, fun hnone => ?_⟩
  · have hvector : s.cfg.vector k = (s.onBlock Block.applyImeRequest).ieuAnswer.2.cfg.vector k := by
      rw [ieuAnswer_cfg, onBlock_cfg]
    rw [hstep, State.executeStep, take_of_highest hime hk, hvector, henabled]
    rfl
  · rw [hstep, State.executeStep, take_eq_none hnone, henabled]
    rfl

/-- Settles O43: the request leaves the master enable clear, so the step after it enters none: what it says is
`executeStep_output_of_no_take`, what it leaves of the latches `executeStep_latches_of_no_take`. -/
theorem enableTakesEffectAfterOneInstruction : Obligations.EnableTakesEffectAfterOneInstruction := by
  intro s hime hhalt hstop
  let requested := s.onBlock Block.requestIme
  have hnone : requested.toBlock.take = none := take_eq_none (.inl hime)
  obtain ⟨es, hout, hes⟩ := executeStep_output_of_no_take hnone
  refine ⟨requested, requested.executeStep, es ++ [.dispatchOne], rfl,
    congrArg Host.Outcome.next (stepOnce_of_executes (s := requested) hhalt hstop), ?_, fun k v hmem => ?_, ?_,
    fun hops hInv => ?_⟩
  · rw [hout, List.append_assoc]
    rfl
  · rcases List.mem_append.mp hmem with he | he
    · exact hes _ he (.inr ⟨k, v, rfl⟩)
    · cases List.mem_singleton.mp he
  · exact List.mem_append_right es (List.mem_singleton.mpr rfl)
  · have hlatches := executeStep_latches_of_no_take (s := requested) (onBlock_keeps_Inv hInv fun _ hb => hb) hnone hops
    exact ⟨hlatches.1.trans (Bool.or_true _), hlatches.2⟩

/-- Settles O44: what is said is `runCycles_output`, the flags are `displayAdvance_raises` and `displayAdvance_flag`, a
cycle is `cycle_eq`. -/
theorem cyclesRunHandsTheRealTimeCountOver : Obligations.CyclesRunHandsTheRealTimeCountOver := by
  refine ⟨fun n s => ?_, fun n s => ⟨rfl, ?_, rfl⟩,
    fun s => ⟨fun a rest => displayAnswer_of_given, displayAnswer_of_none⟩⟩
  · let u := State.runLoop n.toNat s
    let m := u.realTimeCycles n.toNat
    obtain ⟨hvblank, hlcd⟩ := displayAdvance_raises m u
    exact ⟨_, u, rfl, rfl, runCycles_output n.toNat s, displayAdvance_mem m u, runCycles_block n.toNat s, hvblank,
      hlcd, fun k hk => displayAdvance_flag m u k.index hk⟩
  · rw [cycle_eq]
    rfl

/-- Settles O45: `runCycles_frame`, clause by clause. -/
theorem cyclesRunLeavesTheRestAlone : Obligations.CyclesRunLeavesTheRestAlone := by
  intro n s hInv
  have hrun := runCycles_frame n.toNat hInv
  exact ⟨_, rfl, hrun.block.ie, hrun.block.ime, hrun.block.ime_req, hrun.block.halt, hrun.block.stop,
    hrun.block.tmr_on, hrun.block.tmr_sel, hrun.block.tma, hrun.block.ser_internal, hrun.block.ser_fast,
    hrun.block.dma_src, hrun.block.btn, hrun.block.sel_dir, hrun.block.sel_act, hrun.block.fast, hrun.block.prepared,
    hrun.session, hrun.ieuAnswers, hrun.bytes⟩

/-- Settles O46: the modes by `haltStepWaitsForAReadySource` and `stopStepAlwaysResumes`; elsewhere `runCycles_div` with
the count asked for, or the one an idle unit returns. -/
theorem dividerCountsTheConsumedCycles : Obligations.DividerCountsTheConsumedCycles := by
  intro s hInv
  refine ⟨fun n => ⟨_, rfl, ?_⟩, fun hhalt => ?_, fun hhalt hstop => ?_, fun hhalt hstop hbefore hafter => ?_⟩
  · rw [runCycles_div n.toNat hInv, BitVec.ofNat_toNat, BitVec.setWidth_eq]
  · obtain ⟨t, hstep, -, hdiv, -⟩ := haltStepWaitsForAReadySource s hInv hhalt
    exact ⟨t, hstep, hdiv⟩
  · obtain ⟨t, hstep, -, hdiv, -⟩ := stopStepAlwaysResumes s hInv hhalt hstop
    exact ⟨t, hstep, hdiv⟩
  · exact ⟨_, congrArg Host.Outcome.next (stepOnce_of_executes hhalt hstop),
      executeStep_div_of_idle hInv hbefore hafter⟩

/-- Settles O38: both operations write their mode's bit and nothing else. -/
theorem lowPowerModesAreEntered : Obligations.LowPowerModesAreEntered := fun _ => ⟨rfl, rfl, rfl⟩

end Sys2Proof.Proofs
end

section
/-! The debugger cannot be observed from inside (spec/60_exceptions.md H5): every operation of the block commutes with
every change of the session, so none reads the session and none writes it. -/

namespace Sys2Proof.Proofs

open Sys2Proof.Machine Sys2Proof.Laws

variable (f : DebuggerSession → DebuggerSession)

/-! ## The parts a state is made of -/

@[simp] theorem onSession_onBlock (g : Block → Block) (s : State) :
    (s.onSession f).onBlock g = (s.onBlock g).onSession f := rfl

@[simp] theorem onSession_emit (e : Event) (s : State) : (s.onSession f).emit e = (s.emit e).onSession f := rfl

@[simp] theorem onSession_poke (a : Addr) (v : Byte) (s : State) :
    (s.onSession f).poke a v = (s.poke a v).onSession f := rfl

/-! ## The collaborators' answers: the answer is the same, and the session is not what is used up -/

@[simp] theorem onSession_bankAnswer (s : State) :
    (s.onSession f).bankAnswer = (s.bankAnswer.1, s.bankAnswer.2.onSession f) := by
  simp only [State.bankAnswer, onSession_bankAnswers, onSession_fresh]
  split <;> rfl

@[simp] theorem onSession_ieuAnswer_state (s : State) :
    (s.onSession f).ieuAnswer.2 = s.ieuAnswer.2.onSession f := by
  simp only [State.ieuAnswer, onSession_ieuAnswers, onSession_fresh]
  split <;> rfl

@[simp] theorem onSession_displayAnswer (s : State) :
    (s.onSession f).displayAnswer = (s.displayAnswer.1, s.displayAnswer.2.onSession f) := by
  simp only [State.displayAnswer, onSession_displayAnswers, onSession_fresh]
  split <;> rfl

/-! ## The bus and the register accesses -/

@[simp] theorem onSession_externalRead (a : Addr) (s : State) :
    (s.onSession f).externalRead a = ((s.externalRead a).1, (s.externalRead a).2.onSession f) := by
  unfold State.externalRead
  split <;> simp

@[simp] theorem onSession_busRead (a : Addr) (s : State) :
    (s.onSession f).busRead a = ((s.busRead a).1, (s.busRead a).2.onSession f) := by
  simp only [State.busRead, onSession_cfg]
  split
  · rfl
  · exact onSession_externalRead f a s

@[simp] theorem onSession_externalWrite (a : Addr) (v : Byte) (s : State) :
    (s.onSession f).externalWrite a v = (s.externalWrite a v).onSession f := by
  unfold State.externalWrite
  split <;> rfl

@[simp] theorem onSession_busWrite (a : Addr) (v : Byte) (s : State) :
    (s.onSession f).busWrite a v = (s.busWrite a v).onSession f := by
  simp only [State.busWrite, onSession_cfg]
  split
  · rfl
  · exact onSession_externalWrite f a v s

@[simp] theorem onSession_readOp (a : Addr) (s : State) : (s.onSession f).readOp a = (s.readOp a).onSession f := by
  simp [State.readOp]

@[simp] theorem onSession_readReg (r : Reg) (s : State) : (s.onSession f).readReg r = (s.readReg r).onSession f := by
  simp [State.readReg, apply_ite (State.onSession f)]

@[simp] theorem onSession_writeReg (r : Reg) (d : Byte) (s : State) :
    (s.onSession f).writeReg r d = (s.writeReg r d).onSession f := by
  simp [State.writeReg, apply_ite (State.onSession f)]

/-! ## The cycles -/

@[simp] theorem onSession_dmaAdvance (s : State) : (s.onSession f).dmaAdvance = s.dmaAdvance.onSession f := by
  simp [State.dmaAdvance, State.dmaCopy, apply_ite (State.onSession f)]

@[simp] theorem onSession_serialAdvance (s : State) :
    (s.onSession f).serialAdvance = s.serialAdvance.onSession f := rfl

@[simp] theorem onSession_cycle (s : State) : (s.onSession f).cycle = s.cycle.onSession f := by
  simp [cycle_eq]

@[simp] theorem onSession_runLoop (n : Nat) (s : State) :
    State.runLoop n (s.onSession f) = (State.runLoop n s).onSession f := by
  induction n generalizing s with
  | zero => rfl
  | succ n ih => rw [State.runLoop, onSession_cycle, ih, State.runLoop]

@[simp] theorem onSession_displayAdvance (m : Nat) (s : State) :
    (s.onSession f).displayAdvance m = (s.displayAdvance m).onSession f := by
  simp [State.displayAdvance]

@[simp] theorem onSession_runCycles (n : Nat) (s : State) :
    (s.onSession f).runCycles n = (s.runCycles n).onSession f := by
  simp [State.runCycles, State.audioAdvance, State.realTimeCycles]

/-! ## The Instruction Execution Unit and a STEP -/

@[simp] theorem onSession_ieuOp (o : IeuOp) (s : State) : (s.onSession f).ieuOp o = (s.ieuOp o).onSession f := by
  cases o with
  | regRead a => exact onSession_readOp f a s
  | regWrite a d => exact onSession_busWrite f a d s
  | imeRequest | imeWrite _ | haltEnter | stopEnter => rfl

@[simp] theorem onSession_ieuOps (os : List IeuOp) (s : State) :
    State.ieuOps os (s.onSession f) = (State.ieuOps os s).onSession f := by
  induction os generalizing s with
  | nil => rfl
  | cons o os ih => rw [State.ieuOps, onSession_ieuOp, ih, State.ieuOps]

/-- On either path the unit is invoked alike and returns the same count (rule R111). -/
@[simp] theorem onSession_dispatch (irq : Option Source) (s : State) :
    (s.onSession f).dispatch irq = ((s.dispatch irq).1, (s.dispatch irq).2.onSession f) := by
  cases irq with
  | none => simp [State.dispatch, State.executeOne]
  | some k => simp [State.dispatch, State.enterInterrupt]

@[simp] theorem onSession_haltStep (s : State) : (s.onSession f).haltStep = s.haltStep.onSession f := by
  simp [State.haltStep, apply_ite (State.onSession f)]

@[simp] theorem onSession_stopStep (s : State) : (s.onSession f).stopStep = s.stopStep.onSession f := by
  simp [State.stopStep]

@[simp] theorem onSession_executeStep (s : State) : (s.onSession f).executeStep = s.executeStep.onSession f := by
  simp [State.executeStep]

@[simp] theorem onSession_stepOnce (s : State) : (s.onSession f).stepOnce = s.stepOnce.onSession f := by
  simp [State.stepOnce, apply_ite (State.onSession f)]

/-! ## Every operation but the debugger's own -/

/-- The operations of the debugger (rule R140). -/
def IsDebugger (i : Instr) : Prop := i = .dbgStep ∨ ∃ c p, i = .dbgKey c p

/-- Every other operation commutes with every change of the session. -/
theorem exec_onSession {i : Instr} (hi : ¬ IsDebugger i) (s : State) :
    ∃ t, exec i s = .next t ∧ exec i (s.onSession f) = .next (t.onSession f) := by
  cases i with
  | dbgStep => exact absurd (.inl rfl) hi
  | dbgKey c p => exact absurd (.inr ⟨c, p, rfl⟩) hi
  | step => exact ⟨_, rfl, congrArg _ (onSession_stepOnce f s)⟩
  | regRead a => exact ⟨_, rfl, congrArg _ (onSession_readOp f a s)⟩
  | regWrite a d => exact ⟨_, rfl, congrArg _ (onSession_busWrite f a d s)⟩
  | cyclesRun n => exact ⟨_, rfl, congrArg _ (onSession_runCycles f n.toNat s)⟩
  | irqRaise _ | irqAck _ | imeRequest | imeWrite _ | haltEnter | stopEnter | timerAdvance | serialAdvance
  | dmaStart _ | joypadUpdate _ | speedCommit => exact ⟨_, rfl, rfl⟩
  | dmaAdvance => exact ⟨_, rfl, congrArg _ (onSession_dmaAdvance f s)⟩
  | speedPrepare b =>
    refine ⟨_, rfl, congrArg Host.Outcome.next ?_⟩
    exact (apply_ite (State.onSession f) (s.cfg.extended = true) (s.onBlock (Block.speedPrepare b)) s).symm
  | rdP1 | rdSb | rdSc | rdDiv | rdTima | rdTma | rdTac | rdIf | rdDma | rdKey1 | rdIe =>
    exact ⟨_, rfl, congrArg _ (onSession_readReg f _ s)⟩
  | wrP1 d | wrSb d | wrSc d | wrDiv d | wrTima d | wrTma d | wrTac d | wrIf d | wrDma d | wrKey1 d | wrIe d =>
    exact ⟨_, rfl, congrArg _ (onSession_writeReg f _ d s)⟩

/-- So every other operation leaves the session alone: putting in place the session that is there changes nothing
before it, and so nothing after it. -/
theorem exec_session {i : Instr} (hi : ¬ IsDebugger i) {s t : State} (hs : exec i s = .next t) :
    t.session = s.session := by
  obtain ⟨u, hu, huf⟩ := exec_onSession (fun _ => s.session) hi s
  have hsame : t = u.onSession fun _ => s.session := Host.Outcome.next.inj (hs.symm.trans huf)
  calc t.session = (u.onSession fun _ => s.session).session := congrArg State.session hsame
    _ = s.session := onSession_session _ u

/-! ## The obligation -/

/-- Settles O60: the other session is put in place by a change of the session, with which the operation commutes. -/
theorem debuggerSessionIsInvisibleToTheBlock : Obligations.DebuggerSessionIsInvisibleToTheBlock := by
  intro i s t q hstep hkey hs
  have hi : ¬ IsDebugger i := fun h => h.elim hstep fun ⟨c, p, e⟩ => hkey c p e
  obtain ⟨u, hu, huq⟩ := exec_onSession (fun _ => q) hi s
  have htu : t = u := Host.Outcome.next.inj (hs.symm.trans hu)
  exact ⟨exec_session hi hs, htu ▸ huq⟩

end Sys2Proof.Proofs
end

section
/-! The exceptions a STEP serves (spec/60_exceptions.md G4, H6): what it tells the outside of the Instruction Execution
Unit, and HALT mode with every source masked. -/

namespace Sys2Proof.Proofs

open Sys2Proof.Machine Sys2Proof.Laws

/-! ## What a step says of the Instruction Execution Unit -/

/-- How a STEP that executes invokes the unit: the entry of the interrupt it takes, or one instruction (rules R105,
R111). -/
def invocation (s : State) : Event :=
  match s.toBlock.take with
  | none => .dispatchOne
  | some k => .dispatchInterrupt k (s.cfg.vector k)

/-- The invocations a STEP makes: none in a low-power mode (rules R106, R107), else one. -/
def invocations (s : State) : List Event := if s.halt || s.stop then [] else [invocation s]

theorem onBlock_saysNoInvocation (f : Block → Block) (s : State) : SaysNoInvocation s (s.onBlock f) :=
  .of_output_eq rfl

theorem haltStep_saysNoInvocation (s : State) : SaysNoInvocation s s.haltStep := by
  have hrun := runCycles_saysNoInvocation Config.wakeCycles s
  unfold State.haltStep
  split
  · exact hrun.trans (onBlock_saysNoInvocation _ _)
  · exact hrun

theorem stopStep_saysNoInvocation (s : State) : SaysNoInvocation s s.stopStep :=
  ((onBlock_saysNoInvocation _ s).trans (onBlock_saysNoInvocation _ _)).trans
    ((runCycles_saysNoInvocation Config.wakeCycles _).trans (onBlock_saysNoInvocation _ _))

/-- After the entry is named, neither the unit's operations nor the acknowledgement is an invocation (rules R62,
R124). -/
theorem enterInterrupt_saysNoInvocation (k : Source) (ans : IeuAnswer) (s : State) :
    SaysNoInvocation (s.emit (.dispatchInterrupt k (s.cfg.vector k))) (s.enterInterrupt k ans) :=
  ((ieuOps_saysNoInvocation ans.before _).trans (onBlock_saysNoInvocation _ _)).trans
    (ieuOps_saysNoInvocation ans.after _)

/-- The exact next state: the enable applied, the interrupt entered, its cycles (rules R109 to R111). -/
theorem executeStep_of_take {s : State} {k : Source} (h : s.toBlock.take = some k) :
    s.executeStep = ((s.onBlock Block.applyImeRequest).ieuAnswer.2.enterInterrupt k s.ieuAnswer.1).runCycles
      s.ieuAnswer.1.cycles := by
  simp only [State.executeStep, h, State.dispatch, ieuAnswer_onBlock]

/-- A step that takes an interrupt tells the outside of one invocation, that interrupt's entry (rule R111). -/
theorem executeStep_output_of_take {s : State} {k : Source} (h : s.toBlock.take = some k) :
    ∃ es, s.executeStep.output = es ++ .dispatchInterrupt k (s.cfg.vector k) :: s.output ∧ ∀ e ∈ es, ¬ Invokes e := by
  let asked := (s.onBlock Block.applyImeRequest).ieuAnswer.2
  have hnamed : (asked.emit (.dispatchInterrupt k (asked.cfg.vector k))).output =
      .dispatchInterrupt k (s.cfg.vector k) :: s.output := by simp [asked]
  rw [executeStep_of_take h, ← hnamed]
  exact (enterInterrupt_saysNoInvocation k _ asked).trans (runCycles_saysNoInvocation _ _)

theorem executeStep_output (s : State) :
    ∃ es, s.executeStep.output = es ++ invocation s :: s.output ∧ ∀ e ∈ es, ¬ Invokes e := by
  unfold invocation
  cases htake : s.toBlock.take with
  | none => exact executeStep_output_of_no_take htake
  | some k => exact executeStep_output_of_take htake

/-- Every STEP tells the outside of the invocation it makes, if it makes one, and of no other. -/
theorem stepOnce_output (s : State) :
    ∃ es, s.stepOnce.output = es ++ invocations s ++ s.output ∧ ∀ e ∈ es, ¬ Invokes e := by
  cases hhalt : s.halt with
  | true => simpa [SaysNoInvocation, stepOnce_of_halt hhalt, invocations, hhalt] using haltStep_saysNoInvocation s
  | false =>
    cases hstop : s.stop with
    | true =>
      simpa [SaysNoInvocation, stepOnce_of_servesStop ⟨hhalt, hstop⟩, invocations, hstop] using
        stopStep_saysNoInvocation s
    | false => simpa [stepOnce_of_executes hhalt hstop, invocations, hhalt, hstop] using executeStep_output s

theorem mem_invocations (s : State) (e : Event) :
    e ∈ invocations s ↔ s.halt = false ∧ s.stop = false ∧ e = invocation s := by
  unfold invocations
  cases s.halt with
  | true => simp
  | false => cases s.stop <;> simp

theorem take_eq_some_iff (b : Block) (k : Source) : b.take = some k ↔ b.ime = true ∧ b.highest = some k :=
  ⟨take_eq_some, fun ⟨hime, hk⟩ => take_of_highest hime hk⟩

theorem take_eq_none_iff (b : Block) : b.take = none ↔ ¬(b.ime = true ∧ b.ready = true) := by
  refine ⟨fun h ⟨hime, hready⟩ => ?_, fun h => take_eq_none ?_⟩
  · have hnone : b.highest = none := by simpa [Block.take, hime, hready] using h
    rw [(highest_eq_none_iff b).mp hnone] at hready
    cases hready
  · simpa only [not_and_or, Bool.not_eq_true] using h

/-- The entry of interrupt k is the invocation exactly when k was ready first and the master enable set (rules R105,
R123). -/
theorem dispatchInterrupt_eq_invocation (s : State) (k : Source) (v : Addr) :
    .dispatchInterrupt k v = invocation s ↔ s.ime = true ∧ s.toBlock.highest = some k ∧ v = s.cfg.vector k := by
  rw [← and_assoc, ← take_eq_some_iff, invocation]
  cases s.toBlock.take with
  | none => simp
  | some j =>
    simp only [Event.dispatchInterrupt.injEq, Option.some.injEq, eq_comm (a := j)]
    exact and_congr_right fun hk => by rw [hk]

/-- One instruction is the invocation exactly when no interrupt is taken. -/
theorem dispatchOne_eq_invocation (s : State) :
    .dispatchOne = invocation s ↔ ¬(s.ime = true ∧ s.toBlock.ready = true) := by
  rw [← take_eq_none_iff, invocation]
  cases s.toBlock.take <;> simp

/-! ## HALT mode with every source masked -/

/-- The machine waits in HALT mode and no source is enabled. -/
structure HaltedMasked (s : State) : Prop where
  inv : s.Inv
  halt : s.halt = true
  ie : s.ie = 0#5

/-- With every source masked none is ready, whatever is pending (rule R58). -/
theorem ready_of_masked {b : Block} (h : b.ie = 0#5) : b.ready = false := by
  simp [Block.ready, h]

/-- One STEP from there leads back there, with the unit not asked and the divider 4 on (rules R106, R132). -/
theorem HaltedMasked.step {s : State} (h : HaltedMasked s) : ∃ t, exec .step s = .next t ∧ HaltedMasked t ∧
    t.ieuAnswers = s.ieuAnswers ∧ t.div = s.div + 4#16 := by
  obtain ⟨t, hstep, hhalt, hdiv, -, -, -, hie, -, -, hanswers, -⟩ := haltStepWaitsForAReadySource s h.inv h.halt
  rw [ready_of_masked h.ie] at hhalt
  exact ⟨t, hstep, ⟨everyOperationKeepsTheInvariant .step s t h.inv hstep, hhalt, hie.trans h.ie⟩, hanswers, hdiv⟩

/-! ## The obligations -/

/-- Settles O42: what a step says is `stepOnce_output`; only its one invocation is of the kind asked for. -/
theorem interruptIsEnteredExactlyWhen : Obligations.InterruptIsEnteredExactlyWhen := by
  intro s
  obtain ⟨es, hout, hes⟩ := stepOnce_output s
  have hsaid {e : Event} (he : Invokes e) : e ∈ es ++ invocations s ↔ e ∈ invocations s := by
    rw [List.mem_append]
    exact or_iff_right fun hmem => hes e hmem he
  refine ⟨_, _, rfl, hout, fun k v => ?_, ?_⟩
  · rw [hsaid (.inr ⟨k, v, rfl⟩), mem_invocations, dispatchInterrupt_eq_invocation]
  · rw [hsaid (.inl rfl), mem_invocations, dispatchOne_eq_invocation]

/-- Settles O47: by induction on the number of steps, each of which is `HaltedMasked.step`. -/
theorem haltWithEverySourceMaskedNeverEnds : Obligations.HaltWithEverySourceMaskedNeverEnds := by
  intro n s hInv hhalt hie
  have h : HaltedMasked s := ⟨hInv, hhalt, hie⟩
  clear hInv hhalt hie
  induction n generalizing s with
  | zero => exact ⟨s, rfl, h.halt, h.ie, rfl, (BitVec.add_zero s.div).symm⟩
  | succ n ih =>
    obtain ⟨t, hstep, ht, hanswers, hdiv⟩ := h.step
    obtain ⟨u, hrun, huhalt, huie, huanswers, hudiv⟩ := ih t ht
    refine ⟨u, (execTimes_succ hstep n).trans hrun, huhalt, huie, huanswers.trans hanswers, ?_⟩
    rw [hudiv, hdiv, BitVec.add_assoc, ← BitVec.ofNat_add, Nat.mul_succ, Nat.add_comm]

end Sys2Proof.Proofs
end

section
/-! The debugger's paths (spec/60_exceptions.md H5, rule R142): the names of a path, the registry as a table without
repeated names, and resolution name by name. -/

namespace Sys2Proof.Proofs

open Sys2Proof.Machine Sys2Proof.Laws

/-! ## The names of a path -/

/-- A text without separators is one piece, after what is in progress. -/
theorem splitText_of_no_sep {sep : Char → Bool} {t : Text} (h : ∀ c ∈ t, sep c = false) (cur : Text) :
    splitText sep cur t = [cur ++ t] := by
  induction t generalizing cur with
  | nil => simp [splitText]
  | cons c cs ih =>
    obtain ⟨hc, hcs⟩ := List.forall_mem_cons.mp h
    simp [splitText, hc, ih hcs]

/-- A separator ends the piece before it. -/
theorem splitText_at_sep {sep : Char → Bool} {t rest : Text} {c : Char} (h : ∀ x ∈ t, sep x = false)
    (hc : sep c = true) (cur : Text) :
    splitText sep cur (t ++ c :: rest) = (cur ++ t) :: splitText sep [] rest := by
  induction t generalizing cur with
  | nil => simp [splitText, hc]
  | cons x xs ih =>
    obtain ⟨hx, hxs⟩ := List.forall_mem_cons.mp h
    simp [splitText, hx, ih hxs]

/-- A name has no dot, which separates the names of a path (rule R142). -/
def IsName (t : Text) : Prop := t.all (fun c => c != '.') = true

theorem IsName.no_dot {t : Text} (h : IsName t) : ∀ c ∈ t, (c == '.') = false := fun c hc => by
  simpa [bne] using List.all_eq_true.mp h c hc

theorem pathNames_name {n : Text} (h : IsName n) : pathNames n = [n] := splitText_of_no_sep h.no_dot []

theorem pathNames_dotted {g n : Text} (hg : IsName g) (hn : IsName n) : pathNames (g ++ '.' :: n) = [g, n] := by
  rw [pathNames, splitText_at_sep hg.no_dot rfl]
  exact congrArg (List.cons _) (pathNames_name hn)

/-! ## Tables of names -/

/-- In a table that names no two entries alike, the name of an entry leads to it. -/
theorem named_of_mem {α : Type} {n : Text} {v : α} {table : List (Text × α)} (hnodup : (table.map Prod.fst).Nodup)
    (h : (n, v) ∈ table) : named n table = some v := by
  induction table with
  | nil => cases h
  | cons p ps ih =>
    obtain ⟨hp, hps⟩ := List.nodup_cons.mp hnodup
    rcases List.mem_cons.mp h with rfl | h
    · exact if_pos rfl
    · have hne : p.1 ≠ n := fun e => hp (e ▸ List.mem_map_of_mem (f := Prod.fst) h)
      exact (if_neg hne).trans (ih hps h)

/-- A name of no entry leads nowhere. -/
theorem named_eq_none {α : Type} {n : Text} {table : List (Text × α)} (h : n ∉ table.map Prod.fst) :
    named n table = none := by
  induction table with
  | nil => rfl
  | cons p ps ih =>
    obtain ⟨hp, hps⟩ := not_or.mp (List.mem_cons.not.mp h)
    exact (if_neg (Ne.symm hp)).trans (ih hps)

/-- The numbers of a composite as the values its names lead to. -/
abbrev leaves (ms : List (Text × Nat)) : List (Text × PathValue) := ms.map fun m => (m.1, PathValue.leaf m.2)

theorem leaves_names (ms : List (Text × Nat)) : (leaves ms).map Prod.fst = ms.map Prod.fst := by
  rw [List.map_map]; rfl

theorem mem_leaves {m : Text × Nat} {ms : List (Text × Nat)} (h : m ∈ ms) : (m.1, PathValue.leaf m.2) ∈ leaves ms :=
  List.mem_map_of_mem h

/-! ## The registry (log 16) -/

/-- The names of the registry and of the groups do not depend on the values. -/
theorem registry_names (b : Block) : b.registry.map Prod.fst = Block.reset.registry.map Prod.fst := rfl

theorem registry_nodup (b : Block) : (b.registry.map Prod.fst).Nodup := by
  rw [registry_names]
  decide

theorem registry_isName {b : Block} {p : Text × PathValue} (h : p ∈ b.registry) : IsName p.1 := by
  have hall : ∀ n ∈ Block.reset.registry.map Prod.fst, IsName n := by unfold IsName; decide
  exact hall p.1 (registry_names b ▸ List.mem_map_of_mem h)

section
variable {b : Block} {g : Text × List (Text × Nat)} {m : Text × Nat}

theorem group_mem_registry (hg : g ∈ b.groups) : (g.1, PathValue.composite g.2) ∈ b.registry :=
  List.mem_append_left _ (List.mem_map_of_mem hg)

theorem member_mem_registry (hg : g ∈ b.groups) (hm : m ∈ g.2) : (m.1, PathValue.leaf m.2) ∈ b.registry :=
  List.mem_append_right _ (mem_leaves (List.mem_append_left _ (List.mem_flatMap.mpr ⟨g, hg, hm⟩)))

theorem sequencerName_mem_registry (hm : m ∈ b.sequencerNames) : (m.1, PathValue.leaf m.2) ∈ b.registry :=
  List.mem_append_right _ (mem_leaves (List.mem_append_right _ hm))

/-- The names of one group are names of the registry, in its order. -/
theorem group_nodup (hg : g ∈ b.groups) : (g.2.map Prod.fst).Nodup := by
  have hfields : ((b.groups.flatMap Prod.snd ++ b.sequencerNames).map Prod.fst).Nodup := by
    have h := registry_nodup b
    rw [Block.registry, List.map_append] at h
    exact leaves_names _ ▸ (List.nodup_append.mp h).2.1
  rw [List.map_append, List.map_flatMap] at hfields
  exact (List.nodup_flatMap.mp (List.nodup_append.mp hfields).1).1 g hg

/-! ## Resolution -/

/-- A path of one name leads to the registry's entry (rule R142). -/
theorem evaluatePath_name {n : Text} {v : PathValue} (h : (n, v) ∈ b.registry) :
    b.evaluatePath (pathNames n) = some v := by
  rw [pathNames_name (registry_isName h)]
  exact named_of_mem (registry_nodup b) h

/-- A path of two names leads into the group the first one names (rule R142). -/
theorem evaluatePath_member (hg : g ∈ b.groups) (hm : m ∈ g.2) :
    b.evaluatePath (pathNames (g.1 ++ '.' :: m.1)) = some (.leaf m.2) := by
  have hgroup := group_mem_registry hg
  have hmember := member_mem_registry hg hm
  rw [pathNames_dotted (registry_isName hgroup) (registry_isName hmember), Block.evaluatePath, resolveFrom,
    named_of_mem (registry_nodup b) hgroup]
  exact named_of_mem (leaves_names g.2 ▸ group_nodup hg) (mem_leaves hm)

end

/-- The fields of the groups, each with the group's name first. -/
def groupedFields (b : Block) : List (Text × Text × Nat) := b.groups.flatMap fun g => g.2.map fun m => (g.1, m)

/-- The fields under a group's name are the group, since no two groups are named alike. -/
theorem filter_groupedFields {b : Block} {g : Text × List (Text × Nat)} (hg : g ∈ b.groups) :
    ((groupedFields b).filter fun x => x.1 == g.1).map (fun x => (x.2.1, x.2.2)) = g.2 := by
  have hall : ∀ g ∈ b.groups,
      ((groupedFields b).filter fun x => x.1 == g.1).map (fun x => (x.2.1, x.2.2)) = g.2 := by
    simp only [Block.groups, List.forall_mem_cons]
    exact ⟨rfl, rfl, rfl, rfl, rfl, rfl, List.forall_mem_nil _⟩
  exact hall g hg

/-! ## The obligation -/

/-- Settles O58: the clauses of `resolveFrom`, and the registry's entries reached by `evaluatePath_name` and
`evaluatePath_member`. -/
theorem pathsResolveOneNameAtATime : Obligations.PathsResolveOneNameAtATime := by
  refine ⟨fun names n m rest => ⟨rfl, fun ms h => ?_, fun x h => ?_, fun h => ?_, rfl⟩, fun b => ⟨fun f hf => ?_,
    fun m hm => evaluatePath_name (sequencerName_mem_registry hm)⟩⟩
  · simp [resolveFrom, h]
  · simp [resolveFrom, h]
  · cases rest <;> simp [resolveFrom, h]
  · change f ∈ groupedFields b at hf
    obtain ⟨g, hg, hf⟩ := List.mem_flatMap.mp hf
    obtain ⟨m, hm, rfl⟩ := List.mem_map.mp hf
    refine ⟨evaluatePath_name (member_mem_registry hg hm), evaluatePath_member hg hm, ?_⟩
    rw [evaluatePath_name (group_mem_registry hg)]
    exact congrArg (fun ms => some (PathValue.composite ms)) (filter_groupedFields hg).symm

end Sys2Proof.Proofs
end

section
/-! The debugger's breakpoints (spec/60_exceptions.md H5, rules R141, R144): what `set_breakpoint` adds or reports, and
the evaluation in list order. -/

namespace Sys2Proof.Proofs

open Sys2Proof.Machine Sys2Proof.Laws

/-! ## Adding one -/

section SetBreakpoint
variable {s : State} {path : Text} {v : PathValue}

theorem setBreakpoint_of_unresolved (h : s.toBlock.evaluatePath (pathNames path) = none) (more : List Text) :
    s.setBreakpoint (path :: more) = s.onSession (DebuggerSession.report (.notFound (pathNames path))) := by
  simp [State.setBreakpoint, h]

/-- CHANGE takes the present value as its baseline (rule R141). -/
theorem setBreakpoint_change (h : s.toBlock.evaluatePath (pathNames path) = some v) {name : Text}
    (hop : breakOpOf name = some .change) (more : List Text) :
    s.setBreakpoint (path :: name :: more) = s.addBreakpoint ⟨pathNames path, .change, v.text⟩ := by
  simp [State.setBreakpoint, h, hop]

/-- The other operators take the value given with them (rule R141). -/
theorem setBreakpoint_given (h : s.toBlock.evaluatePath (pathNames path) = some v) {name : Text} {op : BreakOp}
    (hop : breakOpOf name = some op) (hne : op ≠ .change) (value : Text) (more : List Text) :
    s.setBreakpoint (path :: name :: value :: more) = s.addBreakpoint ⟨pathNames path, op, value⟩ := by
  cases op with
  | change => exact absurd rfl hne
  | eq | neq => simp [State.setBreakpoint, h, hop]

theorem setBreakpoint_missingValue (h : s.toBlock.evaluatePath (pathNames path) = some v) {name : Text} {op : BreakOp}
    (hop : breakOpOf name = some op) (hne : op ≠ .change) :
    s.setBreakpoint [path, name] = s.onSession (DebuggerSession.report .missingValue) := by
  cases op with
  | change => exact absurd rfl hne
  | eq | neq => simp [State.setBreakpoint, h, hop]

theorem setBreakpoint_badOperator (h : s.toBlock.evaluatePath (pathNames path) = some v) {name : Text}
    (hop : breakOpOf name = none) (more : List Text) :
    s.setBreakpoint (path :: name :: more) = s.onSession (DebuggerSession.report .badOperator) := by
  simp [State.setBreakpoint, h, hop]

theorem setBreakpoint_noOperator (h : s.toBlock.evaluatePath (pathNames path) = some v) :
    s.setBreakpoint [path] = s.onSession (DebuggerSession.report .badOperator) := by
  simp [State.setBreakpoint, h]

end SetBreakpoint

theorem breakOpOf_change : breakOpOf "CHANGE".toList = some .change := by decide

theorem breakOpOf_eq : breakOpOf "EQ".toList = some .eq := by decide

theorem breakOpOf_neq : breakOpOf "NEQ".toList = some .neq := by decide

/-- No other token names an operator (rule R141). -/
theorem breakOpOf_eq_none {t : Text} (h : t ∉ ["CHANGE".toList, "EQ".toList, "NEQ".toList]) : breakOpOf t = none := by
  simp only [List.mem_cons, List.not_mem_nil, or_false, not_or] at h
  obtain ⟨hchange, heq, hneq⟩ := h
  rw [breakOpOf, if_neg hchange, if_neg heq, if_neg hneq]

/-! ## Firing -/

/-- A breakpoint resolves and does not fire (rule R144). -/
def Silent (b : Block) (p : Breakpoint) : Prop := ∃ v, b.evaluatePath p.path = some v ∧ p.fires v.text = false

/-- Each operator's condition (rule R144). -/
theorem fires_eq_true_iff (p : Breakpoint) (now : Text) : p.fires now = true ↔
    (p.op = .change ∧ now ≠ p.stored) ∨ (p.op = .eq ∧ now = p.stored) ∨ (p.op = .neq ∧ now ≠ p.stored) := by
  cases hop : p.op <;> simp [Breakpoint.fires, hop]

theorem fires_eq_false_iff (p : Breakpoint) (now : Text) : p.fires now = false ↔
    (p.op = .change ∧ now = p.stored) ∨ (p.op = .eq ∧ now ≠ p.stored) ∨ (p.op = .neq ∧ now = p.stored) := by
  cases hop : p.op <;> simp [Breakpoint.fires, hop]

theorem fired_eq (p : Breakpoint) (now : Text) :
    p.fired now = if p.op = .change then { p with stored := now } else p := by
  cases hop : p.op <;> simp [Breakpoint.fired, hop]

/-! ## The evaluation in list order -/

/-- What an evaluation finds after breakpoints that are silent: those stay in the list as they are. -/
def tickBehind (before : List Breakpoint) : Tick → Tick
  | .quiet => .quiet
  | .hit ps => .hit (before ++ ps)
  | .fatal => .fatal

section Evaluation
variable {b : Block} {before ps : List Breakpoint} {p : Breakpoint} {v : PathValue}

theorem tick_cons_of_silent (hp : Silent b p) (ps : List Breakpoint) :
    b.tick (p :: ps) = tickBehind [p] (b.tick ps) := by
  obtain ⟨v, hv, hfires⟩ := hp
  simp only [Block.tick, hv, hfires]
  cases b.tick ps <;> rfl

theorem tick_cons_of_fires (hv : b.evaluatePath p.path = some v) (hfires : p.fires v.text = true)
    (ps : List Breakpoint) : b.tick (p :: ps) = .hit (p.fired v.text :: ps) := by
  simp [Block.tick, hv, hfires]

theorem tick_cons_of_unresolved (hp : b.evaluatePath p.path = none) (ps : List Breakpoint) :
    b.tick (p :: ps) = .fatal := by
  simp [Block.tick, hp]

/-- Silent breakpoints are passed over (rule R144). -/
theorem tick_append_of_silent (h : ∀ x ∈ before, Silent b x) (ps : List Breakpoint) :
    b.tick (before ++ ps) = tickBehind before (b.tick ps) := by
  induction before with
  | nil =>
    rw [List.nil_append]
    cases b.tick ps <;> rfl
  | cons x xs ih =>
    obtain ⟨hx, hxs⟩ := List.forall_mem_cons.mp h
    rw [List.cons_append, tick_cons_of_silent hx, ih hxs]
    cases b.tick ps <;> rfl

theorem tick_of_silent (h : ∀ x ∈ ps, Silent b x) : b.tick ps = .quiet := by
  have hpassed := tick_append_of_silent h []
  rwa [List.append_nil] at hpassed

theorem tick_of_first_fires (h : ∀ x ∈ before, Silent b x) (hv : b.evaluatePath p.path = some v)
    (hfires : p.fires v.text = true) (after : List Breakpoint) :
    b.tick (before ++ p :: after) = .hit (before ++ p.fired v.text :: after) := by
  rw [tick_append_of_silent h, tick_cons_of_fires hv hfires]
  rfl

theorem tick_of_first_unresolved (h : ∀ x ∈ before, Silent b x) (hp : b.evaluatePath p.path = none)
    (after : List Breakpoint) : b.tick (before ++ p :: after) = .fatal := by
  rw [tick_append_of_silent h, tick_cons_of_unresolved hp]
  rfl

/-- Every list is silent throughout, or silent up to a first breakpoint that fires or does not resolve. -/
inductive FirstLoud (b : Block) (ps : List Breakpoint) : Prop
  | none (h : ∀ x ∈ ps, Silent b x)
  | fires (before : List Breakpoint) (p : Breakpoint) (after : List Breakpoint) (v : PathValue)
      (hps : ps = before ++ p :: after) (h : ∀ x ∈ before, Silent b x) (hv : b.evaluatePath p.path = some v)
      (hfires : p.fires v.text = true)
  | unresolved (before : List Breakpoint) (p : Breakpoint) (after : List Breakpoint)
      (hps : ps = before ++ p :: after) (h : ∀ x ∈ before, Silent b x) (hp : b.evaluatePath p.path = none)

theorem FirstLoud.cons (hp : Silent b p) (h : FirstLoud b ps) : FirstLoud b (p :: ps) := by
  rcases h with h | ⟨before, q, after, v, rfl, h, hv, hfires⟩ | ⟨before, q, after, rfl, h, hq⟩
  · exact .none (List.forall_mem_cons.mpr ⟨hp, h⟩)
  · exact .fires (p :: before) q after v rfl (List.forall_mem_cons.mpr ⟨hp, h⟩) hv hfires
  · exact .unresolved (p :: before) q after rfl (List.forall_mem_cons.mpr ⟨hp, h⟩) hq

theorem firstLoud (b : Block) (ps : List Breakpoint) : FirstLoud b ps := by
  induction ps with
  | nil => exact .none (List.forall_mem_nil _)
  | cons p ps ih =>
    cases hv : b.evaluatePath p.path with
    | none => exact .unresolved [] p ps rfl (List.forall_mem_nil _) hv
    | some v =>
      cases hfires : p.fires v.text with
      | true => exact .fires [] p ps v rfl (List.forall_mem_nil _) hv hfires
      | false => exact .cons ⟨v, hv, hfires⟩ ih

theorem tick_eq_quiet_iff : b.tick ps = .quiet ↔ ∀ x ∈ ps, Silent b x := by
  refine ⟨fun ht => ?_, tick_of_silent⟩
  rcases firstLoud b ps with h | ⟨before, p, after, v, rfl, h, hv, hfires⟩ | ⟨before, p, after, rfl, h, hp⟩
  · exact h
  · cases (tick_of_first_fires h hv hfires after).symm.trans ht
  · cases (tick_of_first_unresolved h hp after).symm.trans ht

theorem tick_eq_hit_iff {qs : List Breakpoint} : b.tick ps = .hit qs ↔
    ∃ before p after v, ps = before ++ p :: after ∧ (∀ x ∈ before, Silent b x) ∧ b.evaluatePath p.path = some v ∧
      p.fires v.text = true ∧ qs = before ++ p.fired v.text :: after := by
  refine ⟨fun ht => ?_, ?_⟩
  · rcases firstLoud b ps with h | ⟨before, p, after, v, rfl, h, hv, hfires⟩ | ⟨before, p, after, rfl, h, hp⟩
    · cases (tick_of_silent h).symm.trans ht
    · have hqs := Tick.hit.inj ((tick_of_first_fires h hv hfires after).symm.trans ht)
      exact ⟨before, p, after, v, rfl, h, hv, hfires, hqs.symm⟩
    · cases (tick_of_first_unresolved h hp after).symm.trans ht
  · rintro ⟨before, p, after, v, rfl, h, hv, hfires, rfl⟩
    exact tick_of_first_fires h hv hfires after

theorem tick_eq_fatal_iff : b.tick ps = .fatal ↔
    ∃ before p after, ps = before ++ p :: after ∧ (∀ x ∈ before, Silent b x) ∧ b.evaluatePath p.path = none := by
  refine ⟨fun ht => ?_, ?_⟩
  · rcases firstLoud b ps with h | ⟨before, p, after, v, rfl, h, hv, hfires⟩ | ⟨before, p, after, rfl, h, hp⟩
    · cases (tick_of_silent h).symm.trans ht
    · cases (tick_of_first_fires h hv hfires after).symm.trans ht
    · exact ⟨before, p, after, rfl, h, hp⟩
  · rintro ⟨before, p, after, rfl, h, hp⟩
    exact tick_of_first_unresolved h hp after

end Evaluation

/-! ## The obligations -/

/-- Settles O54: the three answers of the evaluation, the operators' conditions written out. -/
theorem tickStopsAtTheFirstBreakpointThatFires : Obligations.TickStopsAtTheFirstBreakpointThatFires := by
  intro b ps
  simp only [← fires_eq_true_iff, ← fires_eq_false_iff, ← fired_eq]
  exact ⟨fun _ => tick_eq_hit_iff, tick_eq_fatal_iff, tick_eq_quiet_iff⟩

/-- Settles O57: the step serves the call by `setBreakpoint`, one law per kind of argument list. -/
theorem setBreakpointStoresItsBaseline : Obligations.SetBreakpointStoresItsBaseline := by
  intro s rest path
  refine ⟨fun v hv => ⟨fun more hp => ?_, fun value more hp => ?_, fun value more hp => ?_, fun op hop hp => ?_,
    fun op more hop hp => ?_, fun hp => ?_⟩, fun hv more hp => ?_, step_of_setBreakpoint⟩ <;>
    refine (step_of_setBreakpoint hp).trans (congrArg Host.Outcome.next ?_)
  · exact setBreakpoint_change (s := s.afterCall rest) hv breakOpOf_change more
  · exact setBreakpoint_given (s := s.afterCall rest) hv breakOpOf_eq (by decide) value more
  · exact setBreakpoint_given (s := s.afterCall rest) hv breakOpOf_neq (by decide) value more
  · rcases List.mem_pair.mp hop with rfl | rfl
    · exact setBreakpoint_missingValue (s := s.afterCall rest) hv breakOpOf_eq (by decide)
    · exact setBreakpoint_missingValue (s := s.afterCall rest) hv breakOpOf_neq (by decide)
  · exact setBreakpoint_badOperator (s := s.afterCall rest) hv (breakOpOf_eq_none hop) more
  · exact setBreakpoint_noOperator (s := s.afterCall rest) hv
  · exact setBreakpoint_of_unresolved (s := s.afterCall rest) hv more

end Sys2Proof.Proofs
end

section
/-! The debugger session (spec/60_exceptions.md H5, rules R143, R145 to R148): DBG.STEP by mode, key events by key, and
finished lines by command. -/

namespace Sys2Proof.Proofs

open Sys2Proof.Machine Sys2Proof.Laws

/-! ## DBG.STEP by mode (rule R145) -/

section DebugStep
variable {s : State}

theorem debugStep_of_editing (h : s.session.mode = .editingCommandLine) : s.debugStep = s := by
  simp [State.debugStep, h]

theorem debugStep_of_unchecked (h : s.session.mode = .runningUnchecked) : s.debugStep = s.stepOnce := by
  simp [State.debugStep, h]

variable (h : s.session.mode = .runningWithBreakpoints)
include h

theorem debugStep_of_quiet (ht : s.toBlock.tick s.session.breakpoints = .quiet) : s.debugStep = s.stepOnce := by
  simp [State.debugStep, h, ht]

theorem debugStep_of_hit {ps : List Breakpoint} (ht : s.toBlock.tick s.session.breakpoints = .hit ps) :
    s.debugStep = s.onSession fun q => { q with mode := .awaitingCommand, breakpoints := ps } := by
  simp [State.debugStep, h, ht]

theorem debugStep_of_fatal (ht : s.toBlock.tick s.session.breakpoints = .fatal) :
    s.debugStep = s.onSession fun q => { q with mode := .awaitingCommand } := by
  simp [State.debugStep, h, ht]

end DebugStep

theorem stepOnce_session (s : State) : s.stepOnce.session = s.session :=
  exec_session (i := .step) (by simp [IsDebugger]) rfl

/-! ## Key events (rules R140, R146, R148) -/

/-- One bit of the table stands for each key code. -/
theorem keyBit_getLsbD (c j : Byte) : (1#256 <<< c.toNat).getLsbD j.toNat = decide (j = c) := by
  have hc : c.toNat < 256 := c.isLt
  have hj : j.toNat < 256 := j.isLt
  rw [BitVec.getLsbD_shiftLeft, BitVec.getLsbD_one, Bool.eq_iff_iff]
  simp only [Bool.and_eq_true, Bool.not_eq_true', decide_eq_true_eq, decide_eq_false_iff_not, ← BitVec.toNat_inj]
  omega

/-- The table records the event's key and keeps every other (rule R140). -/
theorem setKey_keyDown (q : DebuggerSession) (c j : Byte) (p : Bool) :
    (q.setKey c p).keyDown j = if j = c then p else q.keyDown j := by
  have hj : j.toNat < 256 := j.isLt
  cases p with
  | true =>
    have hset : (q.setKey c true).keyDown j = (q.keyDown j || decide (j = c)) := by
      rw [← keyBit_getLsbD]
      exact BitVec.getLsbD_or
    rw [hset]
    by_cases h : j = c <;> simp [h]
  | false =>
    have hclear : (q.setKey c false).keyDown j = (q.keyDown j && !decide (j = c)) := by
      rw [← keyBit_getLsbD, ← Bool.true_and (!_), ← decide_eq_true hj, ← BitVec.getLsbD_not]
      exact BitVec.getLsbD_and
    rw [hclear]
    by_cases h : j = c <;> simp [h]

/-- A release, a key that was down, and a code that is no key do nothing but enter the table. -/
theorem debugKey_of_not_new {s : State} {c : Byte} {p : Bool}
    (h : p = false ∨ s.session.keyDown c = true ∨ s.keyOf c = none) :
    s.debugKey c p = s.onSession (DebuggerSession.setKey c p) := by
  rcases h with h | h | h <;> simp [State.debugKey, h]

/-- A new press counts, once the table has it (rule R146). -/
theorem debugKey_of_new {s : State} {c : Byte} {k : Key} (hdown : s.session.keyDown c = false)
    (hk : s.keyOf c = some k) : s.debugKey c true = (s.onSession (DebuggerSession.setKey c true)).pressKey k := by
  simp [State.debugKey, hdown, hk]

/-- Every key event is of those three kinds, or a new press of a key. -/
theorem keyEvent_cases (s : State) (c : Byte) (p : Bool) :
    (p = false ∨ s.session.keyDown c = true ∨ s.keyOf c = none) ∨
    (p = true ∧ s.session.keyDown c = false ∧ ∃ k, s.keyOf c = some k) := by
  cases p with
  | false => exact .inl (.inl rfl)
  | true =>
    cases hdown : s.session.keyDown c with
    | true => exact .inl (.inr (.inl rfl))
    | false =>
      cases hk : s.keyOf c with
      | none => exact .inl (.inr (.inr rfl))
      | some k => exact .inr ⟨rfl, rfl, k, rfl⟩

/-- In RunningWithBreakpoints every key but the break-in key does nothing (rule R145, log 15). -/
theorem pressKey_of_not_taken {s : State} {k : Key} (hk : k ≠ .breakIn) (h : s.session.takesKeys = false) :
    s.pressKey k = s := by
  cases k with
  | breakIn => exact absurd rfl hk
  | char _ | backspace | newline => simp [State.pressKey, h]

theorem pressKey_char {s : State} (h : s.session.takesKeys = true) (ch : Char) :
    s.pressKey (.char ch) = s.onSession fun q => { q with mode := .editingCommandLine, buffer := q.buffer ++ [ch] } := by
  simp [State.pressKey, h]

theorem pressKey_backspace {s : State} (h : s.session.takesKeys = true) :
    s.pressKey .backspace = s.onSession fun q => { q with buffer := q.buffer.dropLast } := by
  simp [State.pressKey, h]

theorem pressKey_newline {s : State} (h : s.session.takesKeys = true) : s.pressKey .newline = s.finishLine := by
  simp [State.pressKey, h]

/-- A key event ends a run with breakpoints only as a press of the break-in key (rules R145, R148). -/
theorem breakIn_of_debugKey_ends_run {s : State} (h : s.session.mode = .runningWithBreakpoints) {c : Byte} {p : Bool}
    (ht : (s.debugKey c p).session.mode ≠ .runningWithBreakpoints) : p = true ∧ s.keyOf c = some .breakIn := by
  rcases keyEvent_cases s c p with hold | ⟨rfl, hdown, k, hk⟩
  · rw [debugKey_of_not_new hold] at ht
    exact absurd h ht
  · refine ⟨rfl, ?_⟩
    by_contra hne
    have hidle : s.session.takesKeys = false := by simp [DebuggerSession.takesKeys, h]
    have hnothing : s.debugKey c true = s.onSession (DebuggerSession.setKey c true) :=
      (debugKey_of_new hdown hk).trans (pressKey_of_not_taken (fun e => hne (e ▸ hk)) hidle)
    rw [hnothing] at ht
    exact ht h

/-! ## Finished lines (rules R143, R146, R147) -/

/-- A name outside the table is reported (rule R147). -/
theorem command_unknown {name : Text} (h : name ∉ ["run".toList, "x".toList, "break".toList, "call".toList])
    (args : List Text) (s : State) :
    s.command (name :: args) = s.onSession (DebuggerSession.report (.unknownCmd name)) := by
  have hnone : named name commandTable = none := named_eq_none h
  simp only [State.command, hnone]

theorem command_run (args : List Text) (s : State) : s.command ("run".toList :: args) = s.runCommand := rfl

/-- Which mode `run` enters (decision D32). -/
theorem runCommand_eq (s : State) : s.runCommand = s.onSession fun q =>
    { q with mode := if q.breakpoints = [] then .runningUnchecked else .runningWithBreakpoints } := by
  simp [State.runCommand]

theorem command_read (args : List Text) (s : State) : s.command ("x".toList :: args) = s.readPath args := rfl

theorem command_break (args : List Text) (s : State) : s.command ("break".toList :: args) = s.setBreakpoint args := rfl

theorem command_call (args : List Text) (s : State) : s.command ("call".toList :: args) = s.callPath args := rfl

theorem readPath_resolved {s : State} {path : Text} {v : PathValue}
    (h : s.toBlock.evaluatePath (pathNames path) = some v) (more : List Text) :
    s.readPath (path :: more) = s.onSession (DebuggerSession.report (.value v.text)) := by
  simp [State.readPath, h]

theorem readPath_unresolved {s : State} {path : Text} (h : s.toBlock.evaluatePath (pathNames path) = none)
    (more : List Text) :
    s.readPath (path :: more) = s.onSession (DebuggerSession.report (.notFound (pathNames path))) := by
  simp [State.readPath, h]

theorem callPath_method {path : Text} {m : Method} (h : methodOf (pathNames path) = some m) (more : List Text)
    (s : State) : s.callPath (path :: more) = s.invoke m := by
  simp [State.callPath, h]

theorem callPath_unnamed {path : Text} (h : methodOf (pathNames path) = none) (more : List Text) (s : State) :
    s.callPath (path :: more) = s.onSession (DebuggerSession.report (.notFound (pathNames path))) := by
  simp [State.callPath, h]

/-- The operation a method is (rule R143). -/
def methodOperation : Method → Instr
  | .step => .step
  | .imeRequest => .imeRequest
  | .haltEnter => .haltEnter
  | .stopEnter => .stopEnter
  | .timerAdvance => .timerAdvance
  | .serialAdvance => .serialAdvance
  | .dmaAdvance => .dmaAdvance
  | .speedCommit => .speedCommit
  | .dbgStep => .dbgStep

/-- A method called is its operation performed (rule R143). -/
theorem exec_method (m : Method) (s : State) : exec (methodOperation m) s = .next (s.invoke m) := by
  cases m <;> rfl

/-- Each path of the table names its own method. -/
theorem methodOf_of_mem {p : List Text × Method} (h : p ∈ methodPaths) : methodOf p.1 = some p.2 := by
  have hall : ∀ p ∈ methodPaths, methodOf p.1 = some p.2 := by decide
  exact hall p h

theorem methodOf_eq_none {path : List Text} (h : ∀ m, (path, m) ∉ methodPaths) : methodOf path = none := by
  have hfind : methodPaths.find? (fun p => p.1 = path) = none :=
    List.find?_eq_none.mpr fun p hp he => h p.2 (of_decide_eq_true he ▸ hp)
  rw [methodOf, hfind]
  rfl

/-- The paths `call` knows, each with the operation it performs (rule R143, log 16). -/
def calledOperations : List (List Text × Instr) := methodPaths.map fun p => (p.1, methodOperation p.2)

theorem operation_mem_of_mem {path : List Text} {m : Method} (h : (path, m) ∈ methodPaths) :
    (path, methodOperation m) ∈ calledOperations :=
  List.mem_map_of_mem (f := fun p => (p.1, methodOperation p.2)) h

theorem exists_method_of_mem {path : List Text} {i : Instr} (h : (path, i) ∈ calledOperations) :
    ∃ m, methodOf path = some m ∧ i = methodOperation m := by
  obtain ⟨p, hp, he⟩ := List.mem_map.mp h
  cases he
  exact ⟨p.2, methodOf_of_mem hp, rfl⟩

/-- The machine after a newline has been taken and before its command runs. -/
def atPrompt (c : Byte) (s : State) : State :=
  s.onSession fun q => { q.setKey c true with mode := .awaitingCommand, buffer := [] }

theorem debugKey_newline {s : State} {c : Byte} (hdown : s.session.keyDown c = false)
    (hk : s.keyOf c = some .newline) (htakes : s.session.takesKeys = true) :
    exec (.dbgKey c true) s = .next ((atPrompt c s).command (tokens s.session.buffer)) := by
  have h := (debugKey_of_new hdown hk).trans (pressKey_newline htakes)
  exact congrArg Host.Outcome.next h

/-! ## The obligations -/

/-- Settles O53: one law per mode and per answer of the evaluation. Of the operations that are not the debugger's none
touches the session (`exec_session`), DBG.STEP on a quiet evaluation is a STEP, and of the keys only the break-in key
acts in a run. -/
theorem debugStepByMode : Obligations.DebugStepByMode := by
  intro s
  refine ⟨fun h => congrArg Host.Outcome.next (h.elim debugStep_of_prompt debugStep_of_editing),
    fun h => congrArg Host.Outcome.next (debugStep_of_unchecked h),
    fun h => ⟨fun ht => congrArg Host.Outcome.next (debugStep_of_quiet h ht),
      fun ps ht => congrArg Host.Outcome.next (debugStep_of_hit h ht),
      fun ht => congrArg Host.Outcome.next (debugStep_of_fatal h ht)⟩,
    ⟨s.debugStep, s.stepOnce, rfl, rfl, ?_⟩, fun i t h hs ht => ?_⟩
  · rcases debugStep_cases s with e | e | ⟨f, e⟩ <;> rw [e]
    · exact .inl rfl
    · exact .inr rfl
    · exact .inl rfl
  · by_cases hi : IsDebugger i
    · rcases hi with rfl | ⟨c, p, rfl⟩ <;> obtain rfl := Host.Outcome.next.inj hs
      · refine .inl ⟨rfl, fun hquiet => ht ?_⟩
        rw [debugStep_of_quiet h hquiet, stepOnce_session, h]
      · obtain ⟨rfl, hbreak⟩ := breakIn_of_debugKey_ends_run h ht
        exact .inr ⟨c, rfl, hbreak⟩
    · rw [exec_session hi hs] at ht
      exact absurd h ht

/-- Settles O55: the table is `setKey_keyDown`; an event that is no new press is `debugKey_of_not_new`, a new press the
law of its key. -/
theorem keyEventsEditTheCommandLine : Obligations.KeyEventsEditTheCommandLine := by
  refine ⟨setKey_keyDown, fun s c p => ⟨fun h => congrArg Host.Outcome.next (debugKey_of_not_new h), ?_⟩⟩
  rintro rfl hdown
  let pressed := s.onSession (DebuggerSession.setKey c true)
  have hnew {k : Key} (hk : s.keyOf c = some k) {t : State} (h : pressed.pressKey k = t) :
      exec (.dbgKey c true) s = .next t := congrArg Host.Outcome.next ((debugKey_of_new hdown hk).trans h)
  exact ⟨fun ch hk htakes => hnew hk (pressKey_char (s := pressed) htakes ch),
    fun hk htakes => hnew hk (pressKey_backspace (s := pressed) htakes), fun hk => hnew hk rfl,
    fun k hk hne htakes => hnew hk (pressKey_of_not_taken (s := pressed) hne htakes)⟩

/-- Settles O56: the newline runs the line's command from the prompt (`debugKey_newline`), each by its own law. -/
theorem newlineDispatchesTheCommand : Obligations.NewlineDispatchesTheCommand := by
  intro s c hdown hk htakes
  have hrun {line : List Text} (hline : tokens s.session.buffer = line) {t : State}
      (h : (atPrompt c s).command line = t) : exec (.dbgKey c true) s = .next t := by
    rw [debugKey_newline hdown hk htakes, hline, h]
  refine ⟨fun hline => hrun hline rfl, fun name args hline hname => hrun hline (command_unknown hname args _),
    fun args hline => ?_, fun hline => hrun hline rfl,
    fun path args hline => ⟨fun v hv => hrun hline ?_, fun hv => hrun hline ?_⟩, fun args hline => ?_,
    fun hline => hrun hline rfl, fun path args hline => ⟨fun i hi => ?_, fun hi => hrun hline ?_⟩⟩
  · exact hrun hline (runCommand_eq (atPrompt c s))
  · exact readPath_resolved (s := atPrompt c s) hv args
  · exact readPath_unresolved (s := atPrompt c s) hv args
  · have hserved := step_of_setBreakpoint
      (s := { atPrompt c s with pending := .setBreakpoint args :: s.pending }) (args := args) (rest := s.pending) rfl
    exact (hrun hline (command_break args _)).trans hserved.symm
  · obtain ⟨m, hm, rfl⟩ := exists_method_of_mem hi
    exact (hrun hline (callPath_method hm args _)).trans (exec_method m _).symm
  · exact callPath_unnamed (methodOf_eq_none fun m hm => hi _ (operation_mem_of_mem hm)) args _

/-- Settles O59: by `debugKey_cases`, every other key event changes the session alone. -/
theorem keysReachTheBlockOnlyThroughCall : Obligations.KeysReachTheBlockOnlyThroughCall := by
  intro c p s t hs ht
  obtain rfl := Host.Outcome.next.inj hs
  rcases debugKey_cases c p s with ⟨f, e⟩ | ⟨hp, hdown, hk, htakes, path, more, m, -, hline, hm, -, -⟩
  · exact absurd (congrArg State.toBlock e) ht
  · exact ⟨hp, hdown, hk, htakes, path, more, m, hline, hm⟩

end Sys2Proof.Proofs
end
